-- ==== Sys2Proof/Word.lean ====
section
/-! DEFINITION. The two data widths of the TMS9900 (spec R5): a word is 16 bits, a byte is 8.
Everything a field of a word is cut out with stands in Decode.lean or under Machine/. -/

namespace Sys2Proof

/-- A 16-bit word; also a byte address (R5, R8). -/
abbrev Word := BitVec 16

/-- An 8-bit byte (R5). -/
abbrev Byte := BitVec 8

end Sys2Proof
end

