-- ==== Sys2Proof/Syntax.lean ====
section
/-! DEFINITION. The 69 instructions of spec/opcode_table.json (R98), one constructor a row.
An instruction carries the fields of its FIRST word; immediates, symbolic addresses and index
bases are the words that follow it, fetched by the instruction's own rule as it reaches them
(R11, R128), so they are no fields here (log 39). Filler bits carry no meaning (R101) and are no
fields either. -/

namespace Sys2Proof

/-- A workspace register number, 0 to 15 (R24). -/
abbrev Reg := BitVec 4

/-- The five forms of a general operand: the mode field T with its register field (R92). -/
inductive Operand where
  /-- `Rn`: the operand is the register (R111). -/
  | reg (r : Reg)
  /-- `*Rn`: the register holds the address (R112). -/
  | indirect (r : Reg)
  /-- `@LABEL`: the next word is the address (R113). -/
  | symbolic
  /-- `@TABLE(Rn)`: the next word plus the register is the address; the register is not R0 (R114). -/
  | indexed (r : Reg)
  /-- `*Rn+`: the register holds the address and is incremented (R115). -/
  | autoInc (r : Reg)
  deriving DecidableEq, Repr

/-- The instruction set (R98). -/
inductive Instr where
  -- format DUAL, two general operands (R81)
  | szc (src dst : Operand)
  | szcb (src dst : Operand)
  | s (src dst : Operand)
  | sb (src dst : Operand)
  | c (src dst : Operand)
  | cb (src dst : Operand)
  | a (src dst : Operand)
  | ab (src dst : Operand)
  | mov (src dst : Operand)
  | movb (src dst : Operand)
  | soc (src dst : Operand)
  | socb (src dst : Operand)
  -- format DREG, a general source and a register (R82); XOP's number in the same place (R83)
  | coc (src : Operand) (d : Reg)
  | czc (src : Operand) (d : Reg)
  | xor (src : Operand) (d : Reg)
  | xop (src : Operand) (n : BitVec 4)
  -- format CRUM, a general operand and a count field (R84)
  | ldcr (src : Operand) (count : BitVec 4)
  | stcr (dst : Operand) (count : BitVec 4)
  | mpy (src : Operand) (d : Reg)
  | div (src : Operand) (d : Reg)
  -- format SINGLE, one general operand (R85)
  | blwp (src : Operand)
  | b (src : Operand)
  | x (src : Operand)
  | clr (dst : Operand)
  | neg (dst : Operand)
  | inv (dst : Operand)
  | inc (dst : Operand)
  | inct (dst : Operand)
  | dec (dst : Operand)
  | dect (dst : Operand)
  | bl (src : Operand)
  | swpb (dst : Operand)
  | seto (dst : Operand)
  | abs (dst : Operand)
  -- format SHIFT, a count field and a register (R87)
  | sra (count : BitVec 4) (w : Reg)
  | srl (count : BitVec 4) (w : Reg)
  | sla (count : BitVec 4) (w : Reg)
  | src (count : BitVec 4) (w : Reg)
  -- format DISP, a signed 8-bit displacement (R86)
  | jmp (disp : BitVec 8)
  | jlt (disp : BitVec 8)
  | jle (disp : BitVec 8)
  | jeq (disp : BitVec 8)
  | jhe (disp : BitVec 8)
  | jgt (disp : BitVec 8)
  | jne (disp : BitVec 8)
  | jnc (disp : BitVec 8)
  | joc (disp : BitVec 8)
  | jno (disp : BitVec 8)
  | jl (disp : BitVec 8)
  | jh (disp : BitVec 8)
  | jop (disp : BitVec 8)
  | sbo (disp : BitVec 8)
  | sbz (disp : BitVec 8)
  | tb (disp : BitVec 8)
  -- format IMM, a register and an immediate word (R88)
  | li (w : Reg)
  | ai (w : Reg)
  | andi (w : Reg)
  | ori (w : Reg)
  | ci (w : Reg)
  -- format STORE, a register (R90)
  | stwp (w : Reg)
  | stst (w : Reg)
  -- format IMMI, an immediate word (R89)
  | lwpi
  | limi
  -- format CTRL, no operand (R91)
  | idle
  | rset
  | rtwp
  | ckon
  | ckof
  | lrex
  deriving DecidableEq, Repr

end Sys2Proof
end

