-- ==== Sys2Proof/WellFormed.lean ====
section
/-! DEFINITION. Which terms of the syntax an instruction word can stand for. Every combination of
mode and register fields is legal (R101); the one term that no word encodes is an indexed operand
on R0, because mode 10 with register field 0 means symbolic addressing (R92, R114). -/

namespace Sys2Proof

/-- An operand that some mode and register field stand for. -/
def Operand.wellFormed : Operand → Bool
  | .indexed r => r != 0#4
  | _ => true

/-- An instruction whose operands are well formed. -/
def Instr.wellFormed : Instr → Bool
  | .szc p q | .szcb p q | .s p q | .sb p q | .c p q | .cb p q | .a p q | .ab p q
  | .mov p q | .movb p q | .soc p q | .socb p q => p.wellFormed && q.wellFormed
  | .coc p _ | .czc p _ | .xor p _ | .xop p _ | .mpy p _ | .div p _
  | .ldcr p _ | .stcr p _ => p.wellFormed
  | .blwp p | .b p | .x p | .clr p | .neg p | .inv p | .inc p | .inct p | .dec p | .dect p
  | .bl p | .swpb p | .seto p | .abs p => p.wellFormed
  | .sra _ _ | .srl _ _ | .sla _ _ | .src _ _ => true
  | .jmp _ | .jlt _ | .jle _ | .jeq _ | .jhe _ | .jgt _ | .jne _ | .jnc _ | .joc _ | .jno _
  | .jl _ | .jh _ | .jop _ | .sbo _ | .sbz _ | .tb _ => true
  | .li _ | .ai _ | .andi _ | .ori _ | .ci _ | .stwp _ | .stst _ => true
  | .lwpi | .limi | .idle | .rset | .rtwp | .ckon | .ckof | .lrex => true

end Sys2Proof
end

