-- ==== Sys2Proof/Decode.lean ====
section
/-! DEFINITION. The decoder, total on every word and on any bytes, and after it the encoder, both
written from the encoding tables of spec/30_encoding.md (R81-R92, R98, R99). Slices are by weight
(bit 0 least significant, R7). -/

namespace Sys2Proof

/-! ## Fields -/

/-- Register field S, `ir[3:0]`; the same slice is W in the formats with one register. -/
def fieldS (ir : Word) : Reg := ir.extractLsb' 0 4

/-- Mode field Ts, `ir[5:4]`. -/
def fieldTs (ir : Word) : BitVec 2 := ir.extractLsb' 4 2

/-- Register field D, `ir[9:6]`; XOP's number and the CRU count C stand in the same slice. -/
def fieldD (ir : Word) : BitVec 4 := ir.extractLsb' 6 4

/-- Mode field Td, `ir[11:10]`. -/
def fieldTd (ir : Word) : BitVec 2 := ir.extractLsb' 10 2

/-- Shift count field C, `ir[7:4]`. -/
def fieldC (ir : Word) : BitVec 4 := ir.extractLsb' 4 4

/-- Displacement, `ir[7:0]`. -/
def fieldDisp (ir : Word) : BitVec 8 := ir.extractLsb' 0 8

/-- The operand a mode field and a register field stand for (R92). -/
def operandOf (t : BitVec 2) (r : Reg) : Operand :=
  match t.toNat with
  | 0 => .reg r
  | 1 => .indirect r
  | 2 => if r = 0#4 then .symbolic else .indexed r
  | _ => .autoInc r

/-! ## Decoding one word, format by format (R99) -/

/-- Format DUAL, `ir[15:12]` from 0100 to 1111 (R81). -/
def decodeDual (ir : Word) : Option Instr :=
  let p := operandOf (fieldTs ir) (fieldS ir)
  let q := operandOf (fieldTd ir) (fieldD ir)
  match (ir.extractLsb' 12 4).toNat with
  | 4 => some (.szc p q)
  | 5 => some (.szcb p q)
  | 6 => some (.s p q)
  | 7 => some (.sb p q)
  | 8 => some (.c p q)
  | 9 => some (.cb p q)
  | 10 => some (.a p q)
  | 11 => some (.ab p q)
  | 12 => some (.mov p q)
  | 13 => some (.movb p q)
  | 14 => some (.soc p q)
  | 15 => some (.socb p q)
  | _ => none

/-- Formats DREG and CRUM and XOP, `ir[15:13]` = 001, by `ir[12:10]` (R82, R83, R84). -/
def decodeRegDest (ir : Word) : Option Instr :=
  let p := operandOf (fieldTs ir) (fieldS ir)
  let d := fieldD ir
  match (ir.extractLsb' 10 3).toNat with
  | 0 => some (.coc p d)
  | 1 => some (.czc p d)
  | 2 => some (.xor p d)
  | 3 => some (.xop p d)
  | 4 => some (.ldcr p d)
  | 5 => some (.stcr p d)
  | 6 => some (.mpy p d)
  | _ => some (.div p d)

/-- Format DISP, `ir[15:12]` = 0001, by `ir[11:8]` (R86). -/
def decodeDisp (ir : Word) : Option Instr :=
  let d := fieldDisp ir
  match (ir.extractLsb' 8 4).toNat with
  | 0 => some (.jmp d)
  | 1 => some (.jlt d)
  | 2 => some (.jle d)
  | 3 => some (.jeq d)
  | 4 => some (.jhe d)
  | 5 => some (.jgt d)
  | 6 => some (.jne d)
  | 7 => some (.jnc d)
  | 8 => some (.joc d)
  | 9 => some (.jno d)
  | 10 => some (.jl d)
  | 11 => some (.jh d)
  | 12 => some (.jop d)
  | 13 => some (.sbo d)
  | 14 => some (.sbz d)
  | _ => some (.tb d)

/-- Format SHIFT, `ir[15:10]` = 000010, by `ir[9:8]` (R87). -/
def decodeShift (ir : Word) : Option Instr :=
  let n := fieldC ir
  let w := fieldS ir
  match (ir.extractLsb' 8 2).toNat with
  | 0 => some (.sra n w)
  | 1 => some (.srl n w)
  | 2 => some (.sla n w)
  | _ => some (.src n w)

/-- Format SINGLE, `ir[15:10]` = 000001, by `ir[9:6]`; 1110 and 1111 are unassigned (R85, R100). -/
def decodeSingle (ir : Word) : Option Instr :=
  let p := operandOf (fieldTs ir) (fieldS ir)
  match (ir.extractLsb' 6 4).toNat with
  | 0 => some (.blwp p)
  | 1 => some (.b p)
  | 2 => some (.x p)
  | 3 => some (.clr p)
  | 4 => some (.neg p)
  | 5 => some (.inv p)
  | 6 => some (.inc p)
  | 7 => some (.inct p)
  | 8 => some (.dec p)
  | 9 => some (.dect p)
  | 10 => some (.bl p)
  | 11 => some (.swpb p)
  | 12 => some (.seto p)
  | 13 => some (.abs p)
  | _ => none

/-- Formats IMM, STORE, IMMI and CTRL, `ir[15:9]` = 0000001, by `ir[8:5]`; 1001 is unassigned
(R88-R91, R100). The bits below the opcode that hold no register are filler (R101, log 12). -/
def decodeControl (ir : Word) : Option Instr :=
  let w := fieldS ir
  match (ir.extractLsb' 5 4).toNat with
  | 0 => some (.li w)
  | 1 => some (.ai w)
  | 2 => some (.andi w)
  | 3 => some (.ori w)
  | 4 => some (.ci w)
  | 5 => some (.stwp w)
  | 6 => some (.stst w)
  | 7 => some .lwpi
  | 8 => some .limi
  | 10 => some .idle
  | 11 => some .rset
  | 12 => some .rtwp
  | 13 => some .ckon
  | 14 => some .ckof
  | 15 => some .lrex
  | _ => none

/-- The instruction a word stands for, or `none` for the 1696 words no row of the table assigns
(R98, R99, R100): the classes by leading bits of R107. -/
def decode (ir : Word) : Option Instr :=
  match (ir.extractLsb' 12 4).toNat with
  | 0 =>
    match (ir.extractLsb' 9 3).toNat with
    | 1 => decodeControl ir
    | 2 | 3 => decodeSingle ir
    | 4 | 5 => decodeShift ir
    | _ => none
  | 1 => decodeDisp ir
  | 2 | 3 => decodeRegDest ir
  | _ => decodeDual ir

/-! ## Decoding bytes -/

/-- What the decoder makes of a byte stream. -/
inductive Decoded where
  /-- The first word is this instruction; the bytes after that word follow, the instruction's
  extension words first. -/
  | instr (i : Instr) (rest : List Byte)
  /-- The first word is assigned to no instruction (R100). -/
  | unassigned (ir : Word)
  /-- Fewer than two bytes: no instruction word. -/
  | tooShort
  deriving DecidableEq, Repr

/-- Decodes a byte stream: the first word, most significant byte first (R54), by `decode`. -/
def decodeBytes : List Byte → Decoded
  | h :: l :: rest =>
    match decode (h ++ l) with
    | some i => .instr i rest
    | none => .unassigned (h ++ l)
  | _ => .tooShort

/-- The three words of an instruction whose bits are `w`, numbered with the first word in bits 15..0,
only the low `nbits` of them given. -/
def tableWords (nbits w : Nat) : List Word :=
  let v := w % 2 ^ nbits
  [BitVec.ofNat 16 v, BitVec.ofNat 16 (v / 2 ^ 16), BitVec.ofNat 16 (v / 2 ^ 32)]

/-- Words as the hardware stores them: each most significant byte first, the first word at the lowest
address (R54, R97). -/
def bytesOfWords : List Word → List Byte
  | [] => []
  | w :: ws => w.extractLsb' 8 8 :: w.extractLsb' 0 8 :: bytesOfWords ws

/-- The instruction the decoder reads from bits numbered as spec/opcode_table.json numbers them. -/
def decodeTableWord (nbits w : Nat) : Option Instr :=
  match decodeBytes (bytesOfWords (tableWords nbits w)) with
  | .instr i _ => some i
  | _ => none

/-! ## Encoding -/

/-- The mode field and the register field of an operand, T above R (R92). -/
def Operand.bits : Operand → BitVec 6
  | .reg r => 0b00#2 ++ r
  | .indirect r => 0b01#2 ++ r
  | .symbolic => 0b10#2 ++ 0#4
  | .indexed r => 0b10#2 ++ r
  | .autoInc r => 0b11#2 ++ r

/-- Format DUAL: opcode with B, Td, D, Ts, S (R81). -/
def dualFormat (op : BitVec 4) (src dst : Operand) : Word := op ++ (dst.bits ++ src.bits)

/-- Formats DREG and CRUM: opcode, D or the count, Ts, S (R82, R83, R84). -/
def regFormat (op : BitVec 6) (src : Operand) (d : BitVec 4) : Word := op ++ (d ++ src.bits)

/-- Format SINGLE: opcode, Ts, S (R85). -/
def singleFormat (op : BitVec 10) (src : Operand) : Word := op ++ src.bits

/-- Format SHIFT: opcode, C, W (R87). -/
def shiftFormat (op : BitVec 8) (count : BitVec 4) (w : Reg) : Word := op ++ (count ++ w)

/-- Format DISP: opcode, displacement (R86). -/
def dispFormat (op : BitVec 8) (disp : BitVec 8) : Word := op ++ disp

/-- Formats IMM and STORE: opcode, filler bit 0, W (R88, R90). -/
def wordRegFormat (op : BitVec 11) (w : Reg) : Word := op ++ (0#1 ++ w)

/-- Formats IMMI and CTRL: opcode, filler bits 0 (R89, R91). -/
def controlFormat (op : BitVec 11) : Word := op ++ 0#5

/-- The first word of an instruction, filler bits 0 (R81-R91, R98, R101). -/
def encode : Instr → Word
  | .szc p q => dualFormat 0b0100#4 p q
  | .szcb p q => dualFormat 0b0101#4 p q
  | .s p q => dualFormat 0b0110#4 p q
  | .sb p q => dualFormat 0b0111#4 p q
  | .c p q => dualFormat 0b1000#4 p q
  | .cb p q => dualFormat 0b1001#4 p q
  | .a p q => dualFormat 0b1010#4 p q
  | .ab p q => dualFormat 0b1011#4 p q
  | .mov p q => dualFormat 0b1100#4 p q
  | .movb p q => dualFormat 0b1101#4 p q
  | .soc p q => dualFormat 0b1110#4 p q
  | .socb p q => dualFormat 0b1111#4 p q
  | .coc p d => regFormat 0b001000#6 p d
  | .czc p d => regFormat 0b001001#6 p d
  | .xor p d => regFormat 0b001010#6 p d
  | .xop p n => regFormat 0b001011#6 p n
  | .ldcr p n => regFormat 0b001100#6 p n
  | .stcr p n => regFormat 0b001101#6 p n
  | .mpy p d => regFormat 0b001110#6 p d
  | .div p d => regFormat 0b001111#6 p d
  | .blwp p => singleFormat 0b0000010000#10 p
  | .b p => singleFormat 0b0000010001#10 p
  | .x p => singleFormat 0b0000010010#10 p
  | .clr p => singleFormat 0b0000010011#10 p
  | .neg p => singleFormat 0b0000010100#10 p
  | .inv p => singleFormat 0b0000010101#10 p
  | .inc p => singleFormat 0b0000010110#10 p
  | .inct p => singleFormat 0b0000010111#10 p
  | .dec p => singleFormat 0b0000011000#10 p
  | .dect p => singleFormat 0b0000011001#10 p
  | .bl p => singleFormat 0b0000011010#10 p
  | .swpb p => singleFormat 0b0000011011#10 p
  | .seto p => singleFormat 0b0000011100#10 p
  | .abs p => singleFormat 0b0000011101#10 p
  | .sra n w => shiftFormat 0b00001000#8 n w
  | .srl n w => shiftFormat 0b00001001#8 n w
  | .sla n w => shiftFormat 0b00001010#8 n w
  | .src n w => shiftFormat 0b00001011#8 n w
  | .jmp d => dispFormat 0b00010000#8 d
  | .jlt d => dispFormat 0b00010001#8 d
  | .jle d => dispFormat 0b00010010#8 d
  | .jeq d => dispFormat 0b00010011#8 d
  | .jhe d => dispFormat 0b00010100#8 d
  | .jgt d => dispFormat 0b00010101#8 d
  | .jne d => dispFormat 0b00010110#8 d
  | .jnc d => dispFormat 0b00010111#8 d
  | .joc d => dispFormat 0b00011000#8 d
  | .jno d => dispFormat 0b00011001#8 d
  | .jl d => dispFormat 0b00011010#8 d
  | .jh d => dispFormat 0b00011011#8 d
  | .jop d => dispFormat 0b00011100#8 d
  | .sbo d => dispFormat 0b00011101#8 d
  | .sbz d => dispFormat 0b00011110#8 d
  | .tb d => dispFormat 0b00011111#8 d
  | .li w => wordRegFormat 0b00000010000#11 w
  | .ai w => wordRegFormat 0b00000010001#11 w
  | .andi w => wordRegFormat 0b00000010010#11 w
  | .ori w => wordRegFormat 0b00000010011#11 w
  | .ci w => wordRegFormat 0b00000010100#11 w
  | .stwp w => wordRegFormat 0b00000010101#11 w
  | .stst w => wordRegFormat 0b00000010110#11 w
  | .lwpi => controlFormat 0b00000010111#11
  | .limi => controlFormat 0b00000011000#11
  | .idle => controlFormat 0b00000011010#11
  | .rset => controlFormat 0b00000011011#11
  | .rtwp => controlFormat 0b00000011100#11
  | .ckon => controlFormat 0b00000011101#11
  | .ckof => controlFormat 0b00000011110#11
  | .lrex => controlFormat 0b00000011111#11

/-! ## Length -/

/-- Extension words of a general operand: one for the symbolic and indexed modes (R102). -/
def Operand.extWords : Operand → Nat
  | .symbolic | .indexed _ => 1
  | _ => 0

/-- Length of an instruction in words (R102). -/
def Instr.words : Instr → Nat
  | .szc p q | .szcb p q | .s p q | .sb p q | .c p q | .cb p q | .a p q | .ab p q
  | .mov p q | .movb p q | .soc p q | .socb p q => 1 + p.extWords + q.extWords
  | .coc p _ | .czc p _ | .xor p _ | .xop p _ | .mpy p _ | .div p _
  | .ldcr p _ | .stcr p _ => 1 + p.extWords
  | .blwp p | .b p | .x p | .clr p | .neg p | .inv p | .inc p | .inct p | .dec p | .dect p
  | .bl p | .swpb p | .seto p | .abs p => 1 + p.extWords
  | .sra _ _ | .srl _ _ | .sla _ _ | .src _ _ => 1
  | .jmp _ | .jlt _ | .jle _ | .jeq _ | .jhe _ | .jgt _ | .jne _ | .jnc _ | .joc _ | .jno _
  | .jl _ | .jh _ | .jop _ | .sbo _ | .sbz _ | .tb _ => 1
  | .li _ | .ai _ | .andi _ | .ori _ | .ci _ | .lwpi | .limi => 2
  | .stwp _ | .stst _ | .idle | .rset | .rtwp | .ckon | .ckof | .lrex => 1

/-! ## The opcode table's rows (R98) -/

/-- The match and the mask of an instruction's row in spec/opcode_table.json. -/
def Instr.tableRow : Instr → Word × Word
  | .szc _ _ => (0x4000#16, 0xF000#16)
  | .szcb _ _ => (0x5000#16, 0xF000#16)
  | .s _ _ => (0x6000#16, 0xF000#16)
  | .sb _ _ => (0x7000#16, 0xF000#16)
  | .c _ _ => (0x8000#16, 0xF000#16)
  | .cb _ _ => (0x9000#16, 0xF000#16)
  | .a _ _ => (0xA000#16, 0xF000#16)
  | .ab _ _ => (0xB000#16, 0xF000#16)
  | .mov _ _ => (0xC000#16, 0xF000#16)
  | .movb _ _ => (0xD000#16, 0xF000#16)
  | .soc _ _ => (0xE000#16, 0xF000#16)
  | .socb _ _ => (0xF000#16, 0xF000#16)
  | .coc _ _ => (0x2000#16, 0xFC00#16)
  | .czc _ _ => (0x2400#16, 0xFC00#16)
  | .xor _ _ => (0x2800#16, 0xFC00#16)
  | .xop _ _ => (0x2C00#16, 0xFC00#16)
  | .ldcr _ _ => (0x3000#16, 0xFC00#16)
  | .stcr _ _ => (0x3400#16, 0xFC00#16)
  | .mpy _ _ => (0x3800#16, 0xFC00#16)
  | .div _ _ => (0x3C00#16, 0xFC00#16)
  | .blwp _ => (0x0400#16, 0xFFC0#16)
  | .b _ => (0x0440#16, 0xFFC0#16)
  | .x _ => (0x0480#16, 0xFFC0#16)
  | .clr _ => (0x04C0#16, 0xFFC0#16)
  | .neg _ => (0x0500#16, 0xFFC0#16)
  | .inv _ => (0x0540#16, 0xFFC0#16)
  | .inc _ => (0x0580#16, 0xFFC0#16)
  | .inct _ => (0x05C0#16, 0xFFC0#16)
  | .dec _ => (0x0600#16, 0xFFC0#16)
  | .dect _ => (0x0640#16, 0xFFC0#16)
  | .bl _ => (0x0680#16, 0xFFC0#16)
  | .swpb _ => (0x06C0#16, 0xFFC0#16)
  | .seto _ => (0x0700#16, 0xFFC0#16)
  | .abs _ => (0x0740#16, 0xFFC0#16)
  | .sra _ _ => (0x0800#16, 0xFF00#16)
  | .srl _ _ => (0x0900#16, 0xFF00#16)
  | .sla _ _ => (0x0A00#16, 0xFF00#16)
  | .src _ _ => (0x0B00#16, 0xFF00#16)
  | .jmp _ => (0x1000#16, 0xFF00#16)
  | .jlt _ => (0x1100#16, 0xFF00#16)
  | .jle _ => (0x1200#16, 0xFF00#16)
  | .jeq _ => (0x1300#16, 0xFF00#16)
  | .jhe _ => (0x1400#16, 0xFF00#16)
  | .jgt _ => (0x1500#16, 0xFF00#16)
  | .jne _ => (0x1600#16, 0xFF00#16)
  | .jnc _ => (0x1700#16, 0xFF00#16)
  | .joc _ => (0x1800#16, 0xFF00#16)
  | .jno _ => (0x1900#16, 0xFF00#16)
  | .jl _ => (0x1A00#16, 0xFF00#16)
  | .jh _ => (0x1B00#16, 0xFF00#16)
  | .jop _ => (0x1C00#16, 0xFF00#16)
  | .sbo _ => (0x1D00#16, 0xFF00#16)
  | .sbz _ => (0x1E00#16, 0xFF00#16)
  | .tb _ => (0x1F00#16, 0xFF00#16)
  | .li _ => (0x0200#16, 0xFFE0#16)
  | .ai _ => (0x0220#16, 0xFFE0#16)
  | .andi _ => (0x0240#16, 0xFFE0#16)
  | .ori _ => (0x0260#16, 0xFFE0#16)
  | .ci _ => (0x0280#16, 0xFFE0#16)
  | .stwp _ => (0x02A0#16, 0xFFE0#16)
  | .stst _ => (0x02C0#16, 0xFFE0#16)
  | .lwpi => (0x02E0#16, 0xFFE0#16)
  | .limi => (0x0300#16, 0xFFE0#16)
  | .idle => (0x0340#16, 0xFFE0#16)
  | .rset => (0x0360#16, 0xFFE0#16)
  | .rtwp => (0x0380#16, 0xFFE0#16)
  | .ckon => (0x03A0#16, 0xFFE0#16)
  | .ckof => (0x03C0#16, 0xFFE0#16)
  | .lrex => (0x03E0#16, 0xFFE0#16)

/-- The filler bits of an instruction's first word (R101). -/
def Instr.filler : Instr → Word
  | .li _ | .ai _ | .andi _ | .ori _ | .ci _ | .stwp _ | .stst _ => 0x0010#16
  | .lwpi | .limi | .idle | .rset | .rtwp | .ckon | .ckof | .lrex => 0x001F#16
  | .szc _ _ | .szcb _ _ | .s _ _ | .sb _ _ | .c _ _ | .cb _ _ | .a _ _ | .ab _ _
  | .mov _ _ | .movb _ _ | .soc _ _ | .socb _ _ => 0#16
  | .coc _ _ | .czc _ _ | .xor _ _ | .xop _ _ | .mpy _ _ | .div _ _ | .ldcr _ _ | .stcr _ _ => 0#16
  | .blwp _ | .b _ | .x _ | .clr _ | .neg _ | .inv _ | .inc _ | .inct _ | .dec _ | .dect _
  | .bl _ | .swpb _ | .seto _ | .abs _ => 0#16
  | .sra _ _ | .srl _ _ | .sla _ _ | .src _ _ => 0#16
  | .jmp _ | .jlt _ | .jle _ | .jeq _ | .jhe _ | .jgt _ | .jne _ | .jnc _ | .joc _ | .jno _
  | .jl _ | .jh _ | .jop _ | .sbo _ | .sbz _ | .tb _ => 0#16

end Sys2Proof
end

