-- ==== Sys2Proof/Config.lean ====
section
/-! DEFINITION. What the platform fixes and the free values the spec leaves open (R6). A free value
is an opaque constant: nothing in Lean can evaluate it or prove a value of it. -/

namespace Sys2Proof

/-- What a byte of memory holds that nothing has written since power-up, by its address: a free
value (R45 lets a model treat such a byte as a draw). DESIGN CHOICE, log 1; safe. -/
opaque Config.powerUpByte : Nat → BitVec 8

/-- The answer of the device read number `n`, at a word address: a free value (R65). Log 7; safe. -/
opaque Config.deviceRead : Nat → BitVec 16 → BitVec 16

/-- The answer of the CRU input number `n`, at a bit address, where the environment has fixed none: a
free value (R185, decision D15). Log 9; safe. -/
opaque Config.cruIn : Nat → BitVec 12 → Bool

/-- Whether RESET is requested at the sampling point whose draw has number `n`, where the environment has
fixed nothing: a free value (R6, R127, U13). Log 8; safe. -/
opaque Config.resetReq : Nat → Bool

/-- Whether LOAD is requested there: a free value. Log 8; safe. -/
opaque Config.loadReq : Nat → Bool

/-- The level of the maskable request there, none where there is none: a free value. Log 8; safe. -/
opaque Config.intReq : Nat → Option (BitVec 4)

/-- The initial workspace pointer in the platform's RESET vector (R307). DESIGN CHOICE, log 2; unsafe. -/
def Config.resetWP : Word := 0x8300#16

/-- The initial program counter in the platform's RESET vector (R307). DESIGN CHOICE, log 2; unsafe. -/
def Config.resetPC : Word := 0x0100#16

/-- The bytes present in memory at power-up, the parameter InitialMem of R6: the RESET vector at
0x0000 (R307 item 1), most significant byte first (R54); every other byte holds no value (R45).
DESIGN CHOICE, log 2; unsafe. -/
def Config.initialByte : Nat → Option Byte
  | 0 => some (Config.resetWP.extractLsb' 8 8)
  | 1 => some (Config.resetWP.extractLsb' 0 8)
  | 2 => some (Config.resetPC.extractLsb' 8 8)
  | 3 => some (Config.resetPC.extractLsb' 0 8)
  | _ => none

/-- How many X instructions of one chain are followed inside one step; a longer chain goes on in the
next step (R174). DESIGN CHOICE, log 22; safe. -/
def Config.executeChain : Nat := 16

end Sys2Proof
end

