-- ==== Sys2Proof/Machine/State.lean ====
section
/-! DEFINITION. The state of the machine, all of it plain data, the reasons a step can stop, and the
state right after RESET (spec/10_state.md, R46). -/

namespace Sys2Proof.Machine

/-- Why a step ends the run: the model faults of R12. None is an event of the hardware, which has no
error trap (R260). -/
inductive Fault where
  /-- Raised by `step` and by the meaning of X on a word no table row assigns (R100, R174). Safe: the
  model stops where the chip is only believed to go on. Log 11. -/
  | illegalOpcode (ir : Word)
  /-- Raised by every access, of any instruction, at a word address the memory map leaves empty (R65).
  Safe: the chip would go on with bus garbage. Log 6. -/
  | unmappedAccess (addr : Word)
  /-- Raised by every store, of any instruction, at a ROM address (R65). Safe: the chip would lose the
  write and go on. Log 6. -/
  | romWrite (addr : Word)
  deriving DecidableEq, Repr

/-- Why the model gives an instruction no meaning. -/
inductive Refusal where
  /-- Raised by an arm of `exec` whose instruction has no meaning yet; no arm does. Safe. -/
  | notModelled (mnemonic : String)
  deriving DecidableEq, Repr

/-- The status register ST (R30): the seven one-bit flags and the interrupt mask. TI bits 7-11 are not
storage and have no field (R31, conflict C6). -/
structure Status where
  /-- L>, TI bit 0: logical greater than. -/
  lgt : Bool
  /-- A>, TI bit 1: arithmetic greater than. -/
  agt : Bool
  /-- =, TI bit 2: equal. -/
  eq : Bool
  /-- C, TI bit 3: carry. -/
  c : Bool
  /-- O, TI bit 4: overflow. -/
  ov : Bool
  /-- P, TI bit 5: odd parity. -/
  op : Bool
  /-- X, TI bit 6: XOP instruction executed. -/
  x : Bool
  /-- INT, TI bits 12-15: the interrupt mask. -/
  mask : BitVec 4
  deriving DecidableEq, Repr

/-- Memory: the bytes that have been given a value, as address and byte pairs in the canonical form of
`Memory.wf` (Machine/Ops.lean). -/
abbrev Memory := List Host.Cell

/-- What an address holds, the platform parameter MemKind (R6, R65). -/
inductive MemKind where
  | ram
  | rom
  | device
  | unmapped
  deriving DecidableEq, Repr

/-- A range of byte addresses of one kind; the first range that holds an address decides, and an
address in none is RAM (R6, decision D30; log 5). -/
structure Region where
  base : Nat
  size : Nat
  kind : MemKind
  deriving DecidableEq, Repr

/-- What the environment presents at one sampling point: the draws ResetReq, LoadReq and IntReq of R6
(R127, R263). -/
structure Sample where
  reset : Bool
  load : Bool
  int : Option (BitVec 4)
  deriving DecidableEq, Repr

/-- A sampling point at which nothing is requested. -/
def Sample.quiet : Sample := ⟨false, false, none⟩

/-- What the environment sees (R13): every store, every CRU output bit, every external-instruction code and
every device access. -/
inductive Event where
  /-- A word the CPU has written to RAM, at its even address: the whole word, for a byte store too (R10,
  R60). -/
  | memWrite (addr : Word) (value : Word)
  /-- A CRU output bit at a CRU bit address (R185). -/
  | cruOut (addr : BitVec 12) (bit : Bool)
  /-- An external-instruction code on A0-A2 (R255). -/
  | ext (code : BitVec 3)
  /-- A word read at a device address (R65, R72). -/
  | deviceRead (addr : Word)
  /-- A word written at a device address (R65, R72). -/
  | deviceWrite (addr : Word) (value : Word)
  deriving DecidableEq, Repr

/-- The machine. The sixteen workspace registers are words of `mem` (R24, R28) and have no fields of
their own. -/
structure State where
  /-- Program counter (R20). -/
  pc : Word
  /-- Workspace pointer (R22). -/
  wp : Word
  /-- Status register (R30). -/
  st : Status
  /-- Memory (R10, R50). -/
  mem : Memory
  /-- Latch set by IDLE, cleared by trap entry (R41). -/
  idle : Bool
  /-- Latch that holds back the maskable interrupt once (R42). -/
  inhibit : Bool
  /-- The model mark of R43: a state that holds it has no further step. No step sets it, since a step
  that faults has no next state (log 37). -/
  faulted : Option Fault
  /-- The model's own: the word an X chain has still to execute (R174, log 22). -/
  pendingX : Option Word
  /-- The platform's memory map (R6, R65; log 5). Constant along a run. -/
  regions : List Region
  /-- What the environment has fixed to present at the coming sampling points, oldest first; where the
  list is at its end every request is a free value, unless `requestsEnd` holds (R127; log 8). -/
  samples : List Sample
  /-- The environment has fixed to present no request past the end of `samples` (log 8). Constant along a
  run. -/
  requestsEnd : Bool
  /-- Answers to coming CRU inputs the environment has fixed, oldest first; where the list is at its
  end the answer is a free value (R185; log 9). -/
  cruInputs : List Bool
  /-- The model's own: how many free values have been drawn (log 7). -/
  draws : Nat
  /-- What the environment has seen since power-up RESET, newest first (R13; logs 10, 44). -/
  events : List Event
  deriving DecidableEq, Repr

/-! ## Updates, one per field (their lemmas: Laws/State.lean) -/

/-- The state with `pc` replaced. -/
def State.withPc (s : State) (v : Word) : State :=
  ⟨v, s.wp, s.st, s.mem, s.idle, s.inhibit, s.faulted, s.pendingX,
    s.regions, s.samples, s.requestsEnd, s.cruInputs, s.draws, s.events⟩

/-- The state with `wp` replaced. -/
def State.withWp (s : State) (v : Word) : State :=
  ⟨s.pc, v, s.st, s.mem, s.idle, s.inhibit, s.faulted, s.pendingX,
    s.regions, s.samples, s.requestsEnd, s.cruInputs, s.draws, s.events⟩

/-- The state with `st` replaced. -/
def State.withSt (s : State) (v : Status) : State :=
  ⟨s.pc, s.wp, v, s.mem, s.idle, s.inhibit, s.faulted, s.pendingX,
    s.regions, s.samples, s.requestsEnd, s.cruInputs, s.draws, s.events⟩

/-- The state with `mem` replaced. -/
def State.withMem (s : State) (v : Memory) : State :=
  ⟨s.pc, s.wp, s.st, v, s.idle, s.inhibit, s.faulted, s.pendingX,
    s.regions, s.samples, s.requestsEnd, s.cruInputs, s.draws, s.events⟩

/-- The state with `idle` replaced. -/
def State.withIdle (s : State) (v : Bool) : State :=
  ⟨s.pc, s.wp, s.st, s.mem, v, s.inhibit, s.faulted, s.pendingX,
    s.regions, s.samples, s.requestsEnd, s.cruInputs, s.draws, s.events⟩

/-- The state with `inhibit` replaced. -/
def State.withInhibit (s : State) (v : Bool) : State :=
  ⟨s.pc, s.wp, s.st, s.mem, s.idle, v, s.faulted, s.pendingX,
    s.regions, s.samples, s.requestsEnd, s.cruInputs, s.draws, s.events⟩

/-- The state with `faulted` replaced. -/
def State.withFaulted (s : State) (v : Option Fault) : State :=
  ⟨s.pc, s.wp, s.st, s.mem, s.idle, s.inhibit, v, s.pendingX,
    s.regions, s.samples, s.requestsEnd, s.cruInputs, s.draws, s.events⟩

/-- The state with `pendingX` replaced. -/
def State.withPendingX (s : State) (v : Option Word) : State :=
  ⟨s.pc, s.wp, s.st, s.mem, s.idle, s.inhibit, s.faulted, v,
    s.regions, s.samples, s.requestsEnd, s.cruInputs, s.draws, s.events⟩

/-- The state with `regions` replaced. -/
def State.withRegions (s : State) (v : List Region) : State :=
  ⟨s.pc, s.wp, s.st, s.mem, s.idle, s.inhibit, s.faulted, s.pendingX,
    v, s.samples, s.requestsEnd, s.cruInputs, s.draws, s.events⟩

/-- The state with `samples` replaced. -/
def State.withSamples (s : State) (v : List Sample) : State :=
  ⟨s.pc, s.wp, s.st, s.mem, s.idle, s.inhibit, s.faulted, s.pendingX,
    s.regions, v, s.requestsEnd, s.cruInputs, s.draws, s.events⟩

/-- The state with `requestsEnd` replaced. -/
def State.withRequestsEnd (s : State) (v : Bool) : State :=
  ⟨s.pc, s.wp, s.st, s.mem, s.idle, s.inhibit, s.faulted, s.pendingX,
    s.regions, s.samples, v, s.cruInputs, s.draws, s.events⟩

/-- The state with `cruInputs` replaced. -/
def State.withCruInputs (s : State) (v : List Bool) : State :=
  ⟨s.pc, s.wp, s.st, s.mem, s.idle, s.inhibit, s.faulted, s.pendingX,
    s.regions, s.samples, s.requestsEnd, v, s.draws, s.events⟩

/-- The state with `draws` replaced. -/
def State.withDraws (s : State) (v : Nat) : State :=
  ⟨s.pc, s.wp, s.st, s.mem, s.idle, s.inhibit, s.faulted, s.pendingX,
    s.regions, s.samples, s.requestsEnd, s.cruInputs, v, s.events⟩

/-- The state with `events` replaced. -/
def State.withEvents (s : State) (v : List Event) : State :=
  ⟨s.pc, s.wp, s.st, s.mem, s.idle, s.inhibit, s.faulted, s.pendingX,
    s.regions, s.samples, s.requestsEnd, s.cruInputs, s.draws, v⟩

/-- The machine right after the RESET sequence at power-up, before the first instruction (R46, R301).
WP and PC are the platform's RESET vector (log 2, DESIGN CHOICE, unsafe); the seven flags are named 0
(log 3, DESIGN CHOICE, unsafe); no byte of memory has been written, R13-R15 of the first workspace
included (logs 1 and 4, safe); `inhibit` is true; no request is fixed, so every one is a free value
(log 8, safe). The record of events starts empty after that sequence, whose three stores are not in it
(log 44, DESIGN CHOICE, unsafe). -/
def State.reset : State where
  pc := Config.resetPC &&& 0xFFFE#16
  wp := Config.resetWP &&& 0xFFFE#16
  st := ⟨false, false, false, false, false, false, false, 0#4⟩
  mem := []
  idle := false
  inhibit := true
  faulted := none
  pendingX := none
  regions := []
  samples := []
  requestsEnd := false
  cruInputs := []
  draws := 0
  events := []

end Sys2Proof.Machine
end

