-- ==== Sys2Proof/Machine/Flags.lean ====
section
/-! DEFINITION. The status word, the arithmetic helpers and the status helpers of
spec/40_addressing.md (R120-R125) and spec/10_state.md (R30, R31). -/

namespace Sys2Proof.Machine

/-! ## ST as a word -/

/-- ST read as a word: LGT is TI bit 0 (mask 0x8000), the mask is TI bits 12-15, and TI bits 7-11
read 0 (R30, R31). -/
def Status.toWord (t : Status) : Word :=
  BitVec.ofBool t.lgt ++ BitVec.ofBool t.agt ++ BitVec.ofBool t.eq ++ BitVec.ofBool t.c ++
    BitVec.ofBool t.ov ++ BitVec.ofBool t.op ++ BitVec.ofBool t.x ++ 0#5 ++ t.mask

/-- ST written whole from a word; TI bits 7-11 are dropped (R31). -/
def Status.ofWord (w : Word) : Status where
  lgt := w.getLsbD 15
  agt := w.getLsbD 14
  eq := w.getLsbD 13
  c := w.getLsbD 12
  ov := w.getLsbD 11
  op := w.getLsbD 10
  x := w.getLsbD 9
  mask := w.extractLsb' 0 4

/-! ## Arithmetic -/

/-- A result with its carry and its overflow. -/
structure Arith (n : Nat) where
  value : BitVec n
  carry : Bool
  overflow : Bool
  deriving DecidableEq, Repr

/-- Add16 and Add8 (R122): the wrapped sum, the unsigned and the signed overflow. -/
def add {n : Nat} (a b : BitVec n) : Arith n where
  value := a + b
  carry := decide (2 ^ n ≤ a.toNat + b.toNat)
  overflow := a.msb == b.msb && (a + b).msb != a.msb

/-- Sub16 and Sub8 (R123): a minus b; the carry is 1 when there is no borrow. -/
def sub {n : Nat} (a b : BitVec n) : Arith n where
  value := a - b
  carry := decide (b.toNat ≤ a.toNat)
  overflow := a.msb != b.msb && (a - b).msb != a.msb

/-- popcount of a byte (R8). -/
def popcount (b : Byte) : Nat :=
  (b.getLsbD 0).toNat + (b.getLsbD 1).toNat + (b.getLsbD 2).toNat + (b.getLsbD 3).toNat +
    (b.getLsbD 4).toNat + (b.getLsbD 5).toNat + (b.getLsbD 6).toNat + (b.getLsbD 7).toNat

/-- Parity8 (R124): true when the byte has an odd number of 1 bits. -/
def oddParity (b : Byte) : Bool := popcount b % 2 == 1

/-! ## Status updates: each writes the flags it names and keeps the rest (R125) -/

/-- SetLAE16 and SetLAE8 (R120): the value compared with 0. -/
def Status.setLAE {n : Nat} (t : Status) (v : BitVec n) : Status :=
  { t with lgt := v != 0#n, agt := v != 0#n && !v.msb, eq := v == 0#n }

/-- SetCmp16 and SetCmp8 (R121): a compared with b, unsigned for LGT and signed for AGT. -/
def Status.setCmp {n : Nat} (t : Status) (a b : BitVec n) : Status :=
  { t with lgt := b.ult a, agt := b.slt a, eq := a == b }

/-- C written. -/
def Status.setC (t : Status) (v : Bool) : Status := { t with c := v }

/-- OV written. -/
def Status.setOV (t : Status) (v : Bool) : Status := { t with ov := v }

/-- OP written with the odd parity of a byte (R124). -/
def Status.setOP (t : Status) (b : Byte) : Status := { t with op := oddParity b }

/-- EQ written. -/
def Status.setEQ (t : Status) (v : Bool) : Status := { t with eq := v }

/-- X written. -/
def Status.setX (t : Status) (v : Bool) : Status := { t with x := v }

/-- MASK written. -/
def Status.setMask (t : Status) (m : BitVec 4) : Status := { t with mask := m }

/-- The five flags of an add or a subtract: LGT, AGT, EQ from the result, C, OV (R131, R135). -/
def Status.setArith {n : Nat} (t : Status) (r : Arith n) : Status :=
  ((t.setLAE r.value).setC r.carry).setOV r.overflow

end Sys2Proof.Machine
end

