-- ==== Sys2Proof/Machine/Ops.lean ====
section
/-! DEFINITION. The named operations every meaning is built from: memory as a canonical list, word
and byte accesses under the memory map, registers, instruction fetch, the CRU lines, the context
switch that every trap takes and the return from it. -/

namespace Sys2Proof.Machine

/-! ## Memory as data -/

/-- What an unlisted address reads as: the byte the platform has there at power-up (R6 InitialMem,
log 2), else a free value, since memory nothing has written holds no value (R45, log 1). -/
def Memory.unlisted (a : Nat) : Byte :=
  match Config.initialByte a with
  | some b => b
  | none => Config.powerUpByte a

/-- The byte listed for an address. -/
def Memory.lookup (a : Nat) : Memory → Option Byte
  | [] => none
  | (a', b) :: rest => if a = a' then some b else Memory.lookup a rest

/-- The byte an address reads as. -/
def Memory.byteAt (m : Memory) (a : Nat) : Byte :=
  match m.lookup a with
  | some b => b
  | none => Memory.unlisted a

/-- The entry that makes `a` read as `b`: none where an unlisted `a` already does by name. -/
def Memory.entry (a : Nat) (b : Byte) : Memory :=
  if Config.initialByte a = some b then [] else [(a, b)]

/-- Writes one byte, keeping the canonical form. -/
def Memory.set (a : Nat) (b : Byte) : Memory → Memory
  | [] => Memory.entry a b
  | (a', b') :: rest =>
    if a < a' then Memory.entry a b ++ (a', b') :: rest
    else if a = a' then Memory.entry a b ++ rest
    else (a', b') :: Memory.set a b rest

/-- The canonical form from a least address on: addresses strictly rising and below 65536, no entry
equal to the byte an unlisted address is named to read as. -/
def Memory.wfFrom : Nat → Memory → Bool
  | _, [] => true
  | lo, (a, b) :: rest =>
    decide (lo ≤ a) && decide (a < 65536) && decide (Config.initialByte a ≠ some b) &&
      Memory.wfFrom (a + 1) rest

/-- The canonical form of memory. -/
def Memory.wf (m : Memory) : Bool := Memory.wfFrom 0 m

/-! ## Sequencing: what follows an access that may end the step -/

/-- The outcome of an operation that also answers a value. -/
abbrev Res (α : Type) := Host.Outcome (α × State) Fault Refusal

/-- The outcome of an operation that only changes the state. -/
abbrev Result := Host.Outcome State Fault Refusal

/-- Goes on with the value and the state of an operation; a stop stays a stop (R272). -/
def andThen {α β : Type} (r : Res α) (f : α → State → Host.Outcome β Fault Refusal) :
    Host.Outcome β Fault Refusal :=
  match r with
  | .next (a, s) => f a s
  | .fault e => .fault e
  | .refused e => .refused e

/-- Goes on with the state of an operation; a stop stays a stop (R272). -/
def andDo {β : Type} (r : Result) (f : State → Host.Outcome β Fault Refusal) :
    Host.Outcome β Fault Refusal :=
  match r with
  | .next s => f s
  | .fault e => .fault e
  | .refused e => .refused e

/-! ## Addresses and bytes -/

/-- The even address of the word a byte address lies in (R10, R57). -/
def evenAddr (a : Word) : Word := a &&& 0xFFFE#16

/-- The more significant byte of a word (R8). -/
def hiByte (w : Word) : Byte := w.extractLsb' 8 8

/-- The less significant byte of a word (R8). -/
def loByte (w : Word) : Byte := w.extractLsb' 0 8

/-- The byte of a word that a byte address selects: the high half when even, the low half when odd
(R10, R54). -/
def selectByte (a : Word) (w : Word) : Byte := if a.getLsbD 0 then loByte w else hiByte w

/-- The word with the byte that a byte address selects replaced (R60). -/
def mergeByte (a : Word) (w : Word) (b : Byte) : Word :=
  if a.getLsbD 0 then hiByte w ++ b else b ++ loByte w

/-- What the memory map holds at the word of an address (R65); a range counts for the word whose even
byte it holds (DEDUCED, R51; log 5). -/
def State.kindAt (s : State) (a : Word) : MemKind :=
  match s.regions.find? fun r => decide (r.base ≤ (evenAddr a).toNat ∧ (evenAddr a).toNat < r.base + r.size) with
  | some r => r.kind
  | none => .ram

/-- The byte in memory at an address (R10), with no regard to the memory map. -/
def State.byteAt (s : State) (a : Word) : Byte := s.mem.byteAt a.toNat

/-- The word in memory at an address: big-endian, low address bit ignored (R10, R54, R57). -/
def State.wordAt (s : State) (a : Word) : Word :=
  s.byteAt (evenAddr a) ++ s.byteAt (evenAddr a + 1#16)

/-- Memory with one byte replaced, with no regard to the memory map and seen by nobody. -/
def State.pokeByte (s : State) (a : Word) (b : Byte) : State := s.withMem (s.mem.set a.toNat b)

/-- Memory with one word replaced: most significant byte at the even address (R10, R54). -/
def State.pokeWord (s : State) (a : Word) (v : Word) : State :=
  (s.pokeByte (evenAddr a) (hiByte v)).pokeByte (evenAddr a + 1#16) (loByte v)

/-- The state after the environment has seen an event (R13). -/
def State.emit (s : State) (e : Event) : State := s.withEvents (e :: s.events)

/-- MemWrite(a, 1, b) in RAM (R10): the byte replaced, and its whole word, which the bus carries, seen by
the environment (R13, R60). -/
def State.storeByte (s : State) (a : Word) (b : Byte) : State :=
  let t := s.pokeByte a b
  t.emit (.memWrite (evenAddr a) (t.wordAt a))

/-- MemWrite(a, 2, v) in RAM (R10): the word replaced, and seen by the environment (R13). -/
def State.storeWord (s : State) (a : Word) (v : Word) : State :=
  (s.pokeWord a v).emit (.memWrite (evenAddr a) v)

/-! ## Accesses under the memory map (R59, R65) -/

/-- MemRead(a, 2) (R10). A device answers a free value and sees the read (R65, R72; log 7). -/
def readWord (a : Word) (s : State) : Res Word :=
  match s.kindAt a with
  | .ram => .next (s.wordAt a, s)
  | .rom => .next (s.wordAt a, s)
  | .device =>
    .next (Config.deviceRead s.draws (evenAddr a),
      (s.withDraws (s.draws + 1)).emit (.deviceRead (evenAddr a)))
  | .unmapped => .fault (.unmappedAccess (evenAddr a))

/-- MemWrite(a, 2, v) (R10, R65). -/
def writeWord (a : Word) (v : Word) (s : State) : Result :=
  match s.kindAt a with
  | .ram => .next (s.storeWord a v)
  | .rom => .fault (.romWrite (evenAddr a))
  | .device => .next (s.emit (.deviceWrite (evenAddr a) v))
  | .unmapped => .fault (.unmappedAccess (evenAddr a))

/-- The write half of a byte store whose containing word `w` has been read (R60): memory gains the
byte alone (R45), the environment sees the whole word. -/
def writeByte (a : Word) (w : Word) (b : Byte) (s : State) : Result :=
  match s.kindAt a with
  | .ram => .next (s.storeByte a b)
  | .rom => .fault (.romWrite (evenAddr a))
  | .device => .next (s.emit (.deviceWrite (evenAddr a) (mergeByte a w b)))
  | .unmapped => .fault (.unmappedAccess (evenAddr a))

/-! ## Registers and the instruction stream -/

/-- The address of workspace register r: WP + 2r modulo 65536 (R9, R24). -/
def State.regAddr (s : State) (r : Reg) : Word := s.wp + 2#16 * r.setWidth 16

/-- The register r of the workspace in force, as memory holds it (R9). -/
def State.reg (s : State) (r : Reg) : Word := s.wordAt (s.regAddr r)

/-- x[r] read (R9): a word access like any other. -/
def readReg (r : Reg) (s : State) : Res Word := readWord (s.regAddr r) s

/-- x[r] written (R9): a word access like any other. -/
def writeReg (r : Reg) (v : Word) (s : State) : Result := writeWord (s.regAddr r) v s

/-- `pc <- t`: PC is kept even (R11, R21; log 13). -/
def State.goto (s : State) (t : Word) : State := s.withPc (evenAddr t)

/-- WP written: WP is kept even (R22; log 13). -/
def State.setWP (s : State) (v : Word) : State := s.withWp (evenAddr v)

/-- Fetch (R11): the word at PC, PC past it. -/
def fetch (s : State) : Res Word :=
  andThen (readWord s.pc s) fun w t => .next (w, t.withPc (t.pc + 2#16))

/-! ## The CRU (R185, R186) -/

/-- The CRU base address, TI bits 3-14 of R12 (R186). -/
def cruBase (r12 : Word) : BitVec 12 := r12.extractLsb' 1 12

/-- The CRU address of a single-bit instruction: base plus signed displacement, modulo 4096 (R186). -/
def cruAddr (r12 : Word) (disp : BitVec 8) : BitVec 12 := cruBase r12 + disp.signExtend 12

/-- CruOut (R185): one output bit. -/
def cruOut (a : BitVec 12) (bit : Bool) (s : State) : State := s.emit (.cruOut a bit)

/-- The first n bits of v sent to n addresses from `a` on, least significant bit first (R187). -/
def cruOutMany (a : BitVec 12) (v : Word) : Nat → State → State
  | 0, s => s
  | n + 1, s => cruOut (a + BitVec.ofNat 12 n) (v.getLsbD n) (cruOutMany a v n s)

/-- CruIn (R185): one input bit, the next answer the environment has fixed, else a free value. -/
def cruIn (a : BitVec 12) (s : State) : Bool × State :=
  match s.cruInputs with
  | bit :: rest => (bit, s.withCruInputs rest)
  | [] => (Config.cruIn s.draws a, s.withDraws (s.draws + 1))

/-- n input bits from n addresses from `a` on, the first into the least significant bit, the other
bits 0 (R188). -/
def cruInMany (a : BitVec 12) : Nat → State → Word × State
  | 0, s => (0#16, s)
  | n + 1, s =>
    let v := cruInMany a n s
    let bit := cruIn (a + BitVec.ofNat 12 n) v.2
    (v.1 ||| (BitVec.ofBool bit.1).setWidth 16 <<< n, bit.2)

/-! ## Traps and return (R273-R275, R239, R300) -/

/-- The context switch (R273) through the vector at `v`, with the word XOP leaves in the new R11
between the two (R180). The accesses are in the order of the rules (log 24): new WP; new R11 (XOP
only); new R13, R14, R15 from the old WP, PC, ST; new PC; then WP and PC are replaced. -/
def contextSwitch (v : Word) (link : Option Word) (s : State) : Result :=
  andThen (readWord v s) fun w s1 =>
  let nwp := evenAddr w
  andDo (match link with
    | some sa => writeWord (nwp + 22#16) sa s1
    | none => .next s1) fun s2 =>
  andDo (writeWord (nwp + 26#16) s2.wp s2) fun s3 =>
  andDo (writeWord (nwp + 28#16) s3.pc s3) fun s4 =>
  andDo (writeWord (nwp + 30#16) s4.st.toWord s4) fun s5 =>
  andThen (readWord (v + 2#16) s5) fun npc s6 =>
  .next ((s6.setWP nwp).goto npc)

/-- Every trap entry from outside (R274, R275, R300): the context switch, then the mask, `idle`
cleared, `inhibit` set. -/
def trapEnter (v : Word) (mask : BitVec 4) (s : State) : Result :=
  andDo (contextSwitch v none s) fun t =>
  .next (((t.withSt (t.st.setMask mask)).withIdle false).withInhibit true)

/-- Interrupt entry at level L (R274): vector at 4L, the mask becomes L - 1, and 0 for level 0. -/
def interruptEnter (l : BitVec 4) (s : State) : Result :=
  trapEnter (4#16 * l.setWidth 16) (if l = 0#4 then 0#4 else l - 1#4) s

/-- LOAD entry (R275): vector at 0xFFFC, mask 0. -/
def loadEnter (s : State) : Result := trapEnter 0xFFFC#16 0#4 s

/-- RESET (R300): vector at 0x0000, mask 0. -/
def resetEnter (s : State) : Result := trapEnter 0x0000#16 0#4 s

/-- The return of RTWP (R239): ST, PC, WP from R15, R14, R13, all read through the old WP. -/
def returnWP (s : State) : Result :=
  andThen (readReg 15#4 s) fun st s1 =>
  andThen (readReg 14#4 s1) fun pc s2 =>
  andThen (readReg 13#4 s2) fun wp s3 =>
  .next (((s3.withSt (Status.ofWord st)).goto pc).setWP wp)

end Sys2Proof.Machine
end

