-- ==== Sys2Proof/Machine/Operands.lean ====
section
/-! DEFINITION. The general operand: its effective address (R110-R115), its size (R118), and the
operand sequences the formats begin with (R117, R130, R150, R160). -/

namespace Sys2Proof.Machine

/-- The size of an operand (R110, R118). -/
inductive Size where
  | byte
  | word
  deriving DecidableEq, Repr

/-- How far an auto-increment advances: 1 for a byte, 2 for a word (R115). -/
def Size.step : Size → Word
  | .byte => 1#16
  | .word => 2#16

/-- Resolve(T, R, size) (R110-R115): the effective address. It fetches the operand's extension word and
rewrites an auto-increment register, and does not touch the operand itself. -/
def resolve (p : Operand) (size : Size) (s : State) : Res Word :=
  match p with
  | .reg r => .next (s.regAddr r, s)
  | .indirect r => readReg r s
  | .symbolic => fetch s
  | .indexed r =>
    andThen (fetch s) fun base t => andThen (readReg r t) fun x u => .next (base + x, u)
  | .autoInc r =>
    andThen (readReg r s) fun ea t => andDo (writeReg r (ea + size.step) t) fun u => .next (ea, u)

/-- A byte operand read: the byte, with the word it lies in (R60, R116). -/
structure ByteOp where
  addr : Word
  word : Word
  byte : Byte
  deriving DecidableEq, Repr

/-- ReadOp(EA, 1) (R116): half of a word access (R10). -/
def readByte (a : Word) (s : State) : Res ByteOp :=
  andThen (readWord a s) fun w t => .next (⟨a, w, selectByte a w⟩, t)

/-- WriteOp(EA, 1, b) on an operand that has been read (R60, R116). -/
def writeByteOp (o : ByteOp) (b : Byte) (s : State) : Result := writeByte o.addr o.word b s

/-- A word operand read: its address and its value. -/
structure WordOp where
  addr : Word
  value : Word
  deriving DecidableEq, Repr

/-- A general word operand resolved and read (R160). -/
def fetchWord (p : Operand) (s : State) : Res WordOp :=
  andThen (resolve p .word s) fun a t =>
  andThen (readWord a t) fun v u => .next (⟨a, v⟩, u)

/-- A general byte operand resolved and read. -/
def fetchByte (p : Operand) (s : State) : Res ByteOp :=
  andThen (resolve p .byte s) fun a t => readByte a t

/-- The operands of a word instruction of format DUAL: the source's value and the destination. -/
structure DualOp where
  src : Word
  dst : WordOp
  deriving DecidableEq, Repr

/-- The operands of a byte instruction of format DUAL. -/
structure DualByteOp where
  src : Byte
  dst : ByteOp
  deriving DecidableEq, Repr

/-- The operands of format DREG: the source's value and the register's. -/
structure RegOp where
  src : Word
  reg : Word
  deriving DecidableEq, Repr

/-- DualFetch for words (R130): source resolved and read, then destination resolved and read. -/
def dualFetch (p q : Operand) (s : State) : Res DualOp :=
  andThen (fetchWord p s) fun src t =>
  andThen (fetchWord q t) fun dst u => .next (⟨src.value, dst⟩, u)

/-- DualFetch for bytes (R130). -/
def dualFetchByte (p q : Operand) (s : State) : Res DualByteOp :=
  andThen (fetchByte p s) fun src t =>
  andThen (fetchByte q t) fun dst u => .next (⟨src.byte, dst⟩, u)

/-- RegFetch (R150): source resolved and read, then the register. -/
def regFetch (p : Operand) (d : Reg) (s : State) : Res RegOp :=
  andThen (fetchWord p s) fun src t =>
  andThen (readReg d t) fun v u => .next (⟨src.value, v⟩, u)

/-- The address of the second word of the pair of register d (R157). -/
def State.pairAddr (s : State) (d : Reg) : Word := s.regAddr d + 2#16

/-- The bit count of LDCR and STCR: 0 stands for 16 (R95). -/
def cruCount (c : BitVec 4) : Nat := if c = 0#4 then 16 else c.toNat

/-- The count of a shift: the field, else the low four bits of R0, where 0 stands for 16 (R95, R220). -/
def shiftCount (c : BitVec 4) (s : State) : Res Nat :=
  if c = 0#4 then
    andThen (readReg 0#4 s) fun r0 t => .next (cruCount (r0.extractLsb' 0 4), t)
  else .next (c.toNat, s)

end Sys2Proof.Machine
end

