-- ==== Sys2Proof/Machine/External.lean ====
section
/-! DEFINITION. The external instructions, spec/49_external.md (R250-R255): each emits its code. What
the platform does with a pulse reaches the CPU only through later samples (R255; log 31). -/

namespace Sys2Proof.Machine

/-- The code of IDLE on A0-A2 (R255). -/
def idleCode : BitVec 3 := 0b010#3

/-- IDLE (R250): `idle` set. -/
def execIdle (s : State) : Result := .next ((s.emit (.ext idleCode)).withIdle true)

/-- RSET (R251): the interrupt mask cleared, nothing else of the CPU. -/
def execRset (s : State) : Result := .next ((s.withSt (s.st.setMask 0#4)).emit (.ext 0b011#3))

/-- CKOF (R252): only the code. -/
def execCkof (s : State) : Result := .next (s.emit (.ext 0b110#3))

/-- CKON (R253): only the code. -/
def execCkon (s : State) : Result := .next (s.emit (.ext 0b101#3))

/-- LREX (R254): only the code. -/
def execLrex (s : State) : Result := .next (s.emit (.ext 0b111#3))

end Sys2Proof.Machine
end

