-- ==== Sys2Proof/Machine/Cycle.lean ====
section
/-! DEFINITION. What stands before the execution of an instruction in a step,
spec/40_addressing.md (R127): the sampling of requests, their priority, idle, and the fetch. -/

namespace Sys2Proof.Machine

/-- What is presented at the next sampling point (R127): what the environment has fixed; at the end of
that, nothing where it has fixed to present nothing more, else free values (log 8). -/
def State.sample (s : State) : Sample :=
  match s.samples with
  | q :: _ => q
  | [] =>
    if s.requestsEnd then Sample.quiet
    else ⟨Config.resetReq s.draws, Config.loadReq s.draws, Config.intReq s.draws⟩

/-- The state after a sampling point: one fixed sample used up, or one draw counted. -/
def State.takeSample (s : State) : State :=
  match s.samples with
  | _ :: rest => s.withSamples rest
  | [] => if s.requestsEnd then s else s.withDraws (s.draws + 1)

/-- A maskable request is accepted when `inhibit` is false and its level does not exceed the mask
(R265). -/
def State.accepts (s : State) (l : BitVec 4) : Bool := !s.inhibit && decide (l ≤ s.st.mask)

/-- A step that ends with a trap entry: no instruction word follows. -/
def endStep (r : Result) : Res (Option Word) := andDo r fun t => .next (none, t)

/-- The part of a step after the traps: idle waits and repeats its code (R250); else `inhibit` is
cleared and the next word is fetched (R127). -/
def idleOrFetch (s : State) : Res (Option Word) :=
  if s.idle then .next (none, s.emit (.ext idleCode))
  else andThen (fetch (s.withInhibit false)) fun ir t => .next (some ir, t)

/-- One sampling point (R127, R271): RESET, else LOAD, else the maskable request if it is accepted,
else idle or the next instruction. -/
def sampled (q : Sample) (s : State) : Res (Option Word) :=
  if q.reset then endStep (resetEnter s)
  else if q.load then endStep (loadEnter s)
  else match q.int with
    | some l => if s.accepts l then endStep (interruptEnter l s) else idleOrFetch s
    | none => idleOrFetch s

/-- The start of a step (R127): the word to execute and the state to execute it in, or no word when the
step is over. A faulted state has no step (R43); a word an X chain has kept is next, and nothing is
sampled before it (R174, R269; log 22). -/
def beginStep (s : State) : Res (Option Word) :=
  match s.faulted with
  | some f => .fault f
  | none =>
    match s.pendingX with
    | some w => .next (some w, s.withPendingX none)
    | none => sampled s.sample s.takeSample

/-- The bytes of words written into memory from an even address on, whatever the memory map: how a
program is loaded from outside, unseen by the machine's environment (log 34). -/
def State.loadWords (s : State) (a : Word) : List Word → State
  | [] => s
  | w :: ws => (s.pokeWord a w).loadWords (a + 2#16) ws

/-- The state made ready to fetch its next instruction from memory at PC: no fault mark, no X chain,
not idle, nothing requested at the next sampling point, and PC on RAM or ROM. -/
def State.readyToFetch (s : State) : State :=
  let t := ((s.withFaulted none).withPendingX none).withIdle false
  let u := t.withSamples (Sample.quiet :: t.samples.tail)
  let plain := fun a => u.kindAt a == .ram || u.kindAt a == .rom
  if plain u.pc && plain (u.pc + 2#16) && plain (u.pc + 4#16) then u else u.withRegions []

end Sys2Proof.Machine
end

