-- ==== Sys2Proof/Machine/Cru.lean ====
section
/-! DEFINITION. The CRU instructions, spec/45_cru.md (R185-R191). -/

namespace Sys2Proof.Machine

/-- LDCR, load communication register (R187): the operand is a byte for 1 to 8 bits and a word for 9 to
16; the flags come from the whole operand, OP for a byte only. -/
def execLdcr (src : Operand) (count : BitVec 4) (s : State) : Result :=
  let n := cruCount count
  if n ≤ 8 then
    andThen (fetchByte src s) fun o t =>
    andThen (readReg 12#4 t) fun r12 u =>
    .next (cruOutMany (cruBase r12) (o.byte.setWidth 16) n
      (u.withSt ((u.st.setLAE o.byte).setOP o.byte)))
  else
    andThen (fetchWord src s) fun o t =>
    andThen (readReg 12#4 t) fun r12 u =>
    .next (cruOutMany (cruBase r12) o.value n (u.withSt (u.st.setLAE o.value)))

/-- STCR, store communication register (R188): the destination word is read first; the bits not
received are 0. -/
def execStcr (dst : Operand) (count : BitVec 4) (s : State) : Result :=
  let n := cruCount count
  if n ≤ 8 then
    andThen (fetchByte dst s) fun o t =>
    andThen (readReg 12#4 t) fun r12 u =>
    let v := cruInMany (cruBase r12) n u
    let b := loByte v.1
    writeByteOp o b (v.2.withSt ((v.2.st.setLAE b).setOP b))
  else
    andThen (fetchWord dst s) fun o t =>
    andThen (readReg 12#4 t) fun r12 u =>
    let v := cruInMany (cruBase r12) n u
    writeWord o.addr v.1 (v.2.withSt (v.2.st.setLAE v.1))

/-- SBO, set bit to one (R189). -/
def execSbo (disp : BitVec 8) (s : State) : Result :=
  andThen (readReg 12#4 s) fun r12 t => .next (cruOut (cruAddr r12 disp) true t)

/-- SBZ, set bit to zero (R190). -/
def execSbz (disp : BitVec 8) (s : State) : Result :=
  andThen (readReg 12#4 s) fun r12 t => .next (cruOut (cruAddr r12 disp) false t)

/-- TB, test bit (R191): EQ is the input bit. -/
def execTb (disp : BitVec 8) (s : State) : Result :=
  andThen (readReg 12#4 s) fun r12 t =>
  let v := cruIn (cruAddr r12 disp) t
  .next (v.2.withSt (v.2.st.setEQ v.1))

end Sys2Proof.Machine
end

