-- ==== Sys2Proof/Machine/Dual.lean ====
section
/-! DEFINITION. The instructions with two general operands, spec/41_dual_operand.md (R130-R142). -/

namespace Sys2Proof.Machine

/-- A word result of format DUAL: the status written, then the destination. -/
def putWord (o : WordOp) (r : Word) (st : Status) (s : State) : Result :=
  writeWord o.addr r (s.withSt st)

/-- A byte result of format DUAL: the status written, then the destination byte. -/
def putByte (o : ByteOp) (r : Byte) (st : Status) (s : State) : Result :=
  writeByteOp o r (s.withSt st)

/-- A, add word (R131): destination + source. -/
def execA (src dst : Operand) (s : State) : Result :=
  andThen (dualFetch src dst s) fun o t =>
  let r := add o.dst.value o.src
  putWord o.dst r.value (t.st.setArith r) t

/-- AB, add byte (R132). -/
def execAb (src dst : Operand) (s : State) : Result :=
  andThen (dualFetchByte src dst s) fun o t =>
  let r := add o.dst.byte o.src
  putByte o.dst r.value ((t.st.setArith r).setOP r.value) t

/-- C, compare word (R133): the source compared to the destination; nothing stored. -/
def execC (src dst : Operand) (s : State) : Result :=
  andThen (dualFetch src dst s) fun o t => .next (t.withSt (t.st.setCmp o.src o.dst.value))

/-- CB, compare byte (R134): OP is the parity of the source byte. -/
def execCb (src dst : Operand) (s : State) : Result :=
  andThen (dualFetchByte src dst s) fun o t =>
  .next (t.withSt ((t.st.setCmp o.src o.dst.byte).setOP o.src))

/-- S, subtract word (R135): destination - source. -/
def execS (src dst : Operand) (s : State) : Result :=
  andThen (dualFetch src dst s) fun o t =>
  let r := sub o.dst.value o.src
  putWord o.dst r.value (t.st.setArith r) t

/-- SB, subtract byte (R136). -/
def execSb (src dst : Operand) (s : State) : Result :=
  andThen (dualFetchByte src dst s) fun o t =>
  let r := sub o.dst.byte o.src
  putByte o.dst r.value ((t.st.setArith r).setOP r.value) t

/-- SOC, set ones corresponding (R137): destination OR source. -/
def execSoc (src dst : Operand) (s : State) : Result :=
  andThen (dualFetch src dst s) fun o t =>
  let r := o.dst.value ||| o.src
  putWord o.dst r (t.st.setLAE r) t

/-- SOCB, set ones corresponding, byte (R138). -/
def execSocb (src dst : Operand) (s : State) : Result :=
  andThen (dualFetchByte src dst s) fun o t =>
  let r := o.dst.byte ||| o.src
  putByte o.dst r ((t.st.setLAE r).setOP r) t

/-- SZC, set zeros corresponding (R139): destination AND NOT source. -/
def execSzc (src dst : Operand) (s : State) : Result :=
  andThen (dualFetch src dst s) fun o t =>
  let r := o.dst.value &&& ~~~o.src
  putWord o.dst r (t.st.setLAE r) t

/-- SZCB, set zeros corresponding, byte (R140). -/
def execSzcb (src dst : Operand) (s : State) : Result :=
  andThen (dualFetchByte src dst s) fun o t =>
  let r := o.dst.byte &&& ~~~o.src
  putByte o.dst r ((t.st.setLAE r).setOP r) t

/-- MOV, move word (R141): the destination is read, and its value is not used. -/
def execMov (src dst : Operand) (s : State) : Result :=
  andThen (dualFetch src dst s) fun o t => putWord o.dst o.src (t.st.setLAE o.src) t

/-- MOVB, move byte (R142). -/
def execMovb (src dst : Operand) (s : State) : Result :=
  andThen (dualFetchByte src dst s) fun o t =>
  putByte o.dst o.src ((t.st.setLAE o.src).setOP o.src) t

end Sys2Proof.Machine
end

