-- ==== Sys2Proof/Machine/Immediate.lean ====
section
/-! DEFINITION. The immediate, internal-register and return instructions,
spec/48_immediate_internal.md (R230-R240). The immediate is the word after the instruction, fetched
before anything else is done (R230). -/

namespace Sys2Proof.Machine

/-- AI, add immediate (R231). -/
def execAi (w : Reg) (s : State) : Result :=
  andThen (fetch s) fun imm t =>
  andThen (readReg w t) fun v u =>
  let r := add v imm
  writeReg w r.value (u.withSt (u.st.setArith r))

/-- ANDI, and immediate (R232). -/
def execAndi (w : Reg) (s : State) : Result :=
  andThen (fetch s) fun imm t =>
  andThen (readReg w t) fun v u =>
  let r := v &&& imm
  writeReg w r (u.withSt (u.st.setLAE r))

/-- CI, compare immediate (R233): the register compared to the immediate. -/
def execCi (w : Reg) (s : State) : Result :=
  andThen (fetch s) fun imm t =>
  andThen (readReg w t) fun v u => .next (u.withSt (u.st.setCmp v imm))

/-- LI, load immediate (R234): the register is not read. -/
def execLi (w : Reg) (s : State) : Result :=
  andThen (fetch s) fun imm t => writeReg w imm (t.withSt (t.st.setLAE imm))

/-- ORI, or immediate (R235). -/
def execOri (w : Reg) (s : State) : Result :=
  andThen (fetch s) fun imm t =>
  andThen (readReg w t) fun v u =>
  let r := v ||| imm
  writeReg w r (u.withSt (u.st.setLAE r))

/-- LIMI, load interrupt mask (R236): the low four bits of the immediate. -/
def execLimi (s : State) : Result :=
  andThen (fetch s) fun imm t => .next (t.withSt (t.st.setMask (imm.extractLsb' 0 4)))

/-- LWPI, load workspace pointer (R237). -/
def execLwpi (s : State) : Result :=
  andThen (fetch s) fun imm t => .next (t.setWP imm)

/-- STST, store status (R238). -/
def execStst (w : Reg) (s : State) : Result := writeReg w s.st.toWord s

/-- STWP, store workspace pointer (R240). -/
def execStwp (w : Reg) (s : State) : Result := writeReg w s.wp s

/-- RTWP, return with workspace pointer (R239); `inhibit` is not set. -/
def execRtwp (s : State) : Result := returnWP s

end Sys2Proof.Machine
end

