-- ==== Sys2Proof/Machine/Jumps.lean ====
section
/-! DEFINITION. The thirteen jumps, spec/46_jumps.md (R200-R213). -/

namespace Sys2Proof.Machine

/-- Jump(cond) (R200): PC, already past the jump, plus twice the signed displacement when the condition
holds; else PC stays. -/
def jump (cond : Bool) (disp : BitVec 8) (s : State) : Result :=
  .next (if cond then s.goto (s.pc + 2#16 * disp.signExtend 16) else s)

/-- JEQ, jump if equal (R201). -/
def execJeq (disp : BitVec 8) (s : State) : Result :=
  jump (s.st.eq) disp s

/-- JGT, jump if greater than, signed (R202). -/
def execJgt (disp : BitVec 8) (s : State) : Result :=
  jump (s.st.agt) disp s

/-- JH, jump if high (R203). -/
def execJh (disp : BitVec 8) (s : State) : Result :=
  jump (s.st.lgt && !s.st.eq) disp s

/-- JHE, jump if high or equal (R204). -/
def execJhe (disp : BitVec 8) (s : State) : Result :=
  jump (s.st.lgt || s.st.eq) disp s

/-- JL, jump if low (R205). -/
def execJl (disp : BitVec 8) (s : State) : Result :=
  jump (!s.st.lgt && !s.st.eq) disp s

/-- JLE, jump if low or equal (R206). -/
def execJle (disp : BitVec 8) (s : State) : Result :=
  jump (!s.st.lgt || s.st.eq) disp s

/-- JLT, jump if less than, signed (R207). -/
def execJlt (disp : BitVec 8) (s : State) : Result :=
  jump (!s.st.agt && !s.st.eq) disp s

/-- JMP, jump unconditionally (R208). -/
def execJmp (disp : BitVec 8) (s : State) : Result :=
  jump true disp s

/-- JNC, jump if no carry (R209). -/
def execJnc (disp : BitVec 8) (s : State) : Result :=
  jump (!s.st.c) disp s

/-- JNE, jump if not equal (R210). -/
def execJne (disp : BitVec 8) (s : State) : Result :=
  jump (!s.st.eq) disp s

/-- JNO, jump if no overflow (R211). -/
def execJno (disp : BitVec 8) (s : State) : Result :=
  jump (!s.st.ov) disp s

/-- JOC, jump on carry (R212). -/
def execJoc (disp : BitVec 8) (s : State) : Result :=
  jump (s.st.c) disp s

/-- JOP, jump on odd parity (R213). -/
def execJop (disp : BitVec 8) (s : State) : Result :=
  jump (s.st.op) disp s

end Sys2Proof.Machine
end

