-- ==== Sys2Proof/Machine/RegDest.lean ====
section
/-! DEFINITION. The instructions with a general source and a register destination,
spec/42_dual_operand_regdest.md (R150-R157). -/

namespace Sys2Proof.Machine

/-- COC, compare ones corresponding (R151): every 1 of the source is a 1 of the register. -/
def execCoc (src : Operand) (d : Reg) (s : State) : Result :=
  andThen (regFetch src d s) fun o t => .next (t.withSt (t.st.setEQ (o.src &&& ~~~o.reg == 0#16)))

/-- CZC, compare zeros corresponding (R152): every 1 of the source is a 0 of the register. -/
def execCzc (src : Operand) (d : Reg) (s : State) : Result :=
  andThen (regFetch src d s) fun o t => .next (t.withSt (t.st.setEQ (o.src &&& o.reg == 0#16)))

/-- XOR, exclusive or into the register (R153). -/
def execXor (src : Operand) (d : Reg) (s : State) : Result :=
  andThen (regFetch src d s) fun o t =>
  let r := o.reg ^^^ o.src
  writeReg d r (t.withSt (t.st.setLAE r))

/-- The 32-bit unsigned product (R154). -/
def product (a b : Word) : BitVec 32 := BitVec.ofNat 32 (a.toNat * b.toNat)

/-- MPY, multiply (R154): the product in the pair of register d, more significant word first; the
second word is at `pairAddr`, outside the workspace when d is 15 (R157). -/
def execMpy (src : Operand) (d : Reg) (s : State) : Result :=
  andThen (regFetch src d s) fun o t =>
  let r := product o.src o.reg
  andDo (writeReg d (r.extractLsb' 16 16) t) fun u =>
  writeWord (u.pairAddr d) (r.extractLsb' 0 16) u

/-- DIV, divide (R155): when the divisor is not above the high word, OV is set and nothing else is
read or written; else quotient and remainder go to the pair and OV is cleared. -/
def execDiv (src : Operand) (d : Reg) (s : State) : Result :=
  andThen (regFetch src d s) fun o t =>
  if o.src ≤ o.reg then .next (t.withSt (t.st.setOV true))
  else
    andThen (readWord (t.pairAddr d) t) fun lo u =>
    let n := o.reg.toNat * 65536 + lo.toNat
    andDo (writeReg d (BitVec.ofNat 16 (n / o.src.toNat)) (u.withSt (u.st.setOV false))) fun v =>
    writeWord (v.pairAddr d) (BitVec.ofNat 16 (n % o.src.toNat)) v

end Sys2Proof.Machine
end

