-- ==== Sys2Proof/Machine/Shifts.lean ====
section
/-! DEFINITION. The shifts, spec/47_shifts.md (R220-R225). -/

namespace Sys2Proof.Machine

/-- The end of every shift (R220): LGT, AGT, EQ from the result, C the last bit shifted out, the
register written. -/
def putShift (w : Reg) (r : Word) (c : Bool) (st : Status) (s : State) : Result :=
  writeReg w r (s.withSt ((st.setLAE r).setC c))

/-- True when the n + 1 most significant bits of a word, zeros after its last, are not all the same:
the sign changes at one of n single left steps (R221). -/
def signChanges (v : Word) (n : Nat) : Bool :=
  (List.range (n + 1)).any fun i => (if i ≤ 15 then v.getLsbD (15 - i) else false) != v.msb

/-- SLA, shift left arithmetic (R221). -/
def execSla (count : BitVec 4) (w : Reg) (s : State) : Result :=
  andThen (shiftCount count s) fun n t =>
  andThen (readReg w t) fun v u =>
  putShift w (v <<< n) (v.getLsbD (16 - n)) (u.st.setOV (signChanges v n)) u

/-- SRA, shift right arithmetic (R222). -/
def execSra (count : BitVec 4) (w : Reg) (s : State) : Result :=
  andThen (shiftCount count s) fun n t =>
  andThen (readReg w t) fun v u => putShift w (v.sshiftRight n) (v.getLsbD (n - 1)) u.st u

/-- SRC, shift right circular (R223). -/
def execSrc (count : BitVec 4) (w : Reg) (s : State) : Result :=
  andThen (shiftCount count s) fun n t =>
  andThen (readReg w t) fun v u =>
  putShift w (v >>> n ||| v <<< (16 - n)) (v.getLsbD (n - 1)) u.st u

/-- SRL, shift right logical (R224). -/
def execSrl (count : BitVec 4) (w : Reg) (s : State) : Result :=
  andThen (shiftCount count s) fun n t =>
  andThen (readReg w t) fun v u => putShift w (v >>> n) (v.getLsbD (n - 1)) u.st u

end Sys2Proof.Machine
end

