-- ==== Sys2Proof/Machine/Single.lean ====
section
/-! DEFINITION. The single-operand instructions but X, spec/43_single_operand.md (R160-R173). -/

namespace Sys2Proof.Machine

/-- A word operand rewritten: the status written, then the result at the same address (R160). -/
def rewriteWord (o : WordOp) (r : Word) (st : Status) (s : State) : Result :=
  writeWord o.addr r (s.withSt st)

/-- B, branch (R161): to the operand's address; the word there is read and not used. -/
def execB (src : Operand) (s : State) : Result :=
  andThen (fetchWord src s) fun o t => .next (t.goto o.addr)

/-- BL, branch and link (R162): the address first, then R11 gets the return address. -/
def execBl (src : Operand) (s : State) : Result :=
  andThen (fetchWord src s) fun o t =>
  andDo (writeReg 11#4 t.pc t) fun u => .next (u.goto o.addr)

/-- BLWP, branch and load workspace pointer (R163): the context switch through the vector at the
operand's address; `inhibit` set. -/
def execBlwp (src : Operand) (s : State) : Result :=
  andThen (resolve src .word s) fun sa t =>
  andDo (contextSwitch sa none t) fun u => .next (u.withInhibit true)

/-- CLR, clear (R164): the word is read, and its value is not used. -/
def execClr (dst : Operand) (s : State) : Result :=
  andThen (fetchWord dst s) fun o t => writeWord o.addr 0x0000#16 t

/-- SETO, set to ones (R165). -/
def execSeto (dst : Operand) (s : State) : Result :=
  andThen (fetchWord dst s) fun o t => writeWord o.addr 0xFFFF#16 t

/-- INV, invert (R166). -/
def execInv (dst : Operand) (s : State) : Result :=
  andThen (fetchWord dst s) fun o t =>
  let r := ~~~o.value
  rewriteWord o r (t.st.setLAE r) t

/-- NEG, negate (R167): 0 minus the operand. -/
def execNeg (dst : Operand) (s : State) : Result :=
  andThen (fetchWord dst s) fun o t =>
  let r := sub 0#16 o.value
  rewriteWord o r.value (t.st.setArith r) t

/-- ABS, absolute value (R168): the flags from the operand before the operation, C cleared (PRESUMED by
the spec, conflict C7; log 18), no store when the operand is not negative. -/
def execAbs (dst : Operand) (s : State) : Result :=
  andThen (fetchWord dst s) fun o t =>
  let u := t.withSt (((t.st.setLAE o.value).setC false).setOV (o.value == 0x8000#16))
  if o.value.msb then writeWord o.addr (0#16 - o.value) u else .next u

/-- SWPB, swap bytes (R169). -/
def execSwpb (dst : Operand) (s : State) : Result :=
  andThen (fetchWord dst s) fun o t => writeWord o.addr (loByte o.value ++ hiByte o.value) t

/-- INC, increment by one (R170). -/
def execInc (dst : Operand) (s : State) : Result :=
  andThen (fetchWord dst s) fun o t =>
  let r := add o.value 1#16
  rewriteWord o r.value (t.st.setArith r) t

/-- INCT, increment by two (R171). -/
def execInct (dst : Operand) (s : State) : Result :=
  andThen (fetchWord dst s) fun o t =>
  let r := add o.value 2#16
  rewriteWord o r.value (t.st.setArith r) t

/-- DEC, decrement by one (R172). -/
def execDec (dst : Operand) (s : State) : Result :=
  andThen (fetchWord dst s) fun o t =>
  let r := sub o.value 1#16
  rewriteWord o r.value (t.st.setArith r) t

/-- DECT, decrement by two (R173). -/
def execDect (dst : Operand) (s : State) : Result :=
  andThen (fetchWord dst s) fun o t =>
  let r := sub o.value 2#16
  rewriteWord o r.value (t.st.setArith r) t

end Sys2Proof.Machine
end

