-- ==== Sys2Proof/Machine/Xop.lean ====
section
/-! DEFINITION. The extended operation, spec/44_xop.md (R180). -/

namespace Sys2Proof.Machine

/-- XOP, the software trap (R180): the operand is resolved and its word read unused in the old
workspace; the context switch through 0x0040 + 4n leaves the operand's address in the new R11 and
saves ST before X is set; `inhibit` set. -/
def execXop (src : Operand) (n : BitVec 4) (s : State) : Result :=
  andThen (fetchWord src s) fun o t =>
  andDo (contextSwitch (0x0040#16 + 4#16 * n.setWidth 16) (some o.addr) t) fun u =>
  .next ((u.withSt (u.st.setX true)).withInhibit true)

end Sys2Proof.Machine
end

