-- ==== Sys2Proof/Machine/Dispatch.lean ====
section
/-! DEFINITION. One arm for each instruction of the opcode table. -/

namespace Sys2Proof.Machine

def exec (i : Instr) (s : State) : Host.Outcome State Fault Refusal :=
  match i with
  | .szc src dst => Sys2Proof.Machine.execSzc src dst s
  | .szcb src dst => Sys2Proof.Machine.execSzcb src dst s
  | .s src dst => Sys2Proof.Machine.execS src dst s
  | .sb src dst => Sys2Proof.Machine.execSb src dst s
  | .c src dst => Sys2Proof.Machine.execC src dst s
  | .cb src dst => Sys2Proof.Machine.execCb src dst s
  | .a src dst => Sys2Proof.Machine.execA src dst s
  | .ab src dst => Sys2Proof.Machine.execAb src dst s
  | .mov src dst => Sys2Proof.Machine.execMov src dst s
  | .movb src dst => Sys2Proof.Machine.execMovb src dst s
  | .soc src dst => Sys2Proof.Machine.execSoc src dst s
  | .socb src dst => Sys2Proof.Machine.execSocb src dst s
  | .coc src d => Sys2Proof.Machine.execCoc src d s
  | .czc src d => Sys2Proof.Machine.execCzc src d s
  | .xor src d => Sys2Proof.Machine.execXor src d s
  | .xop src n => Sys2Proof.Machine.execXop src n s
  | .ldcr src count => Sys2Proof.Machine.execLdcr src count s
  | .stcr dst count => Sys2Proof.Machine.execStcr dst count s
  | .mpy src d => Sys2Proof.Machine.execMpy src d s
  | .div src d => Sys2Proof.Machine.execDiv src d s
  | .blwp src => Sys2Proof.Machine.execBlwp src s
  | .b src => Sys2Proof.Machine.execB src s
  | .x src => Sys2Proof.Machine.execX src s
  | .clr dst => Sys2Proof.Machine.execClr dst s
  | .neg dst => Sys2Proof.Machine.execNeg dst s
  | .inv dst => Sys2Proof.Machine.execInv dst s
  | .inc dst => Sys2Proof.Machine.execInc dst s
  | .inct dst => Sys2Proof.Machine.execInct dst s
  | .dec dst => Sys2Proof.Machine.execDec dst s
  | .dect dst => Sys2Proof.Machine.execDect dst s
  | .bl src => Sys2Proof.Machine.execBl src s
  | .swpb dst => Sys2Proof.Machine.execSwpb dst s
  | .seto dst => Sys2Proof.Machine.execSeto dst s
  | .abs dst => Sys2Proof.Machine.execAbs dst s
  | .sra count w => Sys2Proof.Machine.execSra count w s
  | .srl count w => Sys2Proof.Machine.execSrl count w s
  | .sla count w => Sys2Proof.Machine.execSla count w s
  | .src count w => Sys2Proof.Machine.execSrc count w s
  | .jmp disp => Sys2Proof.Machine.execJmp disp s
  | .jlt disp => Sys2Proof.Machine.execJlt disp s
  | .jle disp => Sys2Proof.Machine.execJle disp s
  | .jeq disp => Sys2Proof.Machine.execJeq disp s
  | .jhe disp => Sys2Proof.Machine.execJhe disp s
  | .jgt disp => Sys2Proof.Machine.execJgt disp s
  | .jne disp => Sys2Proof.Machine.execJne disp s
  | .jnc disp => Sys2Proof.Machine.execJnc disp s
  | .joc disp => Sys2Proof.Machine.execJoc disp s
  | .jno disp => Sys2Proof.Machine.execJno disp s
  | .jl disp => Sys2Proof.Machine.execJl disp s
  | .jh disp => Sys2Proof.Machine.execJh disp s
  | .jop disp => Sys2Proof.Machine.execJop disp s
  | .sbo disp => Sys2Proof.Machine.execSbo disp s
  | .sbz disp => Sys2Proof.Machine.execSbz disp s
  | .tb disp => Sys2Proof.Machine.execTb disp s
  | .li w => Sys2Proof.Machine.execLi w s
  | .ai w => Sys2Proof.Machine.execAi w s
  | .andi w => Sys2Proof.Machine.execAndi w s
  | .ori w => Sys2Proof.Machine.execOri w s
  | .ci w => Sys2Proof.Machine.execCi w s
  | .stwp w => Sys2Proof.Machine.execStwp w s
  | .stst w => Sys2Proof.Machine.execStst w s
  | .lwpi => Sys2Proof.Machine.execLwpi s
  | .limi => Sys2Proof.Machine.execLimi s
  | .idle => Sys2Proof.Machine.execIdle s
  | .rset => Sys2Proof.Machine.execRset s
  | .rtwp => Sys2Proof.Machine.execRtwp s
  | .ckon => Sys2Proof.Machine.execCkon s
  | .ckof => Sys2Proof.Machine.execCkof s
  | .lrex => Sys2Proof.Machine.execLrex s

end Sys2Proof.Machine
end

