-- ==== Sys2Proof/Machine/Step.lean ====
section
/-! DEFINITION. One step of the machine, spec/40_addressing.md (R127, R128). -/

namespace Sys2Proof.Machine

/-- One step (R127): what `beginStep` says, and then the instruction its word decodes to (R128); a word
no table row assigns is the model fault of R100. -/
def step (s : State) : Host.Outcome State Fault Refusal :=
  andThen (beginStep s) fun word t =>
    match word with
    | none => .next t
    | some ir =>
      match decode ir with
      | some i => exec i t
      | none => .fault (.illegalOpcode ir)

/-- The state with an instruction whose bits are `w` (numbered as spec/opcode_table.json numbers them)
stored at PC, ready to be fetched by the very next step (log 34). -/
def State.withFetchWord (s : State) (nbits w : Nat) : State :=
  s.readyToFetch.loadWords s.pc (tableWords nbits w)

end Sys2Proof.Machine
end

