-- ==== Sys2Proof/Safety.lean ====
section
/-! DEFINITION. What claims are stated in: the invariant, the platform of plain RAM, the end of a run,
frames, operands over plain RAM, and the words of the rules about flags, jumps and context switches,
said with plain numbers rather than with the model's own operations. -/

namespace Sys2Proof

/-- The count of an LDCR, an STCR (R95): 0 stands for 16. -/
def transferCount (c : BitVec 4) : Nat := if c = 0#4 then 16 else c.toNat

/-- The bits of ST an instruction writes, as a mask over the status word: the table of R33 (for X, whose
target decides, every bit that is stored). -/
def Instr.statusMask : Instr → Word
  | .a _ _ | .s _ _ | .ai _ | .neg _ | .abs _ | .inc _ | .inct _ | .dec _ | .dect _ | .sla _ _ =>
    0xF800#16
  | .ab _ _ | .sb _ _ => 0xFC00#16
  | .c _ _ | .ci _ | .soc _ _ | .szc _ _ | .mov _ _ | .xor _ _ | .inv _ | .andi _ | .li _ | .ori _ =>
    0xE000#16
  | .cb _ _ | .socb _ _ | .szcb _ _ | .movb _ _ => 0xE400#16
  | .sra _ _ | .src _ _ | .srl _ _ => 0xF000#16
  | .coc _ _ | .czc _ _ | .tb _ => 0x2000#16
  | .div _ _ => 0x0800#16
  | .xop _ _ => 0x0200#16
  | .limi | .rset => 0x000F#16
  | .rtwp | .x _ => 0xFE0F#16
  | .ldcr _ n | .stcr _ n => if transferCount n ≤ 8 then 0xE400#16 else 0xE000#16
  | .mpy _ _ | .b _ | .bl _ | .blwp _ | .clr _ | .seto _ | .swpb _ => 0#16
  | .sbo _ | .sbz _ | .jmp _ | .jlt _ | .jle _ | .jeq _ | .jhe _ | .jgt _ | .jne _ | .jnc _
  | .joc _ | .jno _ | .jl _ | .jh _ | .jop _ => 0#16
  | .lwpi | .stst _ | .stwp _ | .idle | .ckof | .ckon | .lrex => 0#16

/-! ## Which instructions write which state (R23, R41, R42, R102) -/

/-- Writes WP (R23). -/
def Instr.writesWp : Instr → Bool
  | .lwpi | .blwp _ | .xop _ _ | .rtwp => true
  | _ => false

/-- Writes PC other than past its own words (R21). -/
def Instr.writesPc : Instr → Bool
  | .jmp _ | .jlt _ | .jle _ | .jeq _ | .jhe _ | .jgt _ | .jne _ | .jnc _ | .joc _ | .jno _ | .jl _
  | .jh _ | .jop _ | .b _ | .bl _ | .blwp _ | .xop _ _ | .rtwp => true
  | _ => false

/-- Sets the latch `inhibit` (R42). -/
def Instr.setsInhibit : Instr → Bool
  | .blwp _ | .xop _ _ => true
  | _ => false

/-- Reads the CRU (R185). -/
def Instr.readsCru : Instr → Bool
  | .tb _ | .stcr _ _ => true
  | _ => false

/-- Is the execute instruction, whose effect is its target's (R174). -/
def Instr.isExecute : Instr → Bool
  | .x _ => true
  | _ => false

end Sys2Proof

namespace Sys2Proof.Machine

/-- Every address is RAM, the default platform of R6 (decision D30). -/
def State.AllRam (s : State) : Prop := ∀ a : Word, s.kindAt a = .ram

/-- The invariant: PC and WP are even (R21, R22) and memory is in its canonical form. -/
def State.Inv (s : State) : Prop :=
  s.pc.getLsbD 0 = false ∧ s.wp.getLsbD 0 = false ∧ s.mem.wf = true

/-- Nothing that ends the step before an instruction: no fault mark, no X chain, not idle, and no
request that is accepted at the next sampling point (R127). -/
def State.Undisturbed (s : State) : Prop :=
  s.faulted = none ∧ s.pendingX = none ∧ s.idle = false ∧ s.sample.reset = false ∧
    s.sample.load = false ∧ ∀ l, s.sample.int = some l → s.accepts l = false

/-- No request is ever drawn again: none is fixed, and none comes past the end of what is fixed. -/
def State.noMoreRequests (s : State) : Bool := s.requestsEnd && s.samples.all (· == Sample.quiet)

/-- The next step is the jump to itself, 0x10FF, fetched from memory and not from a device, or waits in
the idle state, as long as nothing is requested. -/
def State.atRest (s : State) : Bool :=
  s.faulted.isNone && s.pendingX.isNone &&
    (s.idle || (s.kindAt s.pc != .device && s.wordAt s.pc == 0x10FF#16))

/-- EndOfRun (R6, decision D32): the next step raises a model fault, or the CPU stands at a jump to itself
or is idle with no request ever drawn afterwards. The machine itself does not stop there (log 35). -/
def State.endOfRun (s : State) : Bool :=
  match step s with
  | .fault _ => true
  | _ => s.atRest && s.noMoreRequests

/-! ## Frames -/

/-- What every instruction but the context switches, LWPI, LIMI, RSET, RTWP, IDLE and the CRU inputs
leaves alone: every byte of memory outside `P` (the workspace registers are bytes of memory, R28),
WP, the mask and X of ST, the latches, the memory map and the environment's inputs. PC may change. -/
structure Frame (P : Word → Prop) (s t : State) : Prop where
  mem : ∀ a : Word, ¬ P a → t.byteAt a = s.byteAt a
  wp : t.wp = s.wp
  mask : t.st.mask = s.st.mask
  x : t.st.x = s.st.x
  idle : t.idle = s.idle
  inhibit : t.inhibit = s.inhibit
  faulted : t.faulted = s.faulted
  pendingX : t.pendingX = s.pendingX
  regions : t.regions = s.regions
  samples : t.samples = s.samples
  requestsEnd : t.requestsEnd = s.requestsEnd
  cruInputs : t.cruInputs = s.cruInputs

/-- The bytes of the word an address lies in. -/
def wordBytes (a : Word) (c : Word) : Prop := evenAddr c = evenAddr a

/-- The bytes an operand's resolution rewrites: the register of an auto-increment (R115). -/
def autoBytes (p : Operand) (s : State) (c : Word) : Prop :=
  match p with
  | .autoInc r => wordBytes (s.regAddr r) c
  | _ => False

/-! ## Operands over plain RAM (R110-R118) -/

/-- The effective address of an operand (R111-R115). -/
def State.ea (s : State) (p : Operand) : Word :=
  match p with
  | .reg r => s.regAddr r
  | .indirect r => s.reg r
  | .symbolic => s.wordAt s.pc
  | .indexed r => s.wordAt s.pc + s.reg r
  | .autoInc r => s.reg r

/-- The state after an operand has been resolved: PC past its extension word, or its auto-increment
register advanced (R113-R115). -/
def State.resolved (s : State) (p : Operand) (size : Size) : State :=
  match p with
  | .symbolic | .indexed _ => s.withPc (s.pc + 2#16)
  | .autoInc r => s.storeWord (s.regAddr r) (s.reg r + size.step)
  | _ => s

/-- The value of a word operand: read after its own resolution (R117). -/
def State.operandWord (s : State) (p : Operand) : Word := (s.resolved p .word).wordAt (s.ea p)

/-- The value of a byte operand (R116). -/
def State.operandByte (s : State) (p : Operand) : Byte := (s.resolved p .byte).byteAt (s.ea p)

/-- The answer the coming CRU input number `k` (counted from 0) of an address gives: the one the
environment has fixed, else a free value (R185, log 9). -/
def State.cruAnswer (s : State) (k : Nat) (a : BitVec 12) : Bool :=
  match s.cruInputs[k]? with
  | some b => b
  | none => Config.cruIn (s.draws + (k - s.cruInputs.length)) a

/-- The count of a shift (R95, R220): the field; where that is 0, the low four bits of R0; where those
are 0 too, 16. -/
def State.shiftPlaces (s : State) (c : BitVec 4) : Nat :=
  if c ≠ 0#4 then c.toNat
  else if (s.reg 0#4).toNat % 16 = 0 then 16 else (s.reg 0#4).toNat % 16

/-! ## Flags in plain numbers (R120-R124) -/

/-- The number fits n signed bits. -/
def signedFits (n : Nat) (v : Int) : Prop := -(2 ^ (n - 1) : Int) ≤ v ∧ v < (2 ^ (n - 1) : Int)

/-- LGT, AGT and EQ say how a value stands to 0 (R120). -/
def Status.RatesResult {n : Nat} (t : Status) (v : BitVec n) : Prop :=
  (t.lgt = true ↔ v ≠ 0#n) ∧ (t.agt = true ↔ 0 < v.toInt) ∧ (t.eq = true ↔ v = 0#n)

/-- LGT, AGT and EQ say how `a` stands to `b` (R121). -/
def Status.RatesPair {n : Nat} (t : Status) (a b : BitVec n) : Prop :=
  (t.lgt = true ↔ b.toNat < a.toNat) ∧ (t.agt = true ↔ b.toInt < a.toInt) ∧ (t.eq = true ↔ a = b)

/-- C and OV of the sum of `a` and `b`: the unsigned and the signed overflow (R122). -/
def Status.RatesSum {n : Nat} (t : Status) (a b : BitVec n) : Prop :=
  (t.c = true ↔ 2 ^ n ≤ a.toNat + b.toNat) ∧ (t.ov = true ↔ ¬ signedFits n (a.toInt + b.toInt))

/-- C and OV of `a` minus `b`: no borrow, and the signed overflow (R123). -/
def Status.RatesDifference {n : Nat} (t : Status) (a b : BitVec n) : Prop :=
  (t.c = true ↔ b.toNat ≤ a.toNat) ∧ (t.ov = true ↔ ¬ signedFits n (a.toInt - b.toInt))

/-- OP says that a byte has an odd number of 1 bits (R124). -/
def Status.RatesParity (t : Status) (b : Byte) : Prop :=
  t.op = true ↔ ((List.range 8).countP fun i => b.getLsbD i) % 2 = 1

/-- The bits of ST outside the instruction's mask are the same in both states (R33, R125). -/
def FlagsKept (i : Instr) (s t : State) : Prop :=
  t.st.toWord &&& ~~~i.statusMask = s.st.toWord &&& ~~~i.statusMask

/-! ## How an instruction completes over plain RAM -/

/-- The instruction completes: from the state `u` its operands are in, ST changes in the instruction's
bits alone and as `P` says, and nothing else changes. -/
def CompletesRating (i : Instr) (s u : State) (P : Status → Prop) : Prop :=
  ∃ t, exec i s = .next t ∧ t = u.withSt t.st ∧ FlagsKept i s t ∧ P t.st

/-- The instruction completes as `CompletesRating` says, and stores the word `r` at `a` besides. -/
def CompletesStoring (i : Instr) (s u : State) (a r : Word) (P : Status → Prop) : Prop :=
  ∃ t, exec i s = .next t ∧ t = (u.withSt t.st).storeWord a r ∧ FlagsKept i s t ∧ P t.st

/-- The instruction completes as `CompletesRating` says, and stores the byte `r` at `a` besides. -/
def CompletesStoringByte (i : Instr) (s u : State) (a : Word) (r : Byte) (P : Status → Prop) : Prop :=
  ∃ t, exec i s = .next t ∧ t = (u.withSt t.st).storeByte a r ∧ FlagsKept i s t ∧ P t.st

/-- The instruction completes as a jump: PC moves by twice the signed displacement, modulo 65536, when
the condition holds; else nothing changes (R200). -/
def CompletesJumping (i : Instr) (s : State) (disp : BitVec 8) (condition : Prop) : Prop :=
  ∃ t, exec i s = .next t ∧ t = s.withPc t.pc ∧
    (condition → (t.pc.toNat : Int) = ((s.pc.toNat : Int) + 2 * disp.toInt) % 65536) ∧
    (¬ condition → t.pc = s.pc)

/-! ## Context switches over plain RAM (R273, R180) -/

/-- `t` is `s` after the context switch through the vector at `v`, with `link` in the new R11 when there
is one: WP and PC from the vector, both made even, PC read after the stores; the old WP, PC and ST in
the new R13, R14, R15, each store seen by the environment; every byte outside the stored words and every
other field but ST and the two latches as before. -/
structure Switched (v : Word) (link : Option Word) (s t : State) : Prop where
  wp : t.wp = s.wordAt v &&& 0xFFFE#16
  pc : t.pc = t.wordAt (v + 2#16) &&& 0xFFFE#16
  r11 : ∀ a, link = some a → t.reg 11#4 = a
  r13 : t.reg 13#4 = s.wp
  r14 : t.reg 14#4 = s.pc
  r15 : t.reg 15#4 = s.st.toWord
  mem : ∀ c, (link ≠ none → ¬ wordBytes (t.wp + 22#16) c) → ¬ wordBytes (t.wp + 26#16) c →
    ¬ wordBytes (t.wp + 28#16) c → ¬ wordBytes (t.wp + 30#16) c → t.byteAt c = s.byteAt c
  events : t.events = .memWrite (t.wp + 30#16) s.st.toWord :: .memWrite (t.wp + 28#16) s.pc ::
    .memWrite (t.wp + 26#16) s.wp ::
    ((link.map fun a => Event.memWrite (t.wp + 22#16) a).toList ++ s.events)
  rest : t = ((((((s.withPc t.pc).withWp t.wp).withSt t.st).withMem t.mem).withIdle t.idle).withInhibit
    t.inhibit).withEvents t.events


end Sys2Proof.Machine
end

