-- ==== Sys2Proof/Certificates/Slice0/Obligations.lean ====
section
/-! DEFINITION. The statements about the machine, family by family. "Over plain RAM" means on the
platform every address of which is RAM, the default of R6 and of decision D30; the statements named
"on any memory map" have no such premise. Where a rule is marked by the spec as a decision or as taken
from general knowledge, the statement says so and names the log entry. -/

open Sys2Proof Sys2Proof.Machine

/-! ## Encoding -/

/-- Words written out from the spec's own examples decode to the instructions they stand for
(spec/41 to spec/49 and spec/95_test_vectors.md; the two-word examples by their first word). -/
def Obligations.SampleWordsDecode : Prop :=
  decode 0xA081#16 = some (.a (.reg 1#4) (.reg 2#4)) ∧
  decode 0x9081#16 = some (.cb (.reg 1#4) (.reg 2#4)) ∧
  decode 0xC801#16 = some (.mov (.reg 1#4) .symbolic) ∧
  decode 0x2C81#16 = some (.xop (.reg 1#4) 2#4) ∧
  decode 0x3201#16 = some (.ldcr (.reg 1#4) 8#4) ∧
  decode 0x045B#16 = some (.b (.indirect 11#4)) ∧
  decode 0x06A0#16 = some (.bl .symbolic) ∧
  decode 0x0901#16 = some (.srl 0#4 1#4) ∧
  decode 0x10FF#16 = some (.jmp 0xFF#8) ∧
  decode 0x1FFF#16 = some (.tb 0xFF#8) ∧
  decode 0x0221#16 = some (.ai 1#4) ∧
  decode 0x0300#16 = some .limi ∧
  decode 0x0380#16 = some .rtwp ∧
  decode 0x03A0#16 = some .ckon

/-- Every well-formed instruction is read back from the word it encodes to, with every operand at every
value (formats R81-R91, mode fields R92). -/
def Obligations.DecodeOfEncodeIsIdentity : Prop :=
  ∀ i : Instr, i.wellFormed = true → decode (encode i) = some i

/-- A word that decodes gives a well-formed instruction whose encoding is the word with its filler bits
cleared, and the filler bits do not matter to the decoder (R101, decision D7; log 12). -/
def Obligations.DecodeIgnoresFillerBitsAlone : Prop :=
  ∀ (w : Word) (i : Instr), decode w = some i →
    i.wellFormed = true ∧ encode i = w &&& ~~~i.filler ∧
    ∀ v : Word, v &&& ~~~i.filler = w &&& ~~~i.filler → decode v = some i

/-- R98: the 69 rows' match and mask; a word is the instruction of a row exactly when, masked, it is the
row's match; no word matches two rows. -/
def Obligations.WordIsInstructionIffRowMatches : Prop :=
  (∀ (p q : Operand) (r : Reg) (n : BitVec 4) (disp : BitVec 8),
    [.szc p q, .szcb p q, .s p q, .sb p q, .c p q, .cb p q, .a p q, .ab p q, .mov p q, .movb p q,
      .soc p q, .socb p q].map Instr.tableRow =
      [0x4000, 0x5000, 0x6000, 0x7000, 0x8000, 0x9000, 0xA000, 0xB000, 0xC000, 0xD000,
        0xE000, 0xF000].map
        (fun m : Word => (m, 0xF000#16)) ∧
    [.coc p r, .czc p r, .xor p r, .xop p n, .ldcr p n, .stcr p n, .mpy p r,
      .div p r].map Instr.tableRow =
      [0x2000, 0x2400, 0x2800, 0x2C00, 0x3000, 0x3400, 0x3800, 0x3C00].map
        (fun m : Word => (m, 0xFC00#16)) ∧
    [.blwp p, .b p, .x p, .clr p, .neg p, .inv p, .inc p, .inct p, .dec p, .dect p, .bl p,
      .swpb p, .seto p, .abs p].map Instr.tableRow =
      [0x0400, 0x0440, 0x0480, 0x04C0, 0x0500, 0x0540, 0x0580, 0x05C0, 0x0600, 0x0640,
        0x0680, 0x06C0, 0x0700, 0x0740].map
        (fun m : Word => (m, 0xFFC0#16)) ∧
    [.sra n r, .srl n r, .sla n r, .src n r, .jmp disp, .jlt disp, .jle disp, .jeq disp,
      .jhe disp, .jgt disp, .jne disp, .jnc disp, .joc disp, .jno disp, .jl disp, .jh disp,
      .jop disp, .sbo disp, .sbz disp, .tb disp].map Instr.tableRow =
      [0x0800, 0x0900, 0x0A00, 0x0B00, 0x1000, 0x1100, 0x1200, 0x1300, 0x1400, 0x1500,
        0x1600, 0x1700, 0x1800, 0x1900, 0x1A00, 0x1B00, 0x1C00, 0x1D00, 0x1E00, 0x1F00].map
        (fun m : Word => (m, 0xFF00#16)) ∧
    [.li r, .ai r, .andi r, .ori r, .ci r, .stwp r, .stst r, .lwpi, .limi, .idle, .rset, .rtwp,
      .ckon, .ckof, .lrex].map Instr.tableRow =
      [0x0200, 0x0220, 0x0240, 0x0260, 0x0280, 0x02A0, 0x02C0, 0x02E0, 0x0300, 0x0340,
        0x0360, 0x0380, 0x03A0, 0x03C0, 0x03E0].map
        (fun m : Word => (m, 0xFFE0#16))) ∧
  (∀ (i : Instr) (w : Word),
    w &&& i.tableRow.2 = i.tableRow.1 ↔ ∃ j, decode w = some j ∧ j.tableRow = i.tableRow) ∧
  (∀ (i j : Instr) (w : Word), w &&& i.tableRow.2 = i.tableRow.1 →
    w &&& j.tableRow.2 = j.tableRow.1 → i.tableRow = j.tableRow)

/-- R100: exactly four ranges of words are unassigned; fetching one, or executing one through X, ends the
run with the model fault of decision D6 (log 11, the model's choice between the spec's two). -/
def Obligations.UnassignedWordsAreIllegal : Prop :=
  (∀ w : Word, decode w = none ↔
    w.toNat ≤ 0x01FF ∨ (0x0320 ≤ w.toNat ∧ w.toNat ≤ 0x033F) ∨
      (0x0780 ≤ w.toNat ∧ w.toNat ≤ 0x07FF) ∨ (0x0C00 ≤ w.toNat ∧ w.toNat ≤ 0x0FFF)) ∧
  (∀ s : State, s.Undisturbed → s.kindAt s.pc = .ram ∨ s.kindAt s.pc = .rom →
    decode (s.wordAt s.pc) = none → step s = .fault (.illegalOpcode (s.wordAt s.pc))) ∧
  (∀ (s : State) (p : Operand), s.AllRam → decode (s.operandWord p) = none →
    exec (.x p) s = .fault (.illegalOpcode (s.operandWord p)))

/-- R102, R20 (derived by the spec): on any memory map an instruction that is no transfer of control and
not X advances PC past its own extension words, and no further. -/
def Obligations.PcPassesExtensionWords : Prop :=
  ∀ (i : Instr) (s t : State), i.writesPc = false → i.isExecute = false → exec i s = .next t →
    t.pc = s.pc + 2#16 * BitVec.ofNat 16 (i.words - 1)

/-! ## Memory -/

/-- R10, R54 (decision D2; log 40): a word stored in RAM is read back, lies with its more significant
byte at the even address, leaves every byte of every other word and all other state as it was, and is
seen by the environment (R13; log 10). -/
def Obligations.StoredWordIsReadBackBigEndian : Prop :=
  ∀ (s : State) (a v : Word), s.kindAt a = .ram → s.mem.wf = true →
    ∃ t, writeWord a v s = .next t ∧ readWord a t = .next (v, t) ∧
      t.byteAt (a &&& 0xFFFE#16) = v.extractLsb' 8 8 ∧
      t.byteAt ((a &&& 0xFFFE#16) + 1#16) = v.extractLsb' 0 8 ∧
      (∀ c : Word, c &&& 0xFFFE#16 ≠ a &&& 0xFFFE#16 → t.byteAt c = s.byteAt c) ∧
      t = (s.withMem t.mem).withEvents (.memWrite (a &&& 0xFFFE#16) v :: s.events)

/-- R55: the two bytes of a stored word, a byte stored into its odd half, and a byte operand in register
mode, which is the high byte of the register and leaves the low byte alone. -/
def Obligations.MixedWidthsShareMemory : Prop :=
  ∀ s : State, s.AllRam → s.Inv →
    (∀ e v : Word, e.getLsbD 0 = false → ∃ t, writeWord e v s = .next t ∧
      (∃ o, readByte e t = .next (o, t) ∧ o.byte = v.extractLsb' 8 8) ∧
      (∃ o, readByte (e + 1#16) t = .next (o, t) ∧ o.byte = v.extractLsb' 0 8 ∧
        ∀ b : Byte, ∃ u, writeByteOp o b t = .next u ∧
          readWord e u = .next (v.extractLsb' 8 8 ++ b, u))) ∧
    (∀ r : Reg, ∃ o, fetchByte (.reg r) s = .next (o, s) ∧ o.byte = (s.reg r).extractLsb' 8 8 ∧
      ∀ b : Byte, ∃ t, writeByteOp o b s = .next t ∧
        t.reg r = b ++ (s.reg r).extractLsb' 0 8)

/-- R57 (derived by the spec, decision D3; log 14): a word access at an odd address is the access at the
even address below it, on any memory map. -/
def Obligations.WordAccessIgnoresLowAddressBit : Prop :=
  ∀ (s : State) (a v : Word),
    readWord a s = readWord (a &&& 0xFFFE#16) s ∧
    writeWord a v s = writeWord (a &&& 0xFFFE#16) v s

/-- R65 (decision D30; logs 5, 6, 7): what the memory map decides of an access. An unmapped address stops
both ways, ROM stops a store, a device sees the access and memory stays, RAM takes it. -/
def Obligations.MemoryMapDecidesAccesses : Prop :=
  ∀ (s : State) (a v : Word) (o : ByteOp) (b : Byte),
    (s.kindAt a = .unmapped →
      readWord a s = .fault (.unmappedAccess (a &&& 0xFFFE#16)) ∧
      writeWord a v s = .fault (.unmappedAccess (a &&& 0xFFFE#16))) ∧
    (s.kindAt a = .rom →
      readWord a s = .next (s.wordAt a, s) ∧
      writeWord a v s = .fault (.romWrite (a &&& 0xFFFE#16))) ∧
    (s.kindAt a = .device →
      (∃ answer t, readWord a s = .next (answer, t) ∧ t.mem = s.mem ∧
        t.events = .deviceRead (a &&& 0xFFFE#16) :: s.events) ∧
      writeWord a v s = .next (s.withEvents (.deviceWrite (a &&& 0xFFFE#16) v :: s.events))) ∧
    (s.kindAt a = .ram → readWord a s = .next (s.wordAt a, s) ∧
      writeWord a v s = .next (s.storeWord a v)) ∧
    (s.kindAt o.addr = .ram → writeByteOp o b s = .next (s.storeByte o.addr b)) ∧
    (s.kindAt o.addr = .unmapped →
      writeByteOp o b s = .fault (.unmappedAccess (o.addr &&& 0xFFFE#16))) ∧
    (s.kindAt o.addr = .rom → writeByteOp o b s = .fault (.romWrite (o.addr &&& 0xFFFE#16))) ∧
    (s.kindAt o.addr = .device → ∃ whole, writeByteOp o b s =
        .next (s.withEvents (.deviceWrite (o.addr &&& 0xFFFE#16) whole :: s.events)) ∧
      selectByte o.addr whole = b ∧
      selectByte (o.addr ^^^ 1#16) whole = selectByte (o.addr ^^^ 1#16) o.word)

/-! ## Addressing modes -/

/-- R111, R112, R113: workspace register, register indirect and symbolic addressing, with their mode
fields; register mode on any memory map, the rest over plain RAM, with the operands that are read there:
a word with the address's low bit ignored, a byte at all sixteen bits of it, the high byte of a register. -/
def Obligations.DirectModesGiveAddress : Prop :=
  ∀ (s : State) (size : Size) (r : Reg),
    let ea := BitVec.ofNat 16 (s.wp.toNat + 2 * r.toNat)
    operandOf 0b00#2 r = .reg r ∧ operandOf 0b01#2 r = .indirect r ∧
    operandOf 0b10#2 0#4 = .symbolic ∧
    resolve (.reg r) size s = .next (ea, s) ∧
    (s.AllRam →
      resolve (.indirect r) size s = .next (s.wordAt ea, s) ∧
      resolve .symbolic size s = .next (s.wordAt s.pc, s.withPc (s.pc + 2#16)) ∧
      fetchWord (.reg r) s = .next (⟨ea, s.wordAt ea⟩, s) ∧
      (s.wp.getLsbD 0 = false → ∃ o, fetchByte (.reg r) s = .next (o, s) ∧
        o.byte = (s.wordAt ea).extractLsb' 8 8) ∧
      fetchWord (.indirect r) s =
        .next (⟨s.wordAt ea, s.wordAt (s.wordAt ea &&& 0xFFFE#16)⟩, s) ∧
      (∃ o, fetchByte (.indirect r) s = .next (o, s) ∧ o.addr = s.wordAt ea ∧
        o.byte = s.byteAt (s.wordAt ea)) ∧
      let u := s.withPc (s.pc + 2#16)
      fetchWord .symbolic s = .next (⟨s.wordAt s.pc, s.wordAt (s.wordAt s.pc &&& 0xFFFE#16)⟩, u) ∧
      ∃ o, fetchByte .symbolic s = .next (o, u) ∧ o.addr = s.wordAt s.pc ∧
        o.byte = s.byteAt (s.wordAt s.pc))

/-- R114, R115 (order and increments from general knowledge, decisions D5, D9; log 16): indexed and
auto-increment addressing over plain RAM, with their mode fields. -/
def Obligations.IndexedAndAutoIncrementModes : Prop :=
  ∀ (s : State) (size : Size) (r : Reg), s.AllRam →
    (r ≠ 0#4 → operandOf 0b10#2 r = .indexed r ∧
      resolve (.indexed r) size s = .next (s.wordAt s.pc + s.reg r, s.withPc (s.pc + 2#16))) ∧
    operandOf 0b11#2 r = .autoInc r ∧
    resolve (.autoInc r) .byte s =
      .next (s.reg r, s.storeWord (s.regAddr r) (s.reg r + 1#16)) ∧
    resolve (.autoInc r) .word s =
      .next (s.reg r, s.storeWord (s.regAddr r) (s.reg r + 2#16))

/-! ## Status -/

/-- R30: where each flag and the mask stand in the status word, TI bit n being bit 15 - n. -/
def Obligations.StatusWordLayout : Prop :=
  ∀ t : Status,
    t.toWord.getLsbD 15 = t.lgt ∧ t.toWord.getLsbD 14 = t.agt ∧ t.toWord.getLsbD 13 = t.eq ∧
    t.toWord.getLsbD 12 = t.c ∧ t.toWord.getLsbD 11 = t.ov ∧ t.toWord.getLsbD 10 = t.op ∧
    t.toWord.getLsbD 9 = t.x ∧ t.toWord &&& 0x01F0#16 = 0#16 ∧
    t.toWord.toNat % 16 = t.mask.toNat

/-- R33, R125 (for some instructions from general knowledge; logs 17, 41): on any memory map an
instruction other than X changes no bit of ST outside the bits the table of R33 gives it. -/
def Obligations.OnlyListedStatusBitsChange : Prop :=
  ∀ (i : Instr) (s t : State), i.isExecute = false → exec i s = .next t → FlagsKept i s t

/-- R23, R41, R42, R43, R264 (in part decisions D17, D27, D39; logs 28, 30, 37, 43): on any memory map,
which instructions but X write WP, the two latches and what the environment presents. -/
def Obligations.WhichInstructionsWriteInternalState : Prop :=
  ∀ (i : Instr) (s t : State), i.isExecute = false → exec i s = .next t →
    (i.writesWp = false → t.wp = s.wp) ∧
    t.idle = (s.idle || decide (i = .idle)) ∧
    t.inhibit = (s.inhibit || i.setsInhibit) ∧
    (i.readsCru = false → t.cruInputs = s.cruInputs) ∧
    t.faulted = s.faulted ∧ t.pendingX = s.pendingX ∧ t.regions = s.regions ∧
    t.samples = s.samples ∧ t.requestsEnd = s.requestsEnd

/-! ## Two general operands (spec/41_dual_operand.md) -/

/-- A and S over plain RAM (R131, R135; the flag formulas are decision D10, log 17): the source is
resolved and read, then the destination in the state that leaves; sum or difference, destination minus
source, to the destination's address. -/
def Obligations.AddAndSubtractWords : Prop :=
  ∀ (s : State) (p q : Operand), s.AllRam →
    let m := s.resolved p .word
    let v := s.operandWord p
    let d := m.operandWord q
    CompletesStoring (.a p q) s (m.resolved q .word) (m.ea q) (d + v)
      (fun t => t.RatesResult (d + v) ∧ t.RatesSum d v) ∧
    CompletesStoring (.s p q) s (m.resolved q .word) (m.ea q) (d - v)
      (fun t => t.RatesResult (d - v) ∧ t.RatesDifference d v)

/-- AB and SB over plain RAM (R132, R136; decision D10, log 17): as A and S on bytes, with the parity of
the result. -/
def Obligations.AddAndSubtractBytes : Prop :=
  ∀ (s : State) (p q : Operand), s.AllRam →
    let m := s.resolved p .byte
    let v := s.operandByte p
    let d := m.operandByte q
    CompletesStoringByte (.ab p q) s (m.resolved q .byte) (m.ea q) (d + v)
      (fun t => t.RatesResult (d + v) ∧ t.RatesSum d v ∧ t.RatesParity (d + v)) ∧
    CompletesStoringByte (.sb p q) s (m.resolved q .byte) (m.ea q) (d - v)
      (fun t => t.RatesResult (d - v) ∧ t.RatesDifference d v ∧ t.RatesParity (d - v))

/-- C, CB and CI over plain RAM (R133, R134, R233; operand order and flags are decision D10, log 17): the
source, or the register, is compared to the destination, or the immediate; nothing is stored but an
auto-increment; CB rates the parity of the source byte. -/
def Obligations.ComparesRateFirstToSecond : Prop :=
  ∀ (s : State) (p q : Operand) (w : Reg), s.AllRam →
    (let m := s.resolved p .word
     CompletesRating (.c p q) s (m.resolved q .word)
       (fun t => t.RatesPair (s.operandWord p) (m.operandWord q))) ∧
    (let m := s.resolved p .byte
     CompletesRating (.cb p q) s (m.resolved q .byte)
       (fun t => t.RatesPair (s.operandByte p) (m.operandByte q) ∧
         t.RatesParity (s.operandByte p))) ∧
    CompletesRating (.ci w) s (s.withPc (s.pc + 2#16))
      (fun t => t.RatesPair (s.reg w) (s.wordAt s.pc))

/-- SOC, SZC and MOV over plain RAM (R137, R139, R141; directions and flags are decision D10, log 17):
destination or source, destination and not source, or the source goes to the destination's address;
LGT, AGT and EQ rate it; no other bit of ST changes. -/
def Obligations.LogicalAndMoveWords : Prop :=
  ∀ (s : State) (p q : Operand), s.AllRam →
    let m := s.resolved p .word
    let v := s.operandWord p
    let d := m.operandWord q
    CompletesStoring (.soc p q) s (m.resolved q .word) (m.ea q) (d ||| v)
      (fun t => t.RatesResult (d ||| v)) ∧
    CompletesStoring (.szc p q) s (m.resolved q .word) (m.ea q) (d &&& ~~~v)
      (fun t => t.RatesResult (d &&& ~~~v)) ∧
    CompletesStoring (.mov p q) s (m.resolved q .word) (m.ea q) v (fun t => t.RatesResult v)

/-- SOCB, SZCB and MOVB over plain RAM (R138, R140, R142; decision D10, log 17): as SOC, SZC and MOV on
bytes, with the parity of the byte stored. -/
def Obligations.LogicalAndMoveBytes : Prop :=
  ∀ (s : State) (p q : Operand), s.AllRam →
    let m := s.resolved p .byte
    let v := s.operandByte p
    let d := m.operandByte q
    CompletesStoringByte (.socb p q) s (m.resolved q .byte) (m.ea q) (d ||| v)
      (fun t => t.RatesResult (d ||| v) ∧ t.RatesParity (d ||| v)) ∧
    CompletesStoringByte (.szcb p q) s (m.resolved q .byte) (m.ea q) (d &&& ~~~v)
      (fun t => t.RatesResult (d &&& ~~~v) ∧ t.RatesParity (d &&& ~~~v)) ∧
    CompletesStoringByte (.movb p q) s (m.resolved q .byte) (m.ea q) v
      (fun t => t.RatesResult v ∧ t.RatesParity v)

/-! ## A general source and a register (spec/42_dual_operand_regdest.md) -/

/-- COC, CZC and XOR over plain RAM (R151, R152, R153; decision D10, log 17): every 1 of the source is a
1, or a 0, of the register; the exclusive or goes to the register. -/
def Obligations.CorrespondingCompareAndXor : Prop :=
  ∀ (s : State) (p : Operand) (r : Reg), s.AllRam →
    let u := s.resolved p .word
    let v := s.operandWord p
    CompletesRating (.coc p r) s u
      (fun t => t.eq = true ↔ ∀ k, v.getLsbD k = true → (u.reg r).getLsbD k = true) ∧
    CompletesRating (.czc p r) s u
      (fun t => t.eq = true ↔ ∀ k, v.getLsbD k = true → (u.reg r).getLsbD k = false) ∧
    CompletesStoring (.xor p r) s u (s.regAddr r) (u.reg r ^^^ v)
      (fun t => t.RatesResult (u.reg r ^^^ v))

/-- MPY over plain RAM (R154, R157; decision D12, log 19): the 32-bit unsigned product in the register
and the word after it, for register 15 too; ST unchanged. -/
def Obligations.MultiplyLeavesProductInPair : Prop :=
  ∀ (s : State) (p : Operand) (r : Reg), s.AllRam →
    let u := s.resolved p .word
    ∃ high low : Word,
      high.toNat * 65536 + low.toNat = (s.operandWord p).toNat * (u.reg r).toNat ∧
      exec (.mpy p r) s =
        .next ((u.storeWord (s.regAddr r) high).storeWord (s.regAddr r + 2#16) low)

/-- DIV over plain RAM (R155, R157; decisions D12, D13, log 19): divided exactly when the divisor exceeds
the high word; the quotient goes to the register and the remainder to the word after it, OV cleared;
else OV is set and nothing else changes. -/
def Obligations.DivideOrReportOverflow : Prop :=
  ∀ (s : State) (p : Operand) (r : Reg), s.AllRam →
    let u := s.resolved p .word
    let v := s.operandWord p
    (v.toNat ≤ (u.reg r).toNat → exec (.div p r) s = .next (u.withSt { s.st with ov := true })) ∧
    ((u.reg r).toNat < v.toNat → ∃ quotient remainder : Word,
      (u.reg r).toNat * 65536 + (u.wordAt (s.regAddr r + 2#16)).toNat =
        quotient.toNat * v.toNat + remainder.toNat ∧ remainder.toNat < v.toNat ∧
      exec (.div p r) s = .next (((u.withSt { s.st with ov := false }).storeWord (s.regAddr r)
        quotient).storeWord (s.regAddr r + 2#16) remainder))

/-! ## One general operand (spec/43_single_operand.md) -/

/-- B and BL over plain RAM (R161, R162; decisions D4, D24, logs 13, 23): to the operand's address, not
its contents, made even; BL first leaves the address after itself in R11. -/
def Obligations.BranchAndLinkGoToOperandAddress : Prop :=
  ∀ (s : State) (p : Operand), s.AllRam →
    let u := s.resolved p .word
    exec (.b p) s = .next (u.withPc (s.ea p &&& 0xFFFE#16)) ∧
    exec (.bl p) s =
      .next ((u.storeWord (s.regAddr 11#4) u.pc).withPc (s.ea p &&& 0xFFFE#16))

/-- BLWP over plain RAM (R163, R273; decisions D17, D21, logs 24, 28): the context switch through the
vector at the operand's address; ST unchanged; the next maskable interrupt held back once. -/
def Obligations.BranchLoadWorkspaceSwitches : Prop :=
  ∀ (s : State) (p : Operand), s.AllRam → s.mem.wf = true →
    ∃ t, exec (.blwp p) s = .next t ∧ Switched (s.ea p) none (s.resolved p .word) t ∧
      t.st = s.st ∧ t.idle = s.idle ∧ t.inhibit = true

/-- R164, R165, R169: CLR, SETO and SWPB, with their encodings, over plain RAM; and on any memory map the
operand's word is read before it is written. -/
def Obligations.ClearSetAndSwapKeepStatus : Prop :=
  (∀ (ts : BitVec 2) (r : Reg),
    decode (0b0000010011#10 ++ ts ++ r) = some (.clr (operandOf ts r)) ∧
    decode (0b0000011100#10 ++ ts ++ r) = some (.seto (operandOf ts r)) ∧
    decode (0b0000011011#10 ++ ts ++ r) = some (.swpb (operandOf ts r))) ∧
  (∀ (s : State) (p : Operand), s.AllRam →
    let u := s.resolved p .word
    let v := s.operandWord p
    exec (.clr p) s = .next (u.storeWord (s.ea p) 0x0000#16) ∧
    exec (.seto p) s = .next (u.storeWord (s.ea p) 0xFFFF#16) ∧
    exec (.swpb p) s = .next (u.storeWord (s.ea p) (v.extractLsb' 0 8 ++ v.extractLsb' 8 8))) ∧
  (∀ (s u : State) (p : Operand) (o : WordOp), fetchWord p s = .next (o, u) →
    exec (.clr p) s = writeWord o.addr 0x0000#16 u ∧
    exec (.seto p) s = writeWord o.addr 0xFFFF#16 u ∧
    exec (.swpb p) s = writeWord o.addr (o.value.extractLsb' 0 8 ++ o.value.extractLsb' 8 8) u)

/-- INV and NEG over plain RAM (R166, R167; flags are decision D10, log 17): the complement, or 0 minus the
operand, is stored back; NEG sets C for 0 alone and OV for 0x8000 alone. -/
def Obligations.InvertAndNegate : Prop :=
  ∀ (s : State) (p : Operand), s.AllRam →
    let u := s.resolved p .word
    let v := s.operandWord p
    CompletesStoring (.inv p) s u (s.ea p) (~~~v) (fun t => t.RatesResult (~~~v)) ∧
    CompletesStoring (.neg p) s u (s.ea p) (-v)
      (fun t => t.RatesResult (-v) ∧ (t.c = true ↔ v = 0#16) ∧ (t.ov = true ↔ v = 0x8000#16))

/-- INC, INCT, DEC and DECT over plain RAM (R170-R173; flags are decision D10, log 17): the operand plus or
minus 1 or 2 is stored back, with the flags of that addition or subtraction. -/
def Obligations.IncrementAndDecrement : Prop :=
  ∀ (s : State) (p : Operand), s.AllRam →
    let u := s.resolved p .word
    let v := s.operandWord p
    CompletesStoring (.inc p) s u (s.ea p) (v + 1#16)
      (fun t => t.RatesResult (v + 1#16) ∧ t.RatesSum v 1#16) ∧
    CompletesStoring (.inct p) s u (s.ea p) (v + 2#16)
      (fun t => t.RatesResult (v + 2#16) ∧ t.RatesSum v 2#16) ∧
    CompletesStoring (.dec p) s u (s.ea p) (v - 1#16)
      (fun t => t.RatesResult (v - 1#16) ∧ t.RatesDifference v 1#16) ∧
    CompletesStoring (.dect p) s u (s.ea p) (v - 2#16)
      (fun t => t.RatesResult (v - 2#16) ∧ t.RatesDifference v 2#16)

/-- ABS over plain RAM (R168; decision D11, log 18: the flags describe the operand before the operation
and C is cleared): a negative operand is replaced by its magnitude, another is not written. -/
def Obligations.AbsoluteValueRatesOperand : Prop :=
  ∀ (s : State) (p : Operand), s.AllRam →
    let u := s.resolved p .word
    let v := s.operandWord p
    let flags : Status → Prop := fun t =>
      t.RatesResult v ∧ t.c = false ∧ (t.ov = true ↔ v = 0x8000#16)
    (v.toInt < 0 → CompletesStoring (.abs p) s u (s.ea p) (-v) flags) ∧
    (0 ≤ v.toInt → CompletesRating (.abs p) s u flags)

/-- X over plain RAM (R174; decision D23, log 22): the operand's word is executed in place of X, through
one X more as well; a word kept from a chain of more than sixteen (the model's own way to follow one)
is executed by the next step with nothing sampled before it. -/
def Obligations.ExecuteRunsTheOperandWord : Prop :=
  (∀ (s : State) (p : Operand) (i : Instr), s.AllRam → decode (s.operandWord p) = some i →
    i.isExecute = false →
    ∃ t, exec (.x p) s = .next t ∧ exec i (s.resolved p .word) = .next t) ∧
  (∀ (s : State) (p q : Operand) (i : Instr), s.AllRam →
    decode (s.operandWord p) = some (.x q) →
    decode ((s.resolved p .word).operandWord q) = some i → i.isExecute = false →
    ∃ t, exec (.x p) s = .next t ∧
      exec i ((s.resolved p .word).resolved q .word) = .next t) ∧
  (∀ (s : State) (w : Word) (i : Instr), s.faulted = none → s.pendingX = some w →
    decode w = some i → step s = exec i (s.withPendingX none))

/-! ## The software trap (spec/44_xop.md) -/

/-- XOP over plain RAM (R180, R261; decisions D17, D21, D36, logs 24, 25, 28): the context switch
through the vector of its number, the operand's address in the new R11, ST saved before X is set. -/
def Obligations.XopTrapsThroughItsVector : Prop :=
  ∀ (s : State) (p : Operand) (n : BitVec 4), s.AllRam → s.mem.wf = true →
    ∃ t, exec (.xop p n) s = .next t ∧
      Switched (BitVec.ofNat 16 (0x0040 + 4 * n.toNat)) (some (s.ea p)) (s.resolved p .word) t ∧
      t.st = { s.st with x := true } ∧ t.idle = s.idle ∧ t.inhibit = true

/-! ## The CRU (spec/45_cru.md) -/

/-- LDCR over plain RAM (R187, R186, R95; decisions D14, D15, logs 20, 21): the low bits of a byte, for
1 to 8 bits, or of a word go to consecutive CRU addresses, least significant first; the flags rate the
whole operand. -/
def Obligations.LoadCruSendsLowBitsFirst : Prop :=
  ∀ (s : State) (p : Operand) (c : BitVec 4), s.AllRam →
    let n := transferCount c
    (n ≤ 8 →
      let u := s.resolved p .byte
      let v := s.operandByte p
      ∃ t, exec (.ldcr p c) s = .next t ∧ FlagsKept (.ldcr p c) s t ∧
        t.st.RatesResult v ∧ t.st.RatesParity v ∧
        t = (u.withSt t.st).withEvents (((List.range n).map fun k =>
          Event.cruOut (BitVec.ofNat 12 ((u.reg 12#4).toNat / 2 + k)) (v.getLsbD k)).reverse ++
            u.events)) ∧
    (8 < n →
      let u := s.resolved p .word
      let v := s.operandWord p
      ∃ t, exec (.ldcr p c) s = .next t ∧ FlagsKept (.ldcr p c) s t ∧ t.st.RatesResult v ∧
        t = (u.withSt t.st).withEvents (((List.range n).map fun k =>
          Event.cruOut (BitVec.ofNat 12 ((u.reg 12#4).toNat / 2 + k)) (v.getLsbD k)).reverse ++
            u.events))

/-- STCR over plain RAM (R188, R186, R95; decisions D14, D15, logs 9, 20, 21): the answers of consecutive
CRU inputs, the first in the least significant bit and the rest 0, stored as a byte for 1 to 8 bits
and as a word for more, whatever the free answers are. -/
def Obligations.StoreCruCollectsInputBits : Prop :=
  ∀ (s : State) (p : Operand) (c : BitVec 4), s.AllRam →
    let n := transferCount c
    (n ≤ 8 →
      let u := s.resolved p .byte
      ∃ (t : State) (b : Byte), exec (.stcr p c) s = .next t ∧ FlagsKept (.stcr p c) s t ∧
        (∀ k, b.getLsbD k = (decide (k < n) &&
          s.cruAnswer k (BitVec.ofNat 12 ((u.reg 12#4).toNat / 2 + k)))) ∧
        t.st.RatesResult b ∧ t.st.RatesParity b ∧
        t = (((u.withSt t.st).withCruInputs (s.cruInputs.drop n)).withDraws
          (s.draws + (n - s.cruInputs.length))).storeByte (s.ea p) b) ∧
    (8 < n →
      let u := s.resolved p .word
      ∃ (t : State) (v : Word), exec (.stcr p c) s = .next t ∧ FlagsKept (.stcr p c) s t ∧
        (∀ k, v.getLsbD k = (decide (k < n) &&
          s.cruAnswer k (BitVec.ofNat 12 ((u.reg 12#4).toNat / 2 + k)))) ∧
        t.st.RatesResult v ∧
        t = (((u.withSt t.st).withCruInputs (s.cruInputs.drop n)).withDraws
          (s.draws + (n - s.cruInputs.length))).storeWord (s.ea p) v)

/-- SBO, SBZ and TB over plain RAM (R189, R190, R191, R186; decision D15, logs 9, 21): one CRU bit at the
base plus the signed displacement, modulo 4096; TB sets EQ to the answer. -/
def Obligations.CruBitInstructions : Prop :=
  ∀ (s : State) (disp : BitVec 8), s.AllRam →
    let a := BitVec.ofInt 12 (((s.reg 12#4).toNat / 2 : Nat) + disp.toInt)
    exec (.sbo disp) s = .next (s.withEvents (.cruOut a true :: s.events)) ∧
    exec (.sbz disp) s = .next (s.withEvents (.cruOut a false :: s.events)) ∧
    exec (.tb disp) s = .next (((s.withSt { s.st with eq := s.cruAnswer 0 a }).withCruInputs
      (s.cruInputs.drop 1)).withDraws (s.draws + (1 - s.cruInputs.length)))

/-! ## Jumps (spec/46_jumps.md) -/

/-- R201-R207: JEQ, JGT, JH, JHE, JL, JLE and JLT, with their encodings, jump on their conditions, on any
memory map. The base, PC past the jump, and the doubled displacement are R200's (decision D8, log 40). -/
def Obligations.CompareJumpsTestTheirFlags : Prop :=
  ∀ (s : State) (disp : BitVec 8), s.pc.getLsbD 0 = false →
    (decode (0x13#8 ++ disp) = some (.jeq disp) ∧
      decode (0x15#8 ++ disp) = some (.jgt disp) ∧
      decode (0x1B#8 ++ disp) = some (.jh disp) ∧
      decode (0x14#8 ++ disp) = some (.jhe disp) ∧
      decode (0x1A#8 ++ disp) = some (.jl disp) ∧
      decode (0x12#8 ++ disp) = some (.jle disp) ∧
      decode (0x11#8 ++ disp) = some (.jlt disp)) ∧
    CompletesJumping (.jeq disp) s disp (s.st.eq = true) ∧
    CompletesJumping (.jgt disp) s disp (s.st.agt = true) ∧
    CompletesJumping (.jh disp) s disp (s.st.lgt = true ∧ s.st.eq = false) ∧
    CompletesJumping (.jhe disp) s disp (s.st.lgt = true ∨ s.st.eq = true) ∧
    CompletesJumping (.jl disp) s disp (s.st.lgt = false ∧ s.st.eq = false) ∧
    CompletesJumping (.jle disp) s disp (s.st.lgt = false ∨ s.st.eq = true) ∧
    CompletesJumping (.jlt disp) s disp (s.st.agt = false ∧ s.st.eq = false)

/-- R208-R213: JMP, JNC, JNE, JNO, JOC and JOP, with their encodings, jump on their conditions, on any memory
map. The base and the doubled displacement are R200's (decision D8, log 40). -/
def Obligations.FlagJumpsTestTheirFlags : Prop :=
  ∀ (s : State) (disp : BitVec 8), s.pc.getLsbD 0 = false →
    (decode (0x10#8 ++ disp) = some (.jmp disp) ∧
      decode (0x17#8 ++ disp) = some (.jnc disp) ∧
      decode (0x16#8 ++ disp) = some (.jne disp) ∧
      decode (0x19#8 ++ disp) = some (.jno disp) ∧
      decode (0x18#8 ++ disp) = some (.joc disp) ∧
      decode (0x1C#8 ++ disp) = some (.jop disp)) ∧
    CompletesJumping (.jmp disp) s disp True ∧
    CompletesJumping (.jnc disp) s disp (s.st.c = false) ∧
    CompletesJumping (.jne disp) s disp (s.st.eq = false) ∧
    CompletesJumping (.jno disp) s disp (s.st.ov = false) ∧
    CompletesJumping (.joc disp) s disp (s.st.c = true) ∧
    CompletesJumping (.jop disp) s disp (s.st.op = true)

/-! ## Shifts (spec/47_shifts.md) -/

/-- SLA over plain RAM (R221, R220, R225; decision D25, log 26): the register times a power of two modulo
65536, the last bit shifted out in C, OV when the signed product does not fit; the count from the
field, or from R0 before the shift. -/
def Obligations.ShiftLeftMultiplies : Prop :=
  ∀ (s : State) (c : BitVec 4) (w : Reg), s.AllRam →
    let n := s.shiftPlaces c
    let v := s.reg w
    let r := BitVec.ofNat 16 (v.toNat * 2 ^ n)
    CompletesStoring (.sla c w) s s (s.regAddr w) r (fun t =>
      t.RatesResult r ∧ t.c = v.getLsbD (16 - n) ∧
      (t.ov = true ↔ ¬ signedFits 16 (v.toInt * 2 ^ n)))

/-- SRA, SRL and SRC over plain RAM (R222, R223, R224, R220, R225; decision D25, log 26): signed and
unsigned division by a power of two, rounded down, and rotation; the last bit shifted out in C. -/
def Obligations.ShiftRightDividesOrRotates : Prop :=
  ∀ (s : State) (c : BitVec 4) (w : Reg), s.AllRam →
    let n := s.shiftPlaces c
    let v := s.reg w
    let flags : Word → Status → Prop := fun r t => t.RatesResult r ∧ t.c = v.getLsbD (n - 1)
    let arithmetic := BitVec.ofInt 16 (v.toInt / 2 ^ n)
    let logical := BitVec.ofNat 16 (v.toNat / 2 ^ n)
    CompletesStoring (.sra c w) s s (s.regAddr w) arithmetic (flags arithmetic) ∧
    CompletesStoring (.srl c w) s s (s.regAddr w) logical (flags logical) ∧
    CompletesStoring (.src c w) s s (s.regAddr w) (v.rotateRight n) (flags (v.rotateRight n))

/-! ## Immediates, internal registers, return (spec/48_immediate_internal.md) -/

/-- AI, ANDI, ORI and LI over plain RAM (R230-R232, R234, R235; decision D10, log 17): the immediate is
the word after the instruction; the sum, the and, the or, or the immediate itself goes to the register,
with its flags. -/
def Obligations.ImmediateArithmetic : Prop :=
  ∀ (s : State) (w : Reg), s.AllRam →
    let u := s.withPc (s.pc + 2#16)
    let v := s.reg w
    let imm := s.wordAt s.pc
    CompletesStoring (.ai w) s u (s.regAddr w) (v + imm)
      (fun t => t.RatesResult (v + imm) ∧ t.RatesSum v imm) ∧
    CompletesStoring (.andi w) s u (s.regAddr w) (v &&& imm)
      (fun t => t.RatesResult (v &&& imm)) ∧
    CompletesStoring (.ori w) s u (s.regAddr w) (v ||| imm)
      (fun t => t.RatesResult (v ||| imm)) ∧
    CompletesStoring (.li w) s u (s.regAddr w) imm (fun t => t.RatesResult imm)

/-- LIMI, LWPI, STST and STWP over plain RAM (R236, R237, R238, R240; decisions D4, D22, D26, logs 13,
27, 38): the mask from the low four bits, WP made even, ST and WP stored into a register. -/
def Obligations.InternalRegistersLoadAndStore : Prop :=
  ∀ (s : State) (w : Reg), s.AllRam →
    let u := s.withPc (s.pc + 2#16)
    CompletesRating .limi s u (fun t => t.mask.toNat = (s.wordAt s.pc).toNat % 16) ∧
    exec .lwpi s = .next (u.withWp (s.wordAt s.pc &&& 0xFFFE#16)) ∧
    exec (.stst w) s = .next (s.storeWord (s.regAddr w) s.st.toWord) ∧
    exec (.stwp w) s = .next (s.storeWord (s.regAddr w) s.wp)

/-- RTWP over plain RAM (R239, R31; decisions D4, D22, logs 13, 38): ST, PC and WP from R15, R14 and R13
of the workspace in force, with ST's unused bits dropped and PC and WP made even. -/
def Obligations.ReturnRestoresFromRegisters : Prop :=
  ∀ s : State, s.AllRam →
    ∃ t, exec .rtwp s = .next t ∧ t.st.toWord = s.reg 15#4 &&& 0xFE0F#16 ∧
      t = ((s.withSt t.st).withPc (s.reg 14#4 &&& 0xFFFE#16)).withWp (s.reg 13#4 &&& 0xFFFE#16)

/-! ## External instructions (spec/49_external.md) -/

/-- IDLE, RSET, CKOF, CKON and LREX on any memory map (R250-R255; decisions D27, D28, logs 30, 31): each
emits its code; IDLE sets `idle`, RSET clears the mask, and nothing else changes. -/
def Obligations.ExternalInstructionsEmitTheirCodes : Prop :=
  ∀ s : State,
    exec .idle s = .next ((s.withEvents (.ext 0b010#3 :: s.events)).withIdle true) ∧
    exec .rset s =
      .next ((s.withEvents (.ext 0b011#3 :: s.events)).withSt { s.st with mask := 0#4 }) ∧
    exec .ckof s = .next (s.withEvents (.ext 0b110#3 :: s.events)) ∧
    exec .ckon s = .next (s.withEvents (.ext 0b101#3 :: s.events)) ∧
    exec .lrex s = .next (s.withEvents (.ext 0b111#3 :: s.events))

/-! ## The machine's step (spec/40_addressing.md section 3, spec/60_exceptions.md) -/

/-- R127, R128 (sampling is decision D17; log 28): with no request accepted, not idle and nothing kept, the step fetches the word at PC and
is the execution of the instruction it decodes to, with the sampling point used up, `inhibit` cleared
and PC past the word. -/
def Obligations.StepRunsTheDecodedInstruction : Prop :=
  ∀ (s t : State) (w : Word) (i : Instr), s.Undisturbed →
    readWord s.pc (s.takeSample.withInhibit false) = .next (w, t) →
    decode w = some i →
    step s = exec i (t.withPc (s.pc + 2#16)) ∧
    (s.kindAt s.pc = .ram ∨ s.kindAt s.pc = .rom →
      w = s.wordAt s.pc ∧ t = s.takeSample.withInhibit false)

/-- R127, R265, R271 (decisions D16, D17, D18; log 28): at one sampling point RESET goes before LOAD,
LOAD before the maskable request, which is taken only when `inhibit` is false and its level does not
exceed the mask. -/
def Obligations.RequestsAreTakenInOrder : Prop :=
  ∀ s : State, s.faulted = none → s.pendingX = none →
    let u := s.takeSample
    (s.sample.reset = true → step s = resetEnter u) ∧
    (s.sample.reset = false → s.sample.load = true → step s = loadEnter u) ∧
    (∀ l, s.sample.reset = false → s.sample.load = false → s.sample.int = some l →
      (s.inhibit = false → l.toNat ≤ s.st.mask.toNat → step s = interruptEnter l u) ∧
      (s.inhibit = true ∨ s.st.mask.toNat < l.toNat →
        step s = step (u.withSamples (Sample.quiet :: u.samples))))

/-- R273 over plain RAM (order and masking from general knowledge, decisions D4, D21; logs 13, 24): new WP
and PC from the vector, the old WP, PC and ST in the new R13, R14 and R15, every other byte and all
other state as before. -/
def Obligations.ContextSwitchSavesAndLoads : Prop :=
  ∀ (s : State) (v : Word), s.AllRam → s.mem.wf = true →
    ∃ t, contextSwitch v none s = .next t ∧ Switched v none s t ∧ t.st = s.st ∧
      t.idle = s.idle ∧ t.inhibit = s.inhibit

/-- R274, R275, R300 over plain RAM (decisions D16, D19, D20; logs 28, 29): what a step does that takes
RESET, LOAD or an accepted interrupt: vector, saved registers, new mask, both latches. -/
def Obligations.TrapEntriesSwitchThroughTheirVectors : Prop :=
  ∀ s : State, s.AllRam → s.mem.wf = true → s.faulted = none → s.pendingX = none →
    let u := s.takeSample
    let enters := fun (v : Word) (mask : Nat) => ∃ t, step s = .next t ∧ Switched v none u t ∧
      t.st = { s.st with mask := BitVec.ofNat 4 mask } ∧ t.idle = false ∧ t.inhibit = true
    (s.sample.reset = true → enters 0x0000#16 0) ∧
    (s.sample.reset = false → s.sample.load = true → enters 0xFFFC#16 0) ∧
    (∀ l, s.sample.reset = false → s.sample.load = false → s.sample.int = some l →
      s.inhibit = false → l.toNat ≤ s.st.mask.toNat →
      enters (BitVec.ofNat 16 (4 * l.toNat)) (l.toNat - 1))

/-- R250, R127 (decision D27; log 30): while idle, with no request that is taken, a step fetches nothing,
emits IDLE's code again and changes nothing else; a request above the mask does not end it. -/
def Obligations.IdleWaitsForARequest : Prop :=
  ∀ s : State, s.faulted = none → s.pendingX = none → s.idle = true → s.sample.reset = false →
    s.sample.load = false →
    (∀ l, s.sample.int = some l → s.inhibit = true ∨ s.st.mask.toNat < l.toNat) →
    step s = .next (s.takeSample.withEvents (.ext 0b010#3 :: s.events))

/-- R260 (from general knowledge; log 42): where every address is RAM or a device, every instruction but
X completes, and X completes or meets an unassigned word. That X completes on a chain of more than
sixteen X words, one that refers to itself and by R174 is a hang included, is no rule of the spec but
the model's own choice (DESIGN CHOICE, log 22): the step ends there, the chain goes on in the next. -/
def Obligations.NoInstructionFails : Prop :=
  ∀ (i : Instr) (s : State), (∀ a, s.kindAt a = .ram ∨ s.kindAt a = .device) →
    (i.isExecute = false → ∃ t, exec i s = .next t) ∧
    (i.isExecute = true →
      (∃ t, exec i s = .next t) ∨ ∃ w, decode w = none ∧ exec i s = .fault (.illegalOpcode w))

/-- R279, R277 (logs 24, 25, 28, 29): over plain RAM, RTWP right after BLWP, after XOP or after the entry of
an interrupt, of LOAD or of RESET gives back the old WP and ST whole, the mask and X included, and the PC that was saved. -/
def Obligations.ReturnUndoesEverySwitch : Prop :=
  ∀ s : State, s.AllRam → s.Inv →
    (∀ p, ∃ t r, exec (.blwp p) s = .next t ∧ exec .rtwp t = .next r ∧ r.wp = s.wp ∧
      r.st = s.st ∧ r.pc = s.pc + 2#16 * BitVec.ofNat 16 p.extWords) ∧
    (∀ p n, ∃ t r, exec (.xop p n) s = .next t ∧ exec .rtwp t = .next r ∧ r.wp = s.wp ∧
      r.st = s.st ∧ r.pc = s.pc + 2#16 * BitVec.ofNat 16 p.extWords) ∧
    (∀ l, ∃ t r, interruptEnter l s = .next t ∧ exec .rtwp t = .next r ∧ r.wp = s.wp ∧
      r.st = s.st ∧ r.pc = s.pc) ∧
    (∃ t r, loadEnter s = .next t ∧ exec .rtwp t = .next r ∧ r.wp = s.wp ∧ r.st = s.st ∧
      r.pc = s.pc) ∧
    (∃ t r, resetEnter s = .next t ∧ exec .rtwp t = .next r ∧ r.wp = s.wp ∧ r.st = s.st ∧
      r.pc = s.pc)

/-! ## Frames, on any memory map -/

/-- What the instructions with two general operands that store leave alone: every byte outside the
auto-increment registers and the stored word or byte, whose address is the one `dualFetch` gives the
meaning; every flag not listed (logs 16, 17); everything `Frame` names. -/
def Obligations.FrameOfTwoOperandStores : Prop :=
  ∀ (s t u : State) (p q : Operand) (i : Instr),
    (∀ o, i ∈ [.a p q, .s p q, .soc p q, .szc p q, .mov p q] → dualFetch p q s = .next (o, u) →
      exec i s = .next t →
      FlagsKept i s t ∧
      Frame (fun c => autoBytes p s c ∨ autoBytes q s c ∨ wordBytes o.dst.addr c) s t) ∧
    (∀ o, i ∈ [.ab p q, .sb p q, .socb p q, .szcb p q, .movb p q] →
      dualFetchByte p q s = .next (o, u) → exec i s = .next t →
      FlagsKept i s t ∧
      Frame (fun c => autoBytes p s c ∨ autoBytes q s c ∨ c = o.dst.addr) s t)

/-- What the instructions that store nothing leave alone: all of memory but auto-increment registers. -/
def Obligations.FrameOfInstructionsThatStoreNothing : Prop :=
  ∀ (s t : State) (p q : Operand) (r : Reg) (n : BitVec 4) (d : BitVec 8) (i : Instr),
    exec i s = .next t →
    (i ∈ [.c p q, .cb p q] →
      FlagsKept i s t ∧ Frame (fun c => autoBytes p s c ∨ autoBytes q s c) s t) ∧
    (i ∈ [.coc p r, .czc p r, .ldcr p n, .b p] → FlagsKept i s t ∧ Frame (autoBytes p s) s t) ∧
    (i ∈ [.ci r, .sbo d, .sbz d, .jmp d, .jlt d, .jle d, .jeq d, .jhe d, .jgt d, .jne d, .jnc d,
        .joc d, .jno d, .jl d, .jh d, .jop d, .ckof, .ckon, .lrex] →
      FlagsKept i s t ∧ Frame (fun _ => False) s t)

/-- What the instructions that rewrite their one general operand leave alone, and BL: every byte outside
an auto-increment register and the operand's word, at the address `fetchWord` gives the meaning, or
R11; ABS of an operand that is not negative stores nothing. -/
def Obligations.FrameOfOneOperandInstructions : Prop :=
  ∀ (s t u : State) (p : Operand) (i : Instr) (o : WordOp), fetchWord p s = .next (o, u) →
    exec i s = .next t →
    (i ∈ [.clr p, .seto p, .inv p, .neg p, .swpb p, .inc p, .inct p, .dec p, .dect p, .abs p] →
      FlagsKept i s t ∧ Frame (fun c => autoBytes p s c ∨ wordBytes o.addr c) s t) ∧
    (i = .abs p → o.value.msb = false → Frame (autoBytes p s) s t) ∧
    (i = .bl p →
      FlagsKept i s t ∧ Frame (fun c => autoBytes p s c ∨ wordBytes (s.regAddr 11#4) c) s t)

/-- What the instructions with a register destination leave alone: every byte outside that register, the
second word of the pair (MPY and DIV), and an auto-increment register; a DIV that overflows stores
nothing. -/
def Obligations.FrameOfRegisterDestinations : Prop :=
  ∀ (s t : State) (p : Operand) (r : Reg) (n : BitVec 4) (i : Instr), exec i s = .next t →
    (i ∈ [.li r, .ai r, .andi r, .ori r, .stst r, .stwp r, .sra n r, .srl n r, .sla n r, .src n r] →
      FlagsKept i s t ∧ Frame (wordBytes (s.regAddr r)) s t) ∧
    (i = .xor p r →
      FlagsKept i s t ∧ Frame (fun c => autoBytes p s c ∨ wordBytes (s.regAddr r) c) s t) ∧
    (i ∈ [.mpy p r, .div p r] →
      FlagsKept i s t ∧ Frame (fun c => autoBytes p s c ∨ wordBytes (s.regAddr r) c ∨
        wordBytes (s.pairAddr r) c) s t) ∧
    (∀ o u, i = .div p r → regFetch p r s = .next (o, u) → o.src.toNat ≤ o.reg.toNat →
      Frame (autoBytes p s) s t)

/-- What BLWP, XOP and the trap entries leave alone: every byte outside an auto-increment register and
the new R13, R14, R15 (and R11 for XOP), at the workspace the vector's first word gives; every flag,
but X set by XOP and the mask by a trap. -/
def Obligations.FrameOfContextSwitches : Prop :=
  ∀ (s t u : State) (p : Operand),
    (∀ a w x, resolve p .word s = .next (a, u) → readWord a u = .next (w, x) →
      exec (.blwp p) s = .next t →
      Frame (fun c => autoBytes p s c ∨ wordBytes (evenAddr w + 26#16) c ∨
        wordBytes (evenAddr w + 28#16) c ∨ wordBytes (evenAddr w + 30#16) c)
        ((s.withWp t.wp).withInhibit true) t ∧ t.st = s.st) ∧
    (∀ o n w x, fetchWord p s = .next (o, u) →
      readWord (BitVec.ofNat 16 (0x0040 + 4 * n.toNat)) u = .next (w, x) →
      exec (.xop p n) s = .next t →
      Frame (fun c => autoBytes p s c ∨ wordBytes (evenAddr w + 22#16) c ∨
        wordBytes (evenAddr w + 26#16) c ∨ wordBytes (evenAddr w + 28#16) c ∨
        wordBytes (evenAddr w + 30#16) c)
        (((s.withWp t.wp).withInhibit true).withSt { s.st with x := true }) t ∧
      t.st = { s.st with x := true }) ∧
    (∀ v m w x, readWord v s = .next (w, x) → trapEnter v m s = .next t →
      Frame (fun c => wordBytes (evenAddr w + 26#16) c ∨ wordBytes (evenAddr w + 28#16) c ∨
        wordBytes (evenAddr w + 30#16) c)
        ((((s.withWp t.wp).withInhibit true).withIdle false).withSt { s.st with mask := m }) t ∧
      t.st = { s.st with mask := m })

/-- What the instructions on WP, ST, the idle latch and the CRU inputs leave alone: all of memory (STCR:
all but its destination and an auto-increment register), and all state but the one they write. -/
def Obligations.FrameOfInternalAndCruWrites : Prop :=
  ∀ (s t u : State) (p : Operand) (n : BitVec 4) (d : BitVec 8),
    (exec .lwpi s = .next t → t.st = s.st ∧ Frame (fun _ => False) (s.withWp t.wp) t) ∧
    (exec .limi s = .next t → FlagsKept .limi s t ∧ Frame (fun _ => False) (s.withSt t.st) t) ∧
    (exec .rset s = .next t → FlagsKept .rset s t ∧ Frame (fun _ => False) (s.withSt t.st) t) ∧
    (exec .rtwp s = .next t → Frame (fun _ => False) ((s.withSt t.st).withWp t.wp) t) ∧
    (exec .idle s = .next t → t.st = s.st ∧ Frame (fun _ => False) (s.withIdle true) t) ∧
    (exec (.tb d) s = .next t →
      FlagsKept (.tb d) s t ∧ Frame (fun _ => False) (s.withCruInputs t.cruInputs) t) ∧
    (∀ o, transferCount n ≤ 8 → fetchByte p s = .next (o, u) → exec (.stcr p n) s = .next t →
      FlagsKept (.stcr p n) s t ∧
      Frame (fun c => autoBytes p s c ∨ c = o.addr) (s.withCruInputs t.cruInputs) t) ∧
    (∀ o, 8 < transferCount n → fetchWord p s = .next (o, u) → exec (.stcr p n) s = .next t →
      FlagsKept (.stcr p n) s t ∧
      Frame (fun c => autoBytes p s c ∨ wordBytes o.addr c) (s.withCruInputs t.cruInputs) t)

/-! ## Invariant and reset -/

/-- Every step keeps PC and WP even (R21, R22) and memory in its canonical form, on any memory map and
whatever is requested. -/
def Obligations.EveryStepKeepsInvariant : Prop :=
  ∀ s t : State, s.Inv → step s = .next t → t.Inv

/-- The state after reset meets the invariant. -/
def Obligations.InvariantHoldsAtReset : Prop := State.reset.Inv

/-- R46 (decision D19; log 2 for the vector's contents, which this does not rest on): what RESET leaves,
as far as the spec gives it; and, by the model's own choice, an empty record of events, the three stores of
the power-up sequence not in it (logs 4, 44, no rule of the spec). -/
def Obligations.ResetLeavesTheSpecifiedState : Prop :=
  State.reset.wp = State.reset.wordAt 0x0000#16 &&& 0xFFFE#16 ∧
  State.reset.pc = State.reset.wordAt 0x0002#16 &&& 0xFFFE#16 ∧
  State.reset.st.mask = 0#4 ∧ State.reset.st.toWord &&& 0x01F0#16 = 0#16 ∧
  State.reset.idle = false ∧ State.reset.inhibit = true ∧ State.reset.faulted = none ∧
  State.reset.events = []

/-! ## The end of a run -/

/-- The end of a run (R6, decision D32; log 35, the model's choice of the parameter `EndOfRun`): where it
holds, the next step raises a model fault, or it leaves the CPU where it stands, with PC, WP, ST, memory
and the idle latch as they were and the end of the run still holding. -/
def Obligations.EndOfRunLasts : Prop :=
  ∀ s : State, s.Inv → s.endOfRun = true →
    (∃ f, step s = .fault f) ∨
    ∃ t, step s = .next t ∧ t.endOfRun = true ∧ t.pc = s.pc ∧ t.wp = s.wp ∧ t.st = s.st ∧
      t.mem = s.mem ∧ t.idle = s.idle
end

