-- ==== Sys2Proof/Laws/State.lean ====
section
/-! SUPPORT. One lemma per field per update of State, true by rfl, so that no later proof unfolds a
record update. -/

namespace Sys2Proof.Machine

@[simp] theorem State.withPc_pc (s : State) (v : Word) : (s.withPc v).pc = v := rfl
@[simp] theorem State.withPc_wp (s : State) (v : Word) : (s.withPc v).wp = s.wp := rfl
@[simp] theorem State.withPc_st (s : State) (v : Word) : (s.withPc v).st = s.st := rfl
@[simp] theorem State.withPc_mem (s : State) (v : Word) : (s.withPc v).mem = s.mem := rfl
@[simp] theorem State.withPc_idle (s : State) (v : Word) : (s.withPc v).idle = s.idle := rfl
@[simp] theorem State.withPc_inhibit (s : State) (v : Word) : (s.withPc v).inhibit = s.inhibit := rfl
@[simp] theorem State.withPc_faulted (s : State) (v : Word) : (s.withPc v).faulted = s.faulted := rfl
@[simp] theorem State.withPc_pendingX (s : State) (v : Word) : (s.withPc v).pendingX = s.pendingX := rfl
@[simp] theorem State.withPc_regions (s : State) (v : Word) : (s.withPc v).regions = s.regions := rfl
@[simp] theorem State.withPc_samples (s : State) (v : Word) : (s.withPc v).samples = s.samples := rfl
@[simp] theorem State.withPc_requestsEnd (s : State) (v : Word) : (s.withPc v).requestsEnd = s.requestsEnd := rfl
@[simp] theorem State.withPc_cruInputs (s : State) (v : Word) : (s.withPc v).cruInputs = s.cruInputs := rfl
@[simp] theorem State.withPc_draws (s : State) (v : Word) : (s.withPc v).draws = s.draws := rfl
@[simp] theorem State.withPc_events (s : State) (v : Word) : (s.withPc v).events = s.events := rfl

@[simp] theorem State.withWp_pc (s : State) (v : Word) : (s.withWp v).pc = s.pc := rfl
@[simp] theorem State.withWp_wp (s : State) (v : Word) : (s.withWp v).wp = v := rfl
@[simp] theorem State.withWp_st (s : State) (v : Word) : (s.withWp v).st = s.st := rfl
@[simp] theorem State.withWp_mem (s : State) (v : Word) : (s.withWp v).mem = s.mem := rfl
@[simp] theorem State.withWp_idle (s : State) (v : Word) : (s.withWp v).idle = s.idle := rfl
@[simp] theorem State.withWp_inhibit (s : State) (v : Word) : (s.withWp v).inhibit = s.inhibit := rfl
@[simp] theorem State.withWp_faulted (s : State) (v : Word) : (s.withWp v).faulted = s.faulted := rfl
@[simp] theorem State.withWp_pendingX (s : State) (v : Word) : (s.withWp v).pendingX = s.pendingX := rfl
@[simp] theorem State.withWp_regions (s : State) (v : Word) : (s.withWp v).regions = s.regions := rfl
@[simp] theorem State.withWp_samples (s : State) (v : Word) : (s.withWp v).samples = s.samples := rfl
@[simp] theorem State.withWp_requestsEnd (s : State) (v : Word) : (s.withWp v).requestsEnd = s.requestsEnd := rfl
@[simp] theorem State.withWp_cruInputs (s : State) (v : Word) : (s.withWp v).cruInputs = s.cruInputs := rfl
@[simp] theorem State.withWp_draws (s : State) (v : Word) : (s.withWp v).draws = s.draws := rfl
@[simp] theorem State.withWp_events (s : State) (v : Word) : (s.withWp v).events = s.events := rfl

@[simp] theorem State.withSt_pc (s : State) (v : Status) : (s.withSt v).pc = s.pc := rfl
@[simp] theorem State.withSt_wp (s : State) (v : Status) : (s.withSt v).wp = s.wp := rfl
@[simp] theorem State.withSt_st (s : State) (v : Status) : (s.withSt v).st = v := rfl
@[simp] theorem State.withSt_mem (s : State) (v : Status) : (s.withSt v).mem = s.mem := rfl
@[simp] theorem State.withSt_idle (s : State) (v : Status) : (s.withSt v).idle = s.idle := rfl
@[simp] theorem State.withSt_inhibit (s : State) (v : Status) : (s.withSt v).inhibit = s.inhibit := rfl
@[simp] theorem State.withSt_faulted (s : State) (v : Status) : (s.withSt v).faulted = s.faulted := rfl
@[simp] theorem State.withSt_pendingX (s : State) (v : Status) : (s.withSt v).pendingX = s.pendingX := rfl
@[simp] theorem State.withSt_regions (s : State) (v : Status) : (s.withSt v).regions = s.regions := rfl
@[simp] theorem State.withSt_samples (s : State) (v : Status) : (s.withSt v).samples = s.samples := rfl
@[simp] theorem State.withSt_requestsEnd (s : State) (v : Status) : (s.withSt v).requestsEnd = s.requestsEnd := rfl
@[simp] theorem State.withSt_cruInputs (s : State) (v : Status) : (s.withSt v).cruInputs = s.cruInputs := rfl
@[simp] theorem State.withSt_draws (s : State) (v : Status) : (s.withSt v).draws = s.draws := rfl
@[simp] theorem State.withSt_events (s : State) (v : Status) : (s.withSt v).events = s.events := rfl

@[simp] theorem State.withMem_pc (s : State) (v : Memory) : (s.withMem v).pc = s.pc := rfl
@[simp] theorem State.withMem_wp (s : State) (v : Memory) : (s.withMem v).wp = s.wp := rfl
@[simp] theorem State.withMem_st (s : State) (v : Memory) : (s.withMem v).st = s.st := rfl
@[simp] theorem State.withMem_mem (s : State) (v : Memory) : (s.withMem v).mem = v := rfl
@[simp] theorem State.withMem_idle (s : State) (v : Memory) : (s.withMem v).idle = s.idle := rfl
@[simp] theorem State.withMem_inhibit (s : State) (v : Memory) : (s.withMem v).inhibit = s.inhibit := rfl
@[simp] theorem State.withMem_faulted (s : State) (v : Memory) : (s.withMem v).faulted = s.faulted := rfl
@[simp] theorem State.withMem_pendingX (s : State) (v : Memory) : (s.withMem v).pendingX = s.pendingX := rfl
@[simp] theorem State.withMem_regions (s : State) (v : Memory) : (s.withMem v).regions = s.regions := rfl
@[simp] theorem State.withMem_samples (s : State) (v : Memory) : (s.withMem v).samples = s.samples := rfl
@[simp] theorem State.withMem_requestsEnd (s : State) (v : Memory) : (s.withMem v).requestsEnd = s.requestsEnd := rfl
@[simp] theorem State.withMem_cruInputs (s : State) (v : Memory) : (s.withMem v).cruInputs = s.cruInputs := rfl
@[simp] theorem State.withMem_draws (s : State) (v : Memory) : (s.withMem v).draws = s.draws := rfl
@[simp] theorem State.withMem_events (s : State) (v : Memory) : (s.withMem v).events = s.events := rfl

@[simp] theorem State.withIdle_pc (s : State) (v : Bool) : (s.withIdle v).pc = s.pc := rfl
@[simp] theorem State.withIdle_wp (s : State) (v : Bool) : (s.withIdle v).wp = s.wp := rfl
@[simp] theorem State.withIdle_st (s : State) (v : Bool) : (s.withIdle v).st = s.st := rfl
@[simp] theorem State.withIdle_mem (s : State) (v : Bool) : (s.withIdle v).mem = s.mem := rfl
@[simp] theorem State.withIdle_idle (s : State) (v : Bool) : (s.withIdle v).idle = v := rfl
@[simp] theorem State.withIdle_inhibit (s : State) (v : Bool) : (s.withIdle v).inhibit = s.inhibit := rfl
@[simp] theorem State.withIdle_faulted (s : State) (v : Bool) : (s.withIdle v).faulted = s.faulted := rfl
@[simp] theorem State.withIdle_pendingX (s : State) (v : Bool) : (s.withIdle v).pendingX = s.pendingX := rfl
@[simp] theorem State.withIdle_regions (s : State) (v : Bool) : (s.withIdle v).regions = s.regions := rfl
@[simp] theorem State.withIdle_samples (s : State) (v : Bool) : (s.withIdle v).samples = s.samples := rfl
@[simp] theorem State.withIdle_requestsEnd (s : State) (v : Bool) : (s.withIdle v).requestsEnd = s.requestsEnd := rfl
@[simp] theorem State.withIdle_cruInputs (s : State) (v : Bool) : (s.withIdle v).cruInputs = s.cruInputs := rfl
@[simp] theorem State.withIdle_draws (s : State) (v : Bool) : (s.withIdle v).draws = s.draws := rfl
@[simp] theorem State.withIdle_events (s : State) (v : Bool) : (s.withIdle v).events = s.events := rfl

@[simp] theorem State.withInhibit_pc (s : State) (v : Bool) : (s.withInhibit v).pc = s.pc := rfl
@[simp] theorem State.withInhibit_wp (s : State) (v : Bool) : (s.withInhibit v).wp = s.wp := rfl
@[simp] theorem State.withInhibit_st (s : State) (v : Bool) : (s.withInhibit v).st = s.st := rfl
@[simp] theorem State.withInhibit_mem (s : State) (v : Bool) : (s.withInhibit v).mem = s.mem := rfl
@[simp] theorem State.withInhibit_idle (s : State) (v : Bool) : (s.withInhibit v).idle = s.idle := rfl
@[simp] theorem State.withInhibit_inhibit (s : State) (v : Bool) : (s.withInhibit v).inhibit = v := rfl
@[simp] theorem State.withInhibit_faulted (s : State) (v : Bool) : (s.withInhibit v).faulted = s.faulted := rfl
@[simp] theorem State.withInhibit_pendingX (s : State) (v : Bool) : (s.withInhibit v).pendingX = s.pendingX := rfl
@[simp] theorem State.withInhibit_regions (s : State) (v : Bool) : (s.withInhibit v).regions = s.regions := rfl
@[simp] theorem State.withInhibit_samples (s : State) (v : Bool) : (s.withInhibit v).samples = s.samples := rfl
@[simp] theorem State.withInhibit_requestsEnd (s : State) (v : Bool) : (s.withInhibit v).requestsEnd = s.requestsEnd := rfl
@[simp] theorem State.withInhibit_cruInputs (s : State) (v : Bool) : (s.withInhibit v).cruInputs = s.cruInputs := rfl
@[simp] theorem State.withInhibit_draws (s : State) (v : Bool) : (s.withInhibit v).draws = s.draws := rfl
@[simp] theorem State.withInhibit_events (s : State) (v : Bool) : (s.withInhibit v).events = s.events := rfl

@[simp] theorem State.withFaulted_pc (s : State) (v : Option Fault) : (s.withFaulted v).pc = s.pc := rfl
@[simp] theorem State.withFaulted_wp (s : State) (v : Option Fault) : (s.withFaulted v).wp = s.wp := rfl
@[simp] theorem State.withFaulted_st (s : State) (v : Option Fault) : (s.withFaulted v).st = s.st := rfl
@[simp] theorem State.withFaulted_mem (s : State) (v : Option Fault) : (s.withFaulted v).mem = s.mem := rfl
@[simp] theorem State.withFaulted_idle (s : State) (v : Option Fault) : (s.withFaulted v).idle = s.idle := rfl
@[simp] theorem State.withFaulted_inhibit (s : State) (v : Option Fault) : (s.withFaulted v).inhibit = s.inhibit := rfl
@[simp] theorem State.withFaulted_faulted (s : State) (v : Option Fault) : (s.withFaulted v).faulted = v := rfl
@[simp] theorem State.withFaulted_pendingX (s : State) (v : Option Fault) : (s.withFaulted v).pendingX = s.pendingX := rfl
@[simp] theorem State.withFaulted_regions (s : State) (v : Option Fault) : (s.withFaulted v).regions = s.regions := rfl
@[simp] theorem State.withFaulted_samples (s : State) (v : Option Fault) : (s.withFaulted v).samples = s.samples := rfl
@[simp] theorem State.withFaulted_requestsEnd (s : State) (v : Option Fault) : (s.withFaulted v).requestsEnd = s.requestsEnd := rfl
@[simp] theorem State.withFaulted_cruInputs (s : State) (v : Option Fault) : (s.withFaulted v).cruInputs = s.cruInputs := rfl
@[simp] theorem State.withFaulted_draws (s : State) (v : Option Fault) : (s.withFaulted v).draws = s.draws := rfl
@[simp] theorem State.withFaulted_events (s : State) (v : Option Fault) : (s.withFaulted v).events = s.events := rfl

@[simp] theorem State.withPendingX_pc (s : State) (v : Option Word) : (s.withPendingX v).pc = s.pc := rfl
@[simp] theorem State.withPendingX_wp (s : State) (v : Option Word) : (s.withPendingX v).wp = s.wp := rfl
@[simp] theorem State.withPendingX_st (s : State) (v : Option Word) : (s.withPendingX v).st = s.st := rfl
@[simp] theorem State.withPendingX_mem (s : State) (v : Option Word) : (s.withPendingX v).mem = s.mem := rfl
@[simp] theorem State.withPendingX_idle (s : State) (v : Option Word) : (s.withPendingX v).idle = s.idle := rfl
@[simp] theorem State.withPendingX_inhibit (s : State) (v : Option Word) : (s.withPendingX v).inhibit = s.inhibit := rfl
@[simp] theorem State.withPendingX_faulted (s : State) (v : Option Word) : (s.withPendingX v).faulted = s.faulted := rfl
@[simp] theorem State.withPendingX_pendingX (s : State) (v : Option Word) : (s.withPendingX v).pendingX = v := rfl
@[simp] theorem State.withPendingX_regions (s : State) (v : Option Word) : (s.withPendingX v).regions = s.regions := rfl
@[simp] theorem State.withPendingX_samples (s : State) (v : Option Word) : (s.withPendingX v).samples = s.samples := rfl
@[simp] theorem State.withPendingX_requestsEnd (s : State) (v : Option Word) : (s.withPendingX v).requestsEnd = s.requestsEnd := rfl
@[simp] theorem State.withPendingX_cruInputs (s : State) (v : Option Word) : (s.withPendingX v).cruInputs = s.cruInputs := rfl
@[simp] theorem State.withPendingX_draws (s : State) (v : Option Word) : (s.withPendingX v).draws = s.draws := rfl
@[simp] theorem State.withPendingX_events (s : State) (v : Option Word) : (s.withPendingX v).events = s.events := rfl

@[simp] theorem State.withRegions_pc (s : State) (v : List Region) : (s.withRegions v).pc = s.pc := rfl
@[simp] theorem State.withRegions_wp (s : State) (v : List Region) : (s.withRegions v).wp = s.wp := rfl
@[simp] theorem State.withRegions_st (s : State) (v : List Region) : (s.withRegions v).st = s.st := rfl
@[simp] theorem State.withRegions_mem (s : State) (v : List Region) : (s.withRegions v).mem = s.mem := rfl
@[simp] theorem State.withRegions_idle (s : State) (v : List Region) : (s.withRegions v).idle = s.idle := rfl
@[simp] theorem State.withRegions_inhibit (s : State) (v : List Region) : (s.withRegions v).inhibit = s.inhibit := rfl
@[simp] theorem State.withRegions_faulted (s : State) (v : List Region) : (s.withRegions v).faulted = s.faulted := rfl
@[simp] theorem State.withRegions_pendingX (s : State) (v : List Region) : (s.withRegions v).pendingX = s.pendingX := rfl
@[simp] theorem State.withRegions_regions (s : State) (v : List Region) : (s.withRegions v).regions = v := rfl
@[simp] theorem State.withRegions_samples (s : State) (v : List Region) : (s.withRegions v).samples = s.samples := rfl
@[simp] theorem State.withRegions_requestsEnd (s : State) (v : List Region) : (s.withRegions v).requestsEnd = s.requestsEnd := rfl
@[simp] theorem State.withRegions_cruInputs (s : State) (v : List Region) : (s.withRegions v).cruInputs = s.cruInputs := rfl
@[simp] theorem State.withRegions_draws (s : State) (v : List Region) : (s.withRegions v).draws = s.draws := rfl
@[simp] theorem State.withRegions_events (s : State) (v : List Region) : (s.withRegions v).events = s.events := rfl

@[simp] theorem State.withSamples_pc (s : State) (v : List Sample) : (s.withSamples v).pc = s.pc := rfl
@[simp] theorem State.withSamples_wp (s : State) (v : List Sample) : (s.withSamples v).wp = s.wp := rfl
@[simp] theorem State.withSamples_st (s : State) (v : List Sample) : (s.withSamples v).st = s.st := rfl
@[simp] theorem State.withSamples_mem (s : State) (v : List Sample) : (s.withSamples v).mem = s.mem := rfl
@[simp] theorem State.withSamples_idle (s : State) (v : List Sample) : (s.withSamples v).idle = s.idle := rfl
@[simp] theorem State.withSamples_inhibit (s : State) (v : List Sample) : (s.withSamples v).inhibit = s.inhibit := rfl
@[simp] theorem State.withSamples_faulted (s : State) (v : List Sample) : (s.withSamples v).faulted = s.faulted := rfl
@[simp] theorem State.withSamples_pendingX (s : State) (v : List Sample) : (s.withSamples v).pendingX = s.pendingX := rfl
@[simp] theorem State.withSamples_regions (s : State) (v : List Sample) : (s.withSamples v).regions = s.regions := rfl
@[simp] theorem State.withSamples_samples (s : State) (v : List Sample) : (s.withSamples v).samples = v := rfl
@[simp] theorem State.withSamples_requestsEnd (s : State) (v : List Sample) : (s.withSamples v).requestsEnd = s.requestsEnd := rfl
@[simp] theorem State.withSamples_cruInputs (s : State) (v : List Sample) : (s.withSamples v).cruInputs = s.cruInputs := rfl
@[simp] theorem State.withSamples_draws (s : State) (v : List Sample) : (s.withSamples v).draws = s.draws := rfl
@[simp] theorem State.withSamples_events (s : State) (v : List Sample) : (s.withSamples v).events = s.events := rfl

@[simp] theorem State.withRequestsEnd_pc (s : State) (v : Bool) : (s.withRequestsEnd v).pc = s.pc := rfl
@[simp] theorem State.withRequestsEnd_wp (s : State) (v : Bool) : (s.withRequestsEnd v).wp = s.wp := rfl
@[simp] theorem State.withRequestsEnd_st (s : State) (v : Bool) : (s.withRequestsEnd v).st = s.st := rfl
@[simp] theorem State.withRequestsEnd_mem (s : State) (v : Bool) : (s.withRequestsEnd v).mem = s.mem := rfl
@[simp] theorem State.withRequestsEnd_idle (s : State) (v : Bool) : (s.withRequestsEnd v).idle = s.idle := rfl
@[simp] theorem State.withRequestsEnd_inhibit (s : State) (v : Bool) : (s.withRequestsEnd v).inhibit = s.inhibit := rfl
@[simp] theorem State.withRequestsEnd_faulted (s : State) (v : Bool) : (s.withRequestsEnd v).faulted = s.faulted := rfl
@[simp] theorem State.withRequestsEnd_pendingX (s : State) (v : Bool) : (s.withRequestsEnd v).pendingX = s.pendingX := rfl
@[simp] theorem State.withRequestsEnd_regions (s : State) (v : Bool) : (s.withRequestsEnd v).regions = s.regions := rfl
@[simp] theorem State.withRequestsEnd_samples (s : State) (v : Bool) : (s.withRequestsEnd v).samples = s.samples := rfl
@[simp] theorem State.withRequestsEnd_requestsEnd (s : State) (v : Bool) : (s.withRequestsEnd v).requestsEnd = v := rfl
@[simp] theorem State.withRequestsEnd_cruInputs (s : State) (v : Bool) : (s.withRequestsEnd v).cruInputs = s.cruInputs := rfl
@[simp] theorem State.withRequestsEnd_draws (s : State) (v : Bool) : (s.withRequestsEnd v).draws = s.draws := rfl
@[simp] theorem State.withRequestsEnd_events (s : State) (v : Bool) : (s.withRequestsEnd v).events = s.events := rfl

@[simp] theorem State.withCruInputs_pc (s : State) (v : List Bool) : (s.withCruInputs v).pc = s.pc := rfl
@[simp] theorem State.withCruInputs_wp (s : State) (v : List Bool) : (s.withCruInputs v).wp = s.wp := rfl
@[simp] theorem State.withCruInputs_st (s : State) (v : List Bool) : (s.withCruInputs v).st = s.st := rfl
@[simp] theorem State.withCruInputs_mem (s : State) (v : List Bool) : (s.withCruInputs v).mem = s.mem := rfl
@[simp] theorem State.withCruInputs_idle (s : State) (v : List Bool) : (s.withCruInputs v).idle = s.idle := rfl
@[simp] theorem State.withCruInputs_inhibit (s : State) (v : List Bool) : (s.withCruInputs v).inhibit = s.inhibit := rfl
@[simp] theorem State.withCruInputs_faulted (s : State) (v : List Bool) : (s.withCruInputs v).faulted = s.faulted := rfl
@[simp] theorem State.withCruInputs_pendingX (s : State) (v : List Bool) : (s.withCruInputs v).pendingX = s.pendingX := rfl
@[simp] theorem State.withCruInputs_regions (s : State) (v : List Bool) : (s.withCruInputs v).regions = s.regions := rfl
@[simp] theorem State.withCruInputs_samples (s : State) (v : List Bool) : (s.withCruInputs v).samples = s.samples := rfl
@[simp] theorem State.withCruInputs_requestsEnd (s : State) (v : List Bool) : (s.withCruInputs v).requestsEnd = s.requestsEnd := rfl
@[simp] theorem State.withCruInputs_cruInputs (s : State) (v : List Bool) : (s.withCruInputs v).cruInputs = v := rfl
@[simp] theorem State.withCruInputs_draws (s : State) (v : List Bool) : (s.withCruInputs v).draws = s.draws := rfl
@[simp] theorem State.withCruInputs_events (s : State) (v : List Bool) : (s.withCruInputs v).events = s.events := rfl

@[simp] theorem State.withDraws_pc (s : State) (v : Nat) : (s.withDraws v).pc = s.pc := rfl
@[simp] theorem State.withDraws_wp (s : State) (v : Nat) : (s.withDraws v).wp = s.wp := rfl
@[simp] theorem State.withDraws_st (s : State) (v : Nat) : (s.withDraws v).st = s.st := rfl
@[simp] theorem State.withDraws_mem (s : State) (v : Nat) : (s.withDraws v).mem = s.mem := rfl
@[simp] theorem State.withDraws_idle (s : State) (v : Nat) : (s.withDraws v).idle = s.idle := rfl
@[simp] theorem State.withDraws_inhibit (s : State) (v : Nat) : (s.withDraws v).inhibit = s.inhibit := rfl
@[simp] theorem State.withDraws_faulted (s : State) (v : Nat) : (s.withDraws v).faulted = s.faulted := rfl
@[simp] theorem State.withDraws_pendingX (s : State) (v : Nat) : (s.withDraws v).pendingX = s.pendingX := rfl
@[simp] theorem State.withDraws_regions (s : State) (v : Nat) : (s.withDraws v).regions = s.regions := rfl
@[simp] theorem State.withDraws_samples (s : State) (v : Nat) : (s.withDraws v).samples = s.samples := rfl
@[simp] theorem State.withDraws_requestsEnd (s : State) (v : Nat) : (s.withDraws v).requestsEnd = s.requestsEnd := rfl
@[simp] theorem State.withDraws_cruInputs (s : State) (v : Nat) : (s.withDraws v).cruInputs = s.cruInputs := rfl
@[simp] theorem State.withDraws_draws (s : State) (v : Nat) : (s.withDraws v).draws = v := rfl
@[simp] theorem State.withDraws_events (s : State) (v : Nat) : (s.withDraws v).events = s.events := rfl

@[simp] theorem State.withEvents_pc (s : State) (v : List Event) : (s.withEvents v).pc = s.pc := rfl
@[simp] theorem State.withEvents_wp (s : State) (v : List Event) : (s.withEvents v).wp = s.wp := rfl
@[simp] theorem State.withEvents_st (s : State) (v : List Event) : (s.withEvents v).st = s.st := rfl
@[simp] theorem State.withEvents_mem (s : State) (v : List Event) : (s.withEvents v).mem = s.mem := rfl
@[simp] theorem State.withEvents_idle (s : State) (v : List Event) : (s.withEvents v).idle = s.idle := rfl
@[simp] theorem State.withEvents_inhibit (s : State) (v : List Event) : (s.withEvents v).inhibit = s.inhibit := rfl
@[simp] theorem State.withEvents_faulted (s : State) (v : List Event) : (s.withEvents v).faulted = s.faulted := rfl
@[simp] theorem State.withEvents_pendingX (s : State) (v : List Event) : (s.withEvents v).pendingX = s.pendingX := rfl
@[simp] theorem State.withEvents_regions (s : State) (v : List Event) : (s.withEvents v).regions = s.regions := rfl
@[simp] theorem State.withEvents_samples (s : State) (v : List Event) : (s.withEvents v).samples = s.samples := rfl
@[simp] theorem State.withEvents_requestsEnd (s : State) (v : List Event) : (s.withEvents v).requestsEnd = s.requestsEnd := rfl
@[simp] theorem State.withEvents_cruInputs (s : State) (v : List Event) : (s.withEvents v).cruInputs = s.cruInputs := rfl
@[simp] theorem State.withEvents_draws (s : State) (v : List Event) : (s.withEvents v).draws = s.draws := rfl
@[simp] theorem State.withEvents_events (s : State) (v : List Event) : (s.withEvents v).events = v := rfl

/-- A state is its fields. -/
theorem State.eq_of_fields {s t : State}
    (h_pc : s.pc = t.pc)
    (h_wp : s.wp = t.wp)
    (h_st : s.st = t.st)
    (h_mem : s.mem = t.mem)
    (h_idle : s.idle = t.idle)
    (h_inhibit : s.inhibit = t.inhibit)
    (h_faulted : s.faulted = t.faulted)
    (h_pendingX : s.pendingX = t.pendingX)
    (h_regions : s.regions = t.regions)
    (h_samples : s.samples = t.samples)
    (h_requestsEnd : s.requestsEnd = t.requestsEnd)
    (h_cruInputs : s.cruInputs = t.cruInputs)
    (h_draws : s.draws = t.draws)
    (h_events : s.events = t.events) : s = t := by
  cases s; cases t; simp_all

end Sys2Proof.Machine
end

