-- ==== Sys2Proof/Laws/Ops.lean ====
section
/-! SUPPORT. What the shared operations of Machine/Ops.lean can do, said once: sequencing, addresses,
the memory list, accesses under the memory map, fetch, the context switch. -/

namespace Sys2Proof.Machine

/-! ## Sequencing -/

@[simp] theorem andThen_next {α β : Type} (a : α) (s : State)
    (f : α → State → Host.Outcome β Fault Refusal) : andThen (.next (a, s)) f = f a s := rfl

@[simp] theorem andDo_next {β : Type} (s : State) (f : State → Host.Outcome β Fault Refusal) :
    andDo (.next s) f = f s := rfl

theorem andThen_eq_next {α β : Type} {r : Res α} {f : α → State → Host.Outcome β Fault Refusal}
    {b : β} : andThen r f = .next b ↔ ∃ a s, r = .next (a, s) ∧ f a s = .next b := by
  rcases r with ⟨a, s⟩ | e | e
  · constructor
    · exact fun h => ⟨a, s, rfl, h⟩
    · rintro ⟨_, _, h, hf⟩
      cases h
      exact hf
  · simp [andThen]
  · simp [andThen]

theorem andDo_eq_next {β : Type} {r : Result} {f : State → Host.Outcome β Fault Refusal} {b : β} :
    andDo r f = .next b ↔ ∃ s, r = .next s ∧ f s = .next b := by
  rcases r with s | e | e <;> simp [andDo]

/-! ## Addresses -/

theorem evenAddr_toNat (a : Word) : (evenAddr a).toNat = a.toNat / 2 * 2 := by
  have h : ∀ x : BitVec 16, x &&& 0xFFFE#16 = (x >>> 1) <<< 1 := by
    intro x
    ext i hi
    simp only [BitVec.getElem_and, BitVec.getElem_shiftLeft, BitVec.getElem_ushiftRight]
    rcases Nat.lt_or_ge i 1 with h0 | h0
    · obtain rfl : i = 0 := by omega
      simp
    · have : (0xFFFE#16).getLsbD i = true := by
        have hall : ∀ j : Fin 16, 1 ≤ j.val → (0xFFFE#16).getLsbD j.val = true := by decide
        exact hall ⟨i, hi⟩ h0
      rw [← BitVec.getLsbD_eq_getElem hi, ← BitVec.getLsbD_eq_getElem hi, this]
      simp only [Bool.and_true, show ¬ i < 1 by omega, decide_false, Bool.not_false, Bool.true_and]
      rw [show 1 + (i - 1) = i by omega, BitVec.getLsbD_eq_getElem hi]
  unfold evenAddr
  rw [h, BitVec.toNat_shiftLeft, BitVec.toNat_ushiftRight, Nat.shiftRight_eq_div_pow,
    Nat.shiftLeft_eq]
  omega

@[simp] theorem evenAddr_evenAddr (a : Word) : evenAddr (evenAddr a) = evenAddr a := by
  apply BitVec.eq_of_toNat_eq
  rw [evenAddr_toNat, evenAddr_toNat]
  omega

@[simp] theorem evenAddr_getLsbD_zero (a : Word) : (evenAddr a).getLsbD 0 = false := by
  simp [evenAddr]

theorem evenAddr_succ_toNat (a : Word) : (evenAddr a + 1#16).toNat = a.toNat / 2 * 2 + 1 := by
  have := a.isLt
  rw [BitVec.toNat_add, evenAddr_toNat]
  simp only [BitVec.toNat_ofNat]
  omega

@[simp] theorem evenAddr_succ (a : Word) : evenAddr (evenAddr a + 1#16) = evenAddr a := by
  apply BitVec.eq_of_toNat_eq
  rw [evenAddr_toNat, evenAddr_succ_toNat, evenAddr_toNat]
  omega

/-- Two byte addresses that differ as words differ from both bytes of each other's word. -/
theorem ne_of_evenAddr_ne {a b : Word} (h : evenAddr a ≠ evenAddr b) :
    a.toNat ≠ (evenAddr b).toNat ∧ a.toNat ≠ (evenAddr b + 1#16).toNat := by
  constructor <;> intro hc <;> apply h
  · rw [BitVec.eq_of_toNat_eq hc, evenAddr_evenAddr]
  · rw [BitVec.eq_of_toNat_eq hc, evenAddr_succ]

/-! ## Halves of a word -/

@[simp] theorem hiByte_append (x y : Byte) : hiByte (x ++ y) = x := by
  unfold hiByte
  ext i hi
  rw [BitVec.getElem_extractLsb']
  refine (BitVec.getLsbD_append (x := x) (y := y)).trans ?_
  simp [BitVec.getLsbD_eq_getElem hi]

@[simp] theorem loByte_append (x y : Byte) : loByte (x ++ y) = y := by
  unfold loByte
  ext i hi
  rw [BitVec.getElem_extractLsb']
  refine (BitVec.getLsbD_append (x := x) (y := y)).trans ?_
  simp [hi]

theorem hiByte_append_loByte (w : Word) : hiByte w ++ loByte w = w := by
  unfold hiByte loByte
  apply BitVec.eq_of_getLsbD_eq
  intro i hi
  refine (BitVec.getLsbD_append (x := BitVec.extractLsb' 8 8 w)).trans ?_
  simp only [BitVec.getLsbD_extractLsb']
  by_cases h : i < 8
  · simp [h]
  · simp [h, show i - 8 < 8 by omega, show 8 + (i - 8) = i by omega]

/-! ## The memory list -/

theorem Memory.byteAt_nil (a : Nat) : Memory.byteAt [] a = Memory.unlisted a := rfl

theorem Memory.lookup_entry_append_ne {a c : Nat} (b : Byte) (m : Memory) (h : c ≠ a) :
    Memory.lookup c (Memory.entry a b ++ m) = Memory.lookup c m := by
  unfold Memory.entry
  split <;> simp [Memory.lookup, h]

/-- A write leaves every other address as it was, whatever the form of the list. -/
theorem Memory.lookup_set_ne {a c : Nat} (b : Byte) (m : Memory) (h : c ≠ a) :
    Memory.lookup c (m.set a b) = m.lookup c := by
  induction m with
  | nil => simpa [Memory.set] using Memory.lookup_entry_append_ne b [] h
  | cons e rest ih =>
    obtain ⟨a', b'⟩ := e
    unfold Memory.set
    split
    · exact Memory.lookup_entry_append_ne b _ h
    · split
      · subst_vars
        rw [Memory.lookup_entry_append_ne b _ h]
        simp [Memory.lookup, h]
      · simp [Memory.lookup, ih]

theorem Memory.byteAt_set_ne {a c : Nat} (b : Byte) (m : Memory) (h : c ≠ a) :
    Memory.byteAt (m.set a b) c = m.byteAt c := by
  simp [Memory.byteAt, Memory.lookup_set_ne b m h]

theorem Memory.wfFrom_mono {lo hi : Nat} {m : Memory} (h : lo ≤ hi) (hw : Memory.wfFrom hi m = true) :
    Memory.wfFrom lo m = true := by
  cases m with
  | nil => rfl
  | cons e rest =>
    simp only [Memory.wfFrom, Bool.and_eq_true, decide_eq_true_eq] at hw ⊢
    exact ⟨⟨⟨by omega, hw.1.1.2⟩, hw.1.2⟩, hw.2⟩

theorem Memory.lookup_of_wfFrom {lo a : Nat} {m : Memory} (hw : Memory.wfFrom lo m = true)
    (h : a < lo) : m.lookup a = none := by
  induction m generalizing lo with
  | nil => rfl
  | cons e rest ih =>
    simp only [Memory.wfFrom, Bool.and_eq_true, decide_eq_true_eq] at hw
    rw [Memory.lookup, if_neg (by omega)]
    exact ih hw.2 (by omega)

theorem Memory.wfFrom_entry_append {lo a : Nat} {b : Byte} {m : Memory} (hlo : lo ≤ a)
    (ha : a < 65536) (hw : Memory.wfFrom (a + 1) m = true) :
    Memory.wfFrom lo (Memory.entry a b ++ m) = true := by
  unfold Memory.entry
  split
  · exact Memory.wfFrom_mono (by omega) hw
  · rename_i h
    simp only [List.cons_append, List.nil_append, Memory.wfFrom, Bool.and_eq_true,
      decide_eq_true_eq]
    exact ⟨⟨⟨hlo, ha⟩, h⟩, hw⟩

theorem Memory.wfFrom_set {lo a : Nat} {b : Byte} {m : Memory} (hlo : lo ≤ a) (ha : a < 65536)
    (hw : Memory.wfFrom lo m = true) : Memory.wfFrom lo (m.set a b) = true := by
  induction m generalizing lo with
  | nil =>
    rw [Memory.set, ← List.append_nil (Memory.entry a b)]
    exact Memory.wfFrom_entry_append hlo ha rfl
  | cons e rest ih =>
    obtain ⟨a', b'⟩ := e
    simp only [Memory.wfFrom, Bool.and_eq_true, decide_eq_true_eq] at hw
    unfold Memory.set
    split
    · apply Memory.wfFrom_entry_append hlo ha
      simp only [Memory.wfFrom, Bool.and_eq_true, decide_eq_true_eq]
      exact ⟨⟨⟨by omega, hw.1.1.2⟩, hw.1.2⟩, hw.2⟩
    · split
      · subst_vars
        exact Memory.wfFrom_entry_append hlo ha hw.2
      · simp only [Memory.wfFrom, Bool.and_eq_true, decide_eq_true_eq]
        exact ⟨hw.1, ih (by omega) hw.2⟩

/-- Every byte written keeps the canonical form. -/
theorem Memory.wf_set {a : Nat} {b : Byte} {m : Memory} (ha : a < 65536) (hw : m.wf = true) :
    Memory.wf (m.set a b) = true :=
  Memory.wfFrom_set (Nat.zero_le a) ha hw

theorem Memory.byteAt_entry_append {a : Nat} {b : Byte} {m : Memory} (h : m.lookup a = none) :
    Memory.byteAt (Memory.entry a b ++ m) a = b := by
  unfold Memory.entry
  split
  · rename_i hi
    simp [Memory.byteAt, h, Memory.unlisted, hi]
  · simp [Memory.byteAt, Memory.lookup]

/-- A read after a write to the same address gives the value written. -/
theorem Memory.byteAt_set_self {lo a : Nat} {b : Byte} {m : Memory} (hw : Memory.wfFrom lo m = true) :
    Memory.byteAt (m.set a b) a = b := by
  induction m generalizing lo with
  | nil =>
    rw [Memory.set, ← List.append_nil (Memory.entry a b)]
    exact Memory.byteAt_entry_append rfl
  | cons e rest ih =>
    obtain ⟨a', b'⟩ := e
    simp only [Memory.wfFrom, Bool.and_eq_true, decide_eq_true_eq] at hw
    unfold Memory.set
    split
    · apply Memory.byteAt_entry_append
      rw [Memory.lookup, if_neg (by omega)]
      exact Memory.lookup_of_wfFrom hw.2 (by omega)
    · split
      · subst_vars
        exact Memory.byteAt_entry_append (Memory.lookup_of_wfFrom hw.2 (by omega))
      · rename_i h1 h2
        have := ih hw.2
        simpa [Memory.byteAt, Memory.lookup, h2] using this

/-! ## Stores -/

/-- What a store reads as depends on memory alone. -/
@[simp] theorem State.emit_byteAt (s : State) (e : Event) (a : Word) :
    (s.emit e).byteAt a = s.byteAt a := rfl

@[simp] theorem State.emit_wordAt (s : State) (e : Event) (a : Word) :
    (s.emit e).wordAt a = s.wordAt a := rfl

/-- A byte store leaves every other byte as it was. -/
theorem State.byteAt_storeByte_ne {a c : Word} (b : Byte) (s : State) (h : c ≠ a) :
    (s.storeByte a b).byteAt c = s.byteAt c :=
  Memory.byteAt_set_ne b s.mem fun hc => h (BitVec.eq_of_toNat_eq hc)

theorem State.byteAt_storeByte_self {a : Word} (b : Byte) (s : State) (h : s.mem.wf = true) :
    (s.storeByte a b).byteAt a = b :=
  Memory.byteAt_set_self h

theorem State.storeByte_wf {s : State} (a : Word) (b : Byte) (h : s.mem.wf = true) :
    (s.storeByte a b).mem.wf = true :=
  Memory.wf_set a.isLt h

theorem State.storeWord_wf {s : State} (a v : Word) (h : s.mem.wf = true) :
    (s.storeWord a v).mem.wf = true :=
  Memory.wf_set (evenAddr a + 1#16).isLt (Memory.wf_set (evenAddr a).isLt h)

/-- A word store leaves every byte outside the word as it was. -/
theorem State.byteAt_storeWord_ne {a c : Word} (v : Word) (s : State)
    (h : evenAddr c ≠ evenAddr a) : (s.storeWord a v).byteAt c = s.byteAt c := by
  obtain ⟨h0, h1⟩ := ne_of_evenAddr_ne h
  exact (Memory.byteAt_set_ne _ _ h1).trans (Memory.byteAt_set_ne _ _ h0)

/-- What a store changes: memory, and what the environment has seen. -/
theorem State.storeWord_eq (s : State) (a v : Word) :
    s.storeWord a v = (s.withMem (s.storeWord a v).mem).withEvents
      (.memWrite (evenAddr a) v :: s.events) := rfl

theorem State.storeByte_eq (s : State) (a : Word) (b : Byte) :
    s.storeByte a b = (s.withMem (s.storeByte a b).mem).withEvents
      (.memWrite (evenAddr a) ((s.storeByte a b).wordAt a) :: s.events) := rfl

@[simp] theorem State.storeWord_pc (s : State) (a v : Word) : (s.storeWord a v).pc = s.pc := rfl
@[simp] theorem State.storeWord_wp (s : State) (a v : Word) : (s.storeWord a v).wp = s.wp := rfl
@[simp] theorem State.storeWord_st (s : State) (a v : Word) : (s.storeWord a v).st = s.st := rfl
@[simp] theorem State.storeWord_regions (s : State) (a v : Word) :
    (s.storeWord a v).regions = s.regions := rfl
@[simp] theorem State.storeWord_idle (s : State) (a v : Word) :
    (s.storeWord a v).idle = s.idle := rfl
@[simp] theorem State.storeWord_inhibit (s : State) (a v : Word) :
    (s.storeWord a v).inhibit = s.inhibit := rfl
@[simp] theorem State.storeWord_faulted (s : State) (a v : Word) :
    (s.storeWord a v).faulted = s.faulted := rfl
@[simp] theorem State.storeWord_pendingX (s : State) (a v : Word) :
    (s.storeWord a v).pendingX = s.pendingX := rfl
@[simp] theorem State.storeWord_samples (s : State) (a v : Word) :
    (s.storeWord a v).samples = s.samples := rfl
@[simp] theorem State.storeWord_requestsEnd (s : State) (a v : Word) :
    (s.storeWord a v).requestsEnd = s.requestsEnd := rfl
@[simp] theorem State.storeWord_cruInputs (s : State) (a v : Word) :
    (s.storeWord a v).cruInputs = s.cruInputs := rfl
@[simp] theorem State.storeWord_draws (s : State) (a v : Word) :
    (s.storeWord a v).draws = s.draws := rfl
@[simp] theorem State.storeWord_events (s : State) (a v : Word) :
    (s.storeWord a v).events = .memWrite (evenAddr a) v :: s.events := rfl

@[simp] theorem State.storeByte_pc (s : State) (a : Word) (b : Byte) :
    (s.storeByte a b).pc = s.pc := rfl
@[simp] theorem State.storeByte_wp (s : State) (a : Word) (b : Byte) :
    (s.storeByte a b).wp = s.wp := rfl
@[simp] theorem State.storeByte_st (s : State) (a : Word) (b : Byte) :
    (s.storeByte a b).st = s.st := rfl
@[simp] theorem State.storeByte_regions (s : State) (a : Word) (b : Byte) :
    (s.storeByte a b).regions = s.regions := rfl
@[simp] theorem State.storeByte_idle (s : State) (a : Word) (b : Byte) :
    (s.storeByte a b).idle = s.idle := rfl
@[simp] theorem State.storeByte_inhibit (s : State) (a : Word) (b : Byte) :
    (s.storeByte a b).inhibit = s.inhibit := rfl
@[simp] theorem State.storeByte_faulted (s : State) (a : Word) (b : Byte) :
    (s.storeByte a b).faulted = s.faulted := rfl
@[simp] theorem State.storeByte_pendingX (s : State) (a : Word) (b : Byte) :
    (s.storeByte a b).pendingX = s.pendingX := rfl
@[simp] theorem State.storeByte_samples (s : State) (a : Word) (b : Byte) :
    (s.storeByte a b).samples = s.samples := rfl
@[simp] theorem State.storeByte_requestsEnd (s : State) (a : Word) (b : Byte) :
    (s.storeByte a b).requestsEnd = s.requestsEnd := rfl
@[simp] theorem State.storeByte_cruInputs (s : State) (a : Word) (b : Byte) :
    (s.storeByte a b).cruInputs = s.cruInputs := rfl
@[simp] theorem State.storeByte_draws (s : State) (a : Word) (b : Byte) :
    (s.storeByte a b).draws = s.draws := rfl

@[simp] theorem State.emit_pc (s : State) (e : Event) : (s.emit e).pc = s.pc := rfl
@[simp] theorem State.emit_wp (s : State) (e : Event) : (s.emit e).wp = s.wp := rfl
@[simp] theorem State.emit_st (s : State) (e : Event) : (s.emit e).st = s.st := rfl
@[simp] theorem State.emit_mem (s : State) (e : Event) : (s.emit e).mem = s.mem := rfl
@[simp] theorem State.emit_regions (s : State) (e : Event) : (s.emit e).regions = s.regions := rfl
@[simp] theorem State.emit_idle (s : State) (e : Event) : (s.emit e).idle = s.idle := rfl
@[simp] theorem State.emit_inhibit (s : State) (e : Event) : (s.emit e).inhibit = s.inhibit := rfl
@[simp] theorem State.emit_faulted (s : State) (e : Event) : (s.emit e).faulted = s.faulted := rfl
@[simp] theorem State.emit_pendingX (s : State) (e : Event) : (s.emit e).pendingX = s.pendingX := rfl
@[simp] theorem State.emit_samples (s : State) (e : Event) : (s.emit e).samples = s.samples := rfl
@[simp] theorem State.emit_requestsEnd (s : State) (e : Event) : (s.emit e).requestsEnd = s.requestsEnd := rfl
@[simp] theorem State.emit_cruInputs (s : State) (e : Event) : (s.emit e).cruInputs = s.cruInputs := rfl
@[simp] theorem State.emit_draws (s : State) (e : Event) : (s.emit e).draws = s.draws := rfl
@[simp] theorem State.emit_events (s : State) (e : Event) : (s.emit e).events = e :: s.events := rfl

/-! ## The memory map -/

/-- The kind of an address is a matter of the memory map alone. -/
theorem State.kindAt_congr {s t : State} (h : t.regions = s.regions) (a : Word) :
    t.kindAt a = s.kindAt a := by
  simp [State.kindAt, h]

theorem State.AllRam.congr {s t : State} (hs : s.AllRam) (h : t.regions = s.regions) : t.AllRam :=
  fun a => (State.kindAt_congr h a).trans (hs a)

theorem State.allRam_of_no_regions {s : State} (h : s.regions = []) : s.AllRam := by
  intro a
  simp [State.kindAt, h]

/-! ## Accesses -/

/-- Two states that differ at most in what the environment has seen and answered. -/
def SameButDevices (s t : State) : Prop := t = (s.withDraws t.draws).withEvents t.events

theorem SameButDevices.refl (s : State) : SameButDevices s s := rfl

theorem SameButDevices.trans {s t u : State} (h : SameButDevices s t) (k : SameButDevices t u) :
    SameButDevices s u := by
  unfold SameButDevices at *
  rw [k, h]
  rfl

theorem readWord_allRam {s : State} (h : s.AllRam) (a : Word) :
    readWord a s = .next (s.wordAt a, s) := by
  simp [readWord, h a]

theorem writeWord_allRam {s : State} (h : s.AllRam) (a v : Word) :
    writeWord a v s = .next (s.storeWord a v) := by
  simp [writeWord, h a]

theorem writeByte_allRam {s : State} (h : s.AllRam) (a w : Word) (b : Byte) :
    writeByte a w b s = .next (s.storeByte a b) := by
  simp [writeByte, h a]

theorem readReg_allRam {s : State} (h : s.AllRam) (r : Reg) :
    readReg r s = .next (s.reg r, s) := readWord_allRam h _

theorem writeReg_allRam {s : State} (h : s.AllRam) (r : Reg) (v : Word) :
    writeReg r v s = .next (s.storeWord (s.regAddr r) v) := writeWord_allRam h _ v

theorem fetch_allRam {s : State} (h : s.AllRam) :
    fetch s = .next (s.wordAt s.pc, s.withPc (s.pc + 2#16)) := by
  simp [fetch, readWord_allRam h]

/-- A read changes nothing but what the environment has seen. -/
theorem readWord_next {a v : Word} {s t : State} (h : readWord a s = .next (v, t)) :
    SameButDevices s t := by
  unfold readWord at h
  split at h <;> cases h <;> rfl

/-- A word write stores the word, or a device sees it. -/
theorem writeWord_next {a v : Word} {s t : State} (h : writeWord a v s = .next t) :
    (s.kindAt a = .ram ∧ t = s.storeWord a v) ∨
      (s.kindAt a = .device ∧ t = s.emit (.deviceWrite (evenAddr a) v)) := by
  unfold writeWord at h
  split at h <;> cases h <;> simp_all

theorem writeByte_next {a w : Word} {b : Byte} {s t : State} (h : writeByte a w b s = .next t) :
    (s.kindAt a = .ram ∧ t = s.storeByte a b) ∨
      (s.kindAt a = .device ∧ t = s.emit (.deviceWrite (evenAddr a) (mergeByte a w b))) := by
  unfold writeByte at h
  split at h <;> cases h <;> simp_all

/-- Fetch changes PC by 2 and nothing else but what devices have seen. -/
theorem fetch_next {w : Word} {s t : State} (h : fetch s = .next (w, t)) :
    SameButDevices (s.withPc (s.pc + 2#16)) t := by
  obtain ⟨v, u, hr, hn⟩ := andThen_eq_next.mp h
  cases hn
  have := readWord_next hr
  unfold SameButDevices at *
  rw [this]
  rfl

/-! ## Sampling points (R127) -/

/-- A sampling point uses up at most one fixed sample and one draw. -/
theorem State.takeSample_eq (s : State) :
    ∃ d, s.takeSample = (s.withSamples s.samples.tail).withDraws d := by
  unfold State.takeSample
  cases h : s.samples with
  | nil =>
    dsimp only
    split
    · exact ⟨s.draws, by apply State.eq_of_fields <;> simp [h]⟩
    · exact ⟨s.draws + 1, by apply State.eq_of_fields <;> simp [h]⟩
  | cons q rest => exact ⟨s.draws, rfl⟩

/-- Where no request comes any more, a sampling point presents nothing, and none comes after it. -/
theorem State.noMoreRequests_next {s : State} (h : s.noMoreRequests = true) :
    s.sample = Sample.quiet ∧ s.takeSample = s.withSamples s.samples.tail ∧
      ∀ t : State, t.samples = s.samples.tail → t.requestsEnd = s.requestsEnd →
        t.noMoreRequests = true := by
  simp only [State.noMoreRequests, Bool.and_eq_true] at h
  obtain ⟨hr, ha⟩ := h
  cases hs : s.samples with
  | nil =>
    refine ⟨by simp [State.sample, hs, hr], ?_, fun t h1 h2 => by
      simp [State.noMoreRequests, h1, h2, hr]⟩
    rw [State.takeSample, hs]
    simp only [hr, if_true]
    apply State.eq_of_fields <;> simp [hs]
  | cons q rest =>
    rw [hs] at ha
    simp only [List.all_cons, Bool.and_eq_true, beq_iff_eq] at ha
    exact ⟨by simp [State.sample, hs, ha.1], by simp [State.takeSample, hs], fun t h1 h2 => by
      simpa [State.noMoreRequests, h1, h2, hr] using ha.2⟩

end Sys2Proof.Machine
end

