-- ==== Sys2Proof/Laws/Cru.lean ====
section
/-! SUPPORT. What the CRU lines of Machine/Ops.lean can do, said once: the events of an output, the answers
of an input. -/

namespace Sys2Proof.Machine

theorem cruOutMany_eq (a : BitVec 12) (v : Word) (n : Nat) (s : State) :
    cruOutMany a v n s = s.withEvents (((List.range n).map fun k =>
      Event.cruOut (a + BitVec.ofNat 12 k) (v.getLsbD k)).reverse ++ s.events) := by
  induction n with
  | zero => simp [cruOutMany]; rfl
  | succ n ih =>
    rw [cruOutMany, ih, List.range_succ, List.map_append, List.reverse_append]
    rfl

/-- One CRU input: the answer, and one answer used up. -/
theorem cruIn_eq (a : BitVec 12) (s : State) :
    cruIn a s = (s.cruAnswer 0 a,
      (s.withCruInputs (s.cruInputs.drop 1)).withDraws (s.draws + (1 - s.cruInputs.length))) := by
  unfold cruIn State.cruAnswer
  cases h : s.cruInputs with
  | nil =>
    simp only [List.getElem?_nil, List.drop_nil, List.length_nil, Nat.sub_self, Nat.add_zero,
      Nat.sub_zero]
    refine Prod.ext rfl ?_
    rw [← h]
    rfl
  | cons b rest =>
    have hz : 1 - (b :: rest).length = 0 := by simp
    simp only [List.getElem?_cons_zero, List.drop_succ_cons, List.drop_zero, hz]
    rfl

/-- The state after n CRU inputs. -/
theorem cruInMany_state (a : BitVec 12) (n : Nat) (s : State) :
    (cruInMany a n s).2 = (s.withCruInputs (s.cruInputs.drop n)).withDraws
      (s.draws + (n - s.cruInputs.length)) := by
  induction n with
  | zero =>
    simp only [cruInMany, List.drop_zero, Nat.zero_sub, Nat.add_zero]
    rfl
  | succ n ih =>
    rw [cruInMany]
    simp only [cruIn_eq, ih]
    apply State.eq_of_fields <;> simp
    omega

/-- The bits of n CRU inputs: the k-th answer in bit k, and 0 above. -/
theorem cruInMany_bits (a : BitVec 12) {n : Nat} (hn : n ≤ 16) (s : State) (k : Nat) :
    (cruInMany a n s).1.getLsbD k =
      (decide (k < n) && s.cruAnswer k (a + BitVec.ofNat 12 k)) := by
  induction n with
  | zero => simp [cruInMany]
  | succ n ih =>
    rw [cruInMany]
    simp only [BitVec.getLsbD_or, ih (by omega), BitVec.getLsbD_shiftLeft, BitVec.getLsbD_setWidth,
      BitVec.getLsbD_ofBool, cruIn_eq, cruInMany_state]
    rcases Nat.lt_trichotomy k n with h | h | h
    · simp [h, show k < n + 1 by omega, show k < 16 by omega]
    · subst h
      have : State.cruAnswer ((s.withCruInputs (s.cruInputs.drop k)).withDraws
          (s.draws + (k - s.cruInputs.length))) 0 (a + BitVec.ofNat 12 k) =
          s.cruAnswer k (a + BitVec.ofNat 12 k) := by
        unfold State.cruAnswer
        simp only [State.withDraws_cruInputs, State.withCruInputs_cruInputs, List.getElem?_drop,
          State.withDraws_draws, List.length_drop]
        cases hk : s.cruInputs[k]? with
        | some b => simp
        | none =>
          have hlen := List.getElem?_eq_none_iff.mp hk
          simp [show s.cruInputs.length - k = 0 by omega]
      simp [this, show k < 16 by omega]
    · simp [show ¬ k < n by omega, show ¬ k < n + 1 by omega, show k - n ≠ 0 by omega]

end Sys2Proof.Machine
end

