-- ==== Sys2Proof/Laws/Flags.lean ====
section
/-! SUPPORT. What the status updates of Machine/Flags.lean say in the plain numbers of Safety.lean, and
the bits of the status word. -/

namespace Sys2Proof.Machine

/-! ## The status word -/

theorem Status.toWord_getLsbD (t : Status) (i : Nat) :
    t.toWord.getLsbD i =
      if i < 4 then t.mask.getLsbD i
      else if i = 15 then t.lgt else if i = 14 then t.agt else if i = 13 then t.eq
      else if i = 12 then t.c else if i = 11 then t.ov else if i = 10 then t.op
      else if i = 9 then t.x else false := by
  unfold Status.toWord
  simp only [BitVec.getLsbD_append, BitVec.getLsbD_ofBool, BitVec.getLsbD_zero]
  rcases Nat.lt_or_ge i 16 with h | h
  · have : i = 0 ∨ i = 1 ∨ i = 2 ∨ i = 3 ∨ i = 4 ∨ i = 5 ∨ i = 6 ∨ i = 7 ∨ i = 8 ∨ i = 9 ∨ i = 10 ∨
        i = 11 ∨ i = 12 ∨ i = 13 ∨ i = 14 ∨ i = 15 := by omega
    rcases this with h | h | h | h | h | h | h | h | h | h | h | h | h | h | h | h <;> subst h <;> simp
  · simp [show ¬ i < 4 by omega, show ¬ i - 4 < 5 by omega, show ¬ i - 4 - 5 < 1 by omega,
      show ¬ i - 4 - 5 - 1 < 1 by omega, show ¬ i - 4 - 5 - 1 - 1 < 1 by omega,
      show ¬ i - 4 - 5 - 1 - 1 - 1 < 1 by omega, show ¬ i - 4 - 5 - 1 - 1 - 1 - 1 < 1 by omega,
      show ¬ i - 4 - 5 - 1 - 1 - 1 - 1 - 1 < 1 by omega,
      show i ≠ 15 by omega, show i ≠ 14 by omega, show i ≠ 13 by omega, show i ≠ 12 by omega,
      show i ≠ 11 by omega, show i ≠ 10 by omega, show i ≠ 9 by omega]
    omega

/-- Two status words agree under a mask when the fields it covers agree. -/
theorem Status.toWord_and_congr {a b : Status} {m : Word}
    (lgt : m.getLsbD 15 = true → a.lgt = b.lgt) (agt : m.getLsbD 14 = true → a.agt = b.agt)
    (eq : m.getLsbD 13 = true → a.eq = b.eq) (c : m.getLsbD 12 = true → a.c = b.c)
    (ov : m.getLsbD 11 = true → a.ov = b.ov) (op : m.getLsbD 10 = true → a.op = b.op)
    (x : m.getLsbD 9 = true → a.x = b.x) (mask : m &&& 0x000F#16 ≠ 0#16 → a.mask = b.mask) :
    a.toWord &&& m = b.toWord &&& m := by
  apply BitVec.eq_of_getLsbD_eq
  intro i _
  rw [BitVec.getLsbD_and, BitVec.getLsbD_and]
  cases hm : m.getLsbD i with
  | false => simp
  | true =>
    rw [Status.toWord_getLsbD, Status.toWord_getLsbD]
    have hmask : i < 4 → a.mask = b.mask := by
      intro hi
      apply mask
      intro hz
      have := congrArg (·.getLsbD i) hz
      have h15 : (0x000F#16).getLsbD i = true := by
        have hall : ∀ j : Fin 4, (0x000F#16).getLsbD j.val = true := by decide
        exact hall ⟨i, hi⟩
      simp [hm, h15] at this
    repeat' split
    · rw [hmask (by assumption)]
    all_goals first | rfl | (subst_vars; simp_all)

/-- The status word and the status determine each other, but for the bits that are no storage (R31). -/
theorem Status.ofWord_toWord (t : Status) : Status.ofWord t.toWord = t := by
  obtain ⟨lgt, agt, eq, c, ov, op, x, mask⟩ := t
  unfold Status.ofWord
  simp only [Status.toWord_getLsbD]
  congr
  ext i hi
  rw [BitVec.getElem_extractLsb', Status.toWord_getLsbD, if_pos (by omega)]
  simp [BitVec.getLsbD_eq_getElem hi]

theorem Status.toWord_ofWord (w : Word) : (Status.ofWord w).toWord = w &&& 0xFE0F#16 := by
  apply BitVec.eq_of_getLsbD_eq
  intro i hi
  rw [Status.toWord_getLsbD, BitVec.getLsbD_and]
  unfold Status.ofWord
  have : i = 0 ∨ i = 1 ∨ i = 2 ∨ i = 3 ∨ i = 4 ∨ i = 5 ∨ i = 6 ∨ i = 7 ∨ i = 8 ∨ i = 9 ∨ i = 10 ∨
      i = 11 ∨ i = 12 ∨ i = 13 ∨ i = 14 ∨ i = 15 := by omega
  rcases this with h | h | h | h | h | h | h | h | h | h | h | h | h | h | h | h <;> subst h <;> simp

/-! ## What the updates say -/

theorem Status.setLAE_rates {n : Nat} (t : Status) (v : BitVec n) :
    (t.setLAE v).RatesResult v := by
  refine ⟨by simp [Status.setLAE], ?_, by simp [Status.setLAE]⟩
  simp only [Status.setLAE, Bool.and_eq_true, bne_iff_ne, ne_eq, Bool.not_eq_true']
  rw [BitVec.msb_eq_toInt]
  have h0 : v = 0#n ↔ v.toInt = 0 := by
    rw [← BitVec.toInt_inj]
    simp
  rw [h0]
  simp only [decide_eq_false_iff_not]
  omega

theorem Status.setCmp_rates {n : Nat} (t : Status) (a b : BitVec n) :
    (t.setCmp a b).RatesPair a b := by
  refine ⟨?_, ?_, by simp [Status.setCmp]⟩
  · simp [Status.setCmp, BitVec.ult]
  · simp [Status.setCmp, BitVec.slt]

theorem add_overflow {n : Nat} (a b : BitVec n) :
    (add a b).overflow = true ↔ ¬ signedFits n (a.toInt + b.toInt) := by
  have h : (add a b).overflow = a.saddOverflow b := by
    rw [BitVec.saddOverflow_eq]
    simp [add, bne]
  rw [h]
  unfold BitVec.saddOverflow signedFits
  simp only [Bool.or_eq_true, decide_eq_true_eq]
  omega

theorem sub_overflow {n : Nat} (a b : BitVec n) :
    (sub a b).overflow = true ↔ ¬ signedFits n (a.toInt - b.toInt) := by
  have h : (sub a b).overflow = a.ssubOverflow b := by
    rw [BitVec.ssubOverflow_eq]
    simp only [sub]
    cases a.msb <;> cases b.msb <;> cases (a - b).msb <;> rfl
  rw [h]
  unfold BitVec.ssubOverflow signedFits
  simp only [Bool.or_eq_true, decide_eq_true_eq]
  omega

/-- The five flags after an add (R122, R131). -/
theorem Status.setArith_add {n : Nat} (t : Status) (a b : BitVec n) :
    (t.setArith (add a b)).RatesResult (a + b) ∧ (t.setArith (add a b)).RatesSum a b :=
  ⟨t.setLAE_rates (a + b), by simp [Status.setArith, Status.setOV, Status.setC, add],
    add_overflow a b⟩

/-- The five flags after a subtract (R123, R135). -/
theorem Status.setArith_sub {n : Nat} (t : Status) (a b : BitVec n) :
    (t.setArith (sub a b)).RatesResult (a - b) ∧ (t.setArith (sub a b)).RatesDifference a b :=
  ⟨t.setLAE_rates (a - b), by simp [Status.setArith, Status.setOV, Status.setC, sub],
    sub_overflow a b⟩

theorem oddParity_eq (b : Byte) :
    oddParity b = true ↔ ((List.range 8).countP fun i => b.getLsbD i) % 2 = 1 := by
  have : popcount b = (List.range 8).countP fun i => b.getLsbD i := by
    simp only [popcount, show List.range 8 = [0, 1, 2, 3, 4, 5, 6, 7] from rfl, List.countP_cons,
      List.countP_nil, Bool.toNat]
    cases b.getLsbD 0 <;> cases b.getLsbD 1 <;> cases b.getLsbD 2 <;> cases b.getLsbD 3 <;>
      cases b.getLsbD 4 <;> cases b.getLsbD 5 <;> cases b.getLsbD 6 <;> cases b.getLsbD 7 <;> rfl
  simp [oddParity, this]

theorem Status.setOP_rates (t : Status) (b : Byte) : (t.setOP b).RatesParity b := oddParity_eq b

/-- Parity does not disturb the other flags. -/
theorem Status.setOP_result {n : Nat} {t : Status} {v : BitVec n} (b : Byte)
    (h : t.RatesResult v) : (t.setOP b).RatesResult v := h

theorem Status.setOP_pair {n : Nat} {t : Status} {v w : BitVec n} (b : Byte)
    (h : t.RatesPair v w) : (t.setOP b).RatesPair v w := h

theorem Status.setOP_sum {n : Nat} {t : Status} {v w : BitVec n} (b : Byte)
    (h : t.RatesSum v w) : (t.setOP b).RatesSum v w := h

theorem Status.setOP_difference {n : Nat} {t : Status} {v w : BitVec n} (b : Byte)
    (h : t.RatesDifference v w) : (t.setOP b).RatesDifference v w := h

end Sys2Proof.Machine
end

