-- ==== Sys2Proof/Laws/Operands.lean ====
section
/-! SUPPORT. What the operand operations of Machine/Operands.lean can do, said once: over plain RAM as
equations, over any memory map as a frame. -/

namespace Sys2Proof.Machine

/-! ## Frames compose -/

theorem Frame.refl {P : Word → Prop} (s : State) : Frame P s s :=
  ⟨fun _ _ => rfl, rfl, rfl, rfl, rfl, rfl, rfl, rfl, rfl, rfl, rfl, rfl⟩

theorem Frame.trans {P Q : Word → Prop} {s t u : State} (h : Frame P s t) (k : Frame Q t u) :
    Frame (fun a => P a ∨ Q a) s u where
  mem a ha := (k.mem a fun hq => ha (.inr hq)).trans (h.mem a fun hp => ha (.inl hp))
  wp := k.wp.trans h.wp
  mask := k.mask.trans h.mask
  x := k.x.trans h.x
  idle := k.idle.trans h.idle
  inhibit := k.inhibit.trans h.inhibit
  faulted := k.faulted.trans h.faulted
  pendingX := k.pendingX.trans h.pendingX
  regions := k.regions.trans h.regions
  samples := k.samples.trans h.samples
  requestsEnd := k.requestsEnd.trans h.requestsEnd
  cruInputs := k.cruInputs.trans h.cruInputs

theorem Frame.mono {P Q : Word → Prop} {s t : State} (h : Frame P s t) (hpq : ∀ a, P a → Q a) :
    Frame Q s t :=
  { h with mem := fun a ha => h.mem a fun hp => ha (hpq a hp) }

/-- A status update that keeps the mask and X changes nothing a frame names. -/
theorem Frame.withSt {P : Word → Prop} {s u : State} (h : Frame P s u) {st : Status}
    (mask : st.mask = u.st.mask) (x : st.x = u.st.x) : Frame P s (u.withSt st) :=
  ⟨h.mem, h.wp, mask.trans h.mask, x.trans h.x, h.idle, h.inhibit, h.faulted, h.pendingX, h.regions,
    h.samples, h.requestsEnd, h.cruInputs⟩

/-- Neither PC nor what the environment has seen is part of a frame. -/
theorem Frame.withPc {P : Word → Prop} {s u : State} (h : Frame P s u) (pc : Word) :
    Frame P s (u.withPc pc) :=
  ⟨h.mem, h.wp, h.mask, h.x, h.idle, h.inhibit, h.faulted, h.pendingX, h.regions, h.samples,
    h.requestsEnd, h.cruInputs⟩

theorem Frame.withEvents {P : Word → Prop} {s u : State} (h : Frame P s u) (e : List Event) :
    Frame P s (u.withEvents e) :=
  ⟨h.mem, h.wp, h.mask, h.x, h.idle, h.inhibit, h.faulted, h.pendingX, h.regions, h.samples,
    h.requestsEnd, h.cruInputs⟩

theorem SameButDevices.frame {P : Word → Prop} {s t : State} (h : SameButDevices s t) :
    Frame P s t := by
  unfold SameButDevices at h
  rw [h]
  exact ⟨fun _ _ => rfl, rfl, rfl, rfl, rfl, rfl, rfl, rfl, rfl, rfl, rfl, rfl⟩

theorem SameButDevices.st {s t : State} (h : SameButDevices s t) : t.st = s.st := by
  unfold SameButDevices at h
  rw [h]
  rfl

theorem SameButDevices.pc {s t : State} (h : SameButDevices s t) : t.pc = s.pc := by
  unfold SameButDevices at h
  rw [h]
  rfl

theorem SameButDevices.mem {s t : State} (h : SameButDevices s t) : t.mem = s.mem := by
  unfold SameButDevices at h
  rw [h]
  rfl

/-- A word write touches the word alone. -/
theorem writeWord_frame {a v : Word} {s t : State} (h : writeWord a v s = .next t) :
    Frame (wordBytes a) s t := by
  rcases writeWord_next h with ⟨-, rfl⟩ | ⟨-, rfl⟩
  · exact ⟨fun c hc => State.byteAt_storeWord_ne v s hc, rfl, rfl, rfl, rfl, rfl, rfl, rfl, rfl, rfl,
      rfl, rfl⟩
  · exact ⟨fun _ _ => rfl, rfl, rfl, rfl, rfl, rfl, rfl, rfl, rfl, rfl, rfl, rfl⟩

/-- A word write leaves ST and PC alone. -/
theorem writeWord_st {a v : Word} {s t : State} (h : writeWord a v s = .next t) : t.st = s.st := by
  rcases writeWord_next h with ⟨-, rfl⟩ | ⟨-, rfl⟩ <;> rfl

theorem writeWord_pc {a v : Word} {s t : State} (h : writeWord a v s = .next t) : t.pc = s.pc := by
  rcases writeWord_next h with ⟨-, rfl⟩ | ⟨-, rfl⟩ <;> rfl

theorem writeWord_wf {a v : Word} {s t : State} (h : writeWord a v s = .next t)
    (hw : s.mem.wf = true) : t.mem.wf = true := by
  rcases writeWord_next h with ⟨-, rfl⟩ | ⟨-, rfl⟩
  · exact State.storeWord_wf a v hw
  · exact hw

/-- A byte write touches the byte alone. -/
theorem writeByte_frame {a w : Word} {b : Byte} {s t : State} (h : writeByte a w b s = .next t) :
    Frame (· = a) s t := by
  rcases writeByte_next h with ⟨-, rfl⟩ | ⟨-, rfl⟩
  · exact ⟨fun c hc => State.byteAt_storeByte_ne b s hc, rfl, rfl, rfl, rfl, rfl, rfl, rfl, rfl, rfl,
      rfl, rfl⟩
  · exact ⟨fun _ _ => rfl, rfl, rfl, rfl, rfl, rfl, rfl, rfl, rfl, rfl, rfl, rfl⟩

theorem writeByte_st {a w : Word} {b : Byte} {s t : State} (h : writeByte a w b s = .next t) :
    t.st = s.st := by
  rcases writeByte_next h with ⟨-, rfl⟩ | ⟨-, rfl⟩ <;> rfl

theorem writeByte_pc {a w : Word} {b : Byte} {s t : State} (h : writeByte a w b s = .next t) :
    t.pc = s.pc := by
  rcases writeByte_next h with ⟨-, rfl⟩ | ⟨-, rfl⟩ <;> rfl

theorem writeByte_wf {a w : Word} {b : Byte} {s t : State} (h : writeByte a w b s = .next t)
    (hw : s.mem.wf = true) : t.mem.wf = true := by
  rcases writeByte_next h with ⟨-, rfl⟩ | ⟨-, rfl⟩
  · exact State.storeByte_wf a b hw
  · exact hw

/-! ## What an operation leaves alone, with its ST, PC and memory form -/

/-- An operation that touches memory at most in `P`, keeps ST, advances PC by `n`, and keeps the
canonical form of memory. -/
structure Steady (P : Word → Prop) (n : Word) (s t : State) : Prop where
  frame : Frame P s t
  st : t.st = s.st
  pc : t.pc = s.pc + n
  wf : s.mem.wf = true → t.mem.wf = true

theorem Steady.trans {P Q : Word → Prop} {m n : Word} {s t u : State} (h : Steady P m s t)
    (k : Steady Q n t u) : Steady (fun a => P a ∨ Q a) (m + n) s u :=
  ⟨h.frame.trans k.frame, k.st.trans h.st, by rw [k.pc, h.pc, BitVec.add_assoc],
    fun hw => k.wf (h.wf hw)⟩

theorem Steady.mono {P Q : Word → Prop} {n : Word} {s t : State} (h : Steady P n s t)
    (hpq : ∀ a, P a → Q a) : Steady Q n s t :=
  ⟨h.frame.mono hpq, h.st, h.pc, h.wf⟩

theorem SameButDevices.steady {s t : State} (h : SameButDevices s t) :
    Steady (fun _ => False) 0#16 s t :=
  ⟨h.frame, h.st, by rw [h.pc]; simp, fun hw => h.mem ▸ hw⟩

theorem readWord_steady {a v : Word} {s t : State} (h : readWord a s = .next (v, t)) :
    Steady (fun _ => False) 0#16 s t := (readWord_next h).steady

theorem writeWord_steady {a v : Word} {s t : State} (h : writeWord a v s = .next t) :
    Steady (wordBytes a) 0#16 s t :=
  ⟨writeWord_frame h, writeWord_st h, by rw [writeWord_pc h]; simp, writeWord_wf h⟩

theorem writeByte_steady {a w : Word} {b : Byte} {s t : State} (h : writeByte a w b s = .next t) :
    Steady (· = a) 0#16 s t :=
  ⟨writeByte_frame h, writeByte_st h, by rw [writeByte_pc h]; simp, writeByte_wf h⟩

theorem fetch_steady {w : Word} {s t : State} (h : fetch s = .next (w, t)) :
    Steady (fun _ => False) 2#16 s t := by
  have hf := fetch_next h
  have hp : Steady (fun _ => False) 2#16 s (s.withPc (s.pc + 2#16)) :=
    ⟨⟨fun _ _ => rfl, rfl, rfl, rfl, rfl, rfl, rfl, rfl, rfl, rfl, rfl, rfl⟩, rfl, rfl, id⟩
  simpa using hp.trans hf.steady

/-- Resolving an operand touches an auto-increment register alone and advances PC past the operand's
extension word. -/
theorem resolve_steady {p : Operand} {size : Size} {a : Word} {s t : State}
    (h : resolve p size s = .next (a, t)) :
    Steady (autoBytes p s) (2#16 * BitVec.ofNat 16 p.extWords) s t := by
  cases p with
  | reg r =>
    cases h
    exact ⟨Frame.refl s, rfl, by simp [Operand.extWords], id⟩
  | indirect r => exact (readWord_steady h).mono fun _ hf => hf.elim
  | symbolic => exact (fetch_steady h).mono fun _ hf => hf.elim
  | indexed r =>
    obtain ⟨base, u, hf, hr⟩ := andThen_eq_next.mp h
    obtain ⟨x, v, hx, hn⟩ := andThen_eq_next.mp hr
    cases hn
    exact ((fetch_steady hf).trans (readWord_steady hx)).mono fun _ hf => hf.elim id id
  | autoInc r =>
    obtain ⟨x, u, hr, hw⟩ := andThen_eq_next.mp h
    obtain ⟨v, hv, hn⟩ := andDo_eq_next.mp hw
    cases hn
    have h1 := readWord_steady hr
    have h2 := h1.trans (writeWord_steady hv)
    have hwp : u.regAddr r = s.regAddr r := by simp [State.regAddr, h1.frame.wp]
    rw [hwp] at h2
    exact h2.mono fun _ hf => hf.elim False.elim id

theorem readByte_steady {a : Word} {o : ByteOp} {s t : State} (h : readByte a s = .next (o, t)) :
    o.addr = a ∧ o.byte = selectByte a o.word ∧ Steady (fun _ => False) 0#16 s t := by
  obtain ⟨w, u, hr, hn⟩ := andThen_eq_next.mp h
  cases hn
  exact ⟨rfl, rfl, readWord_steady hr⟩

/-- What fetching a word operand can do: its resolution, and a read. -/
theorem fetchWord_steady {p : Operand} {o : WordOp} {s t : State}
    (h : fetchWord p s = .next (o, t)) :
    Steady (autoBytes p s) (2#16 * BitVec.ofNat 16 p.extWords) s t := by
  obtain ⟨a, u, hr, hm⟩ := andThen_eq_next.mp h
  obtain ⟨v, x, hv, hn⟩ := andThen_eq_next.mp hm
  cases hn
  have := (resolve_steady hr).trans (readWord_steady hv)
  rw [BitVec.add_zero] at this
  exact this.mono fun _ hc => hc.elim id False.elim

theorem fetchByte_steady {p : Operand} {o : ByteOp} {s t : State}
    (h : fetchByte p s = .next (o, t)) :
    Steady (autoBytes p s) (2#16 * BitVec.ofNat 16 p.extWords) s t := by
  obtain ⟨a, u, hr, hm⟩ := andThen_eq_next.mp h
  have := (resolve_steady hr).trans (readByte_steady hm).2.2
  rw [BitVec.add_zero] at this
  exact this.mono fun _ hc => hc.elim id False.elim

/-- The bytes an operand's resolution rewrites depend on WP alone. -/
theorem autoBytes_congr {s t : State} (h : t.wp = s.wp) (p : Operand) (c : Word) :
    autoBytes p t c ↔ autoBytes p s c := by
  cases p <;> simp [autoBytes, State.regAddr, h]

/-- What `dualFetch` can do: both resolutions, the source's first, and two reads (R117, R130). -/
theorem dualFetch_steady {p q : Operand} {o : DualOp} {s t : State}
    (h : dualFetch p q s = .next (o, t)) :
    Steady (fun c => autoBytes p s c ∨ autoBytes q s c)
      (2#16 * BitVec.ofNat 16 p.extWords + 2#16 * BitVec.ofNat 16 q.extWords) s t := by
  obtain ⟨v, u, hp, hm⟩ := andThen_eq_next.mp h
  obtain ⟨d, x, hq, hn⟩ := andThen_eq_next.mp hm
  cases hn
  have h1 := fetchWord_steady hp
  exact (h1.trans (fetchWord_steady hq)).mono fun c hc =>
    hc.imp_right (autoBytes_congr h1.frame.wp q c).mp

theorem dualFetchByte_steady {p q : Operand} {o : DualByteOp} {s t : State}
    (h : dualFetchByte p q s = .next (o, t)) :
    Steady (fun c => autoBytes p s c ∨ autoBytes q s c)
      (2#16 * BitVec.ofNat 16 p.extWords + 2#16 * BitVec.ofNat 16 q.extWords) s t := by
  obtain ⟨v, u, hp, hm⟩ := andThen_eq_next.mp h
  obtain ⟨d, x, hq, hn⟩ := andThen_eq_next.mp hm
  cases hn
  have h1 := fetchByte_steady hp
  exact (h1.trans (fetchByte_steady hq)).mono fun c hc =>
    hc.imp_right (autoBytes_congr h1.frame.wp q c).mp

/-- What `regFetch` can do: the source's resolution, and two reads (R150). -/
theorem regFetch_steady {p : Operand} {d : Reg} {o : RegOp} {s t : State}
    (h : regFetch p d s = .next (o, t)) :
    Steady (autoBytes p s) (2#16 * BitVec.ofNat 16 p.extWords) s t := by
  obtain ⟨v, u, hp, hm⟩ := andThen_eq_next.mp h
  obtain ⟨r, x, hr, hn⟩ := andThen_eq_next.mp hm
  cases hn
  have := (fetchWord_steady hp).trans (readWord_steady hr)
  rw [BitVec.add_zero] at this
  exact this.mono fun _ hc => hc.elim id False.elim

theorem shiftCount_steady {c : BitVec 4} {n : Nat} {s t : State}
    (h : shiftCount c s = .next (n, t)) :
    1 ≤ n ∧ n ≤ 16 ∧ Steady (fun _ => False) 0#16 s t := by
  unfold shiftCount at h
  split at h
  · obtain ⟨r, u, hr, hn⟩ := andThen_eq_next.mp h
    cases hn
    have hlt := (r.extractLsb' 0 4).isLt
    refine ⟨?_, ?_, readWord_steady hr⟩ <;> unfold cruCount <;> split
    · omega
    · rename_i hz
      exact Nat.one_le_iff_ne_zero.mpr fun h0 => hz (BitVec.eq_of_toNat_eq h0)
    · omega
    · omega
  · rename_i hz
    cases h
    have hlt := c.isLt
    exact ⟨Nat.one_le_iff_ne_zero.mpr fun h0 => hz (BitVec.eq_of_toNat_eq h0), by omega,
      ⟨Frame.refl s, rfl, by simp, id⟩⟩

/-! ## Over plain RAM -/

theorem State.resolved_regions (s : State) (p : Operand) (size : Size) :
    (s.resolved p size).regions = s.regions := by
  cases p <;> rfl

theorem State.AllRam.resolved {s : State} (h : s.AllRam) (p : Operand) (size : Size) :
    (s.resolved p size).AllRam := h.congr (s.resolved_regions p size)

/-- Resolve over plain RAM (R111-R115). -/
theorem resolve_allRam {s : State} (h : s.AllRam) (p : Operand) (size : Size) :
    resolve p size s = .next (s.ea p, s.resolved p size) := by
  cases p with
  | reg r => rfl
  | indirect r => exact readReg_allRam h r
  | symbolic => exact fetch_allRam h
  | indexed r =>
    simp only [resolve, fetch_allRam h, andThen_next]
    rw [readReg_allRam (s := s.withPc (s.pc + 2#16)) (h.congr rfl)]
    rfl
  | autoInc r =>
    simp only [resolve, readReg_allRam h, andThen_next]
    rw [writeReg_allRam h, andDo_next]
    rfl

theorem fetchWord_allRam {s : State} (h : s.AllRam) (p : Operand) :
    fetchWord p s = .next (⟨s.ea p, s.operandWord p⟩, s.resolved p .word) := by
  simp only [fetchWord, resolve_allRam h, andThen_next, readWord_allRam (h.resolved p .word)]
  rfl

/-- A byte of memory is the half of its word that its address selects. -/
theorem State.selectByte_wordAt (s : State) (a : Word) : selectByte a (s.wordAt a) = s.byteAt a := by
  unfold selectByte State.wordAt
  have he := evenAddr_toNat a
  have h1 := evenAddr_succ_toNat a
  have hb : a.getLsbD 0 = decide (a.toNat % 2 = 1) := by
    rw [BitVec.getLsbD, Nat.testBit_zero]
  rw [hb]
  by_cases hodd : a.toNat % 2 = 1
  · have : evenAddr a + 1#16 = a := BitVec.eq_of_toNat_eq (by rw [h1]; omega)
    rw [if_pos (by simpa using hodd), this, loByte_append]
  · have : evenAddr a = a := BitVec.eq_of_toNat_eq (by rw [he]; omega)
    rw [if_neg (by simpa using hodd), this, hiByte_append]

theorem fetchByte_allRam {s : State} (h : s.AllRam) (p : Operand) :
    fetchByte p s = .next
      (⟨s.ea p, (s.resolved p .byte).wordAt (s.ea p), s.operandByte p⟩, s.resolved p .byte) := by
  simp only [fetchByte, resolve_allRam h, andThen_next, readByte,
    readWord_allRam (h.resolved p .byte), State.selectByte_wordAt]
  rfl

/-- Resolving an operand over plain RAM changes PC and memory, and what the environment has seen. -/
theorem State.resolved_eq (s : State) (p : Operand) (size : Size) :
    s.resolved p size = ((s.withPc (s.pc + 2#16 * BitVec.ofNat 16 p.extWords)).withMem
      (s.resolved p size).mem).withEvents (s.resolved p size).events := by
  cases p <;> apply State.eq_of_fields <;> simp [State.resolved, Operand.extWords]

theorem State.resolved_st (s : State) (p : Operand) (size : Size) :
    (s.resolved p size).st = s.st := by
  cases p <;> rfl

theorem State.resolved_wp (s : State) (p : Operand) (size : Size) :
    (s.resolved p size).wp = s.wp := by
  cases p <;> rfl

/-- Of resolving an operand over plain RAM the environment sees the store into an auto-increment register
alone. -/
theorem State.resolved_events (s : State) (p : Operand) (size : Size) :
    (s.resolved p size).events = match p with
      | .autoInc r => .memWrite (evenAddr (s.regAddr r)) (s.reg r + size.step) :: s.events
      | _ => s.events := by
  cases p <;> rfl

theorem State.resolved_regAddr (s : State) (p : Operand) (size : Size) (r : Reg) :
    (s.resolved p size).regAddr r = s.regAddr r := by
  cases p <;> rfl

theorem State.resolved_wf {s : State} (h : s.mem.wf = true) (p : Operand) (size : Size) :
    (s.resolved p size).mem.wf = true := by
  cases p <;> first | exact h | exact State.storeWord_wf _ _ h

/-- `dualFetch` over plain RAM (R117, R130): the destination is met in the state the source leaves. -/
theorem dualFetch_allRam {s : State} (h : s.AllRam) (p q : Operand) :
    dualFetch p q s = .next
      (⟨s.operandWord p, ⟨(s.resolved p .word).ea q, (s.resolved p .word).operandWord q⟩⟩,
        (s.resolved p .word).resolved q .word) := by
  simp only [dualFetch, fetchWord_allRam h, andThen_next, fetchWord_allRam (h.resolved p .word)]

theorem dualFetchByte_allRam {s : State} (h : s.AllRam) (p q : Operand) :
    dualFetchByte p q s = .next
      (⟨s.operandByte p, ⟨(s.resolved p .byte).ea q,
          ((s.resolved p .byte).resolved q .byte).wordAt ((s.resolved p .byte).ea q),
          (s.resolved p .byte).operandByte q⟩⟩,
        (s.resolved p .byte).resolved q .byte) := by
  simp only [dualFetchByte, fetchByte_allRam h, andThen_next, fetchByte_allRam (h.resolved p .byte)]

/-- `regFetch` over plain RAM (R150). -/
theorem regFetch_allRam {s : State} (h : s.AllRam) (p : Operand) (d : Reg) :
    regFetch p d s = .next (⟨s.operandWord p, (s.resolved p .word).reg d⟩, s.resolved p .word) := by
  simp only [regFetch, fetchWord_allRam h, andThen_next, readReg_allRam (h.resolved p .word)]

/-- The shift count over plain RAM (R220). -/
theorem shiftCount_allRam {s : State} (h : s.AllRam) (c : BitVec 4) :
    shiftCount c s = .next (s.shiftPlaces c, s) := by
  unfold shiftCount State.shiftPlaces
  by_cases hc : c = 0#4
  · simp only [hc, if_true, readReg_allRam h, andThen_next, ne_eq, not_true_eq_false, if_false]
    have hx : ((s.reg 0#4).extractLsb' 0 4).toNat = (s.reg 0#4).toNat % 16 := by
      simp [BitVec.extractLsb'_toNat]
    unfold cruCount
    by_cases hz : (s.reg 0#4).toNat % 16 = 0
    · rw [if_pos hz, if_pos (BitVec.eq_of_toNat_eq (by rw [hx, hz]; rfl))]
    · rw [if_neg hz, if_neg fun h0 => hz (by rw [← hx, h0]; rfl), hx]
  · simp [hc]

end Sys2Proof.Machine
end

