-- ==== Sys2Proof/Laws/PerInstr.lean ====
section
/-! SUPPORT. Statements about every instruction as syntax, one lemma per constructor. -/

namespace Sys2Proof

/-- A concatenation masked to its upper part. -/
theorem append_upper_mask {n m : Nat} (x : BitVec n) (y : BitVec m) :
    (x ++ y) &&& (BitVec.allOnes n ++ 0#m) = x ++ 0#m := by
  rw [BitVec.and_append, BitVec.and_allOnes, BitVec.and_zero]

theorem dualFormat_masked (op : BitVec 4) (p q : Operand) :
    dualFormat op p q &&& 0xF000#16 = op ++ 0#12 := append_upper_mask op (q.bits ++ p.bits)

theorem regFormat_masked (op : BitVec 6) (p : Operand) (d : BitVec 4) :
    regFormat op p d &&& 0xFC00#16 = op ++ 0#10 := append_upper_mask op (d ++ p.bits)

theorem singleFormat_masked (op : BitVec 10) (p : Operand) :
    singleFormat op p &&& 0xFFC0#16 = op ++ 0#6 := append_upper_mask op p.bits

theorem shiftFormat_masked (op : BitVec 8) (n : BitVec 4) (w : Reg) :
    shiftFormat op n w &&& 0xFF00#16 = op ++ 0#8 := append_upper_mask op (n ++ w)

theorem dispFormat_masked (op : BitVec 8) (d : BitVec 8) :
    dispFormat op d &&& 0xFF00#16 = op ++ 0#8 := append_upper_mask op d

theorem wordRegFormat_masked (op : BitVec 11) (w : Reg) :
    wordRegFormat op w &&& 0xFFE0#16 = op ++ 0#5 := append_upper_mask op (0#1 ++ w)

theorem controlFormat_masked (op : BitVec 11) :
    controlFormat op &&& 0xFFE0#16 = op ++ 0#5 := append_upper_mask op 0#5

end Sys2Proof

namespace Sys2Proof.Laws.TablePattern

/-- The encoded word is a word of the instruction's own row of the opcode table (R98). -/
def Statement (i : Instr) : Prop := encode i &&& i.tableRow.2 = i.tableRow.1

theorem szc (src dst : Operand) : Statement (.szc src dst) := dualFormat_masked 0b0100#4 src dst
theorem szcb (src dst : Operand) : Statement (.szcb src dst) := dualFormat_masked 0b0101#4 src dst
theorem s (src dst : Operand) : Statement (.s src dst) := dualFormat_masked 0b0110#4 src dst
theorem sb (src dst : Operand) : Statement (.sb src dst) := dualFormat_masked 0b0111#4 src dst
theorem c (src dst : Operand) : Statement (.c src dst) := dualFormat_masked 0b1000#4 src dst
theorem cb (src dst : Operand) : Statement (.cb src dst) := dualFormat_masked 0b1001#4 src dst
theorem a (src dst : Operand) : Statement (.a src dst) := dualFormat_masked 0b1010#4 src dst
theorem ab (src dst : Operand) : Statement (.ab src dst) := dualFormat_masked 0b1011#4 src dst
theorem mov (src dst : Operand) : Statement (.mov src dst) := dualFormat_masked 0b1100#4 src dst
theorem movb (src dst : Operand) : Statement (.movb src dst) := dualFormat_masked 0b1101#4 src dst
theorem soc (src dst : Operand) : Statement (.soc src dst) := dualFormat_masked 0b1110#4 src dst
theorem socb (src dst : Operand) : Statement (.socb src dst) := dualFormat_masked 0b1111#4 src dst
theorem coc (src : Operand) (d : BitVec 4) : Statement (.coc src d) := regFormat_masked 0b001000#6 src d
theorem czc (src : Operand) (d : BitVec 4) : Statement (.czc src d) := regFormat_masked 0b001001#6 src d
theorem xor (src : Operand) (d : BitVec 4) : Statement (.xor src d) := regFormat_masked 0b001010#6 src d
theorem xop (src : Operand) (n : BitVec 4) : Statement (.xop src n) := regFormat_masked 0b001011#6 src n
theorem ldcr (src : Operand) (count : BitVec 4) : Statement (.ldcr src count) := regFormat_masked 0b001100#6 src count
theorem stcr (dst : Operand) (count : BitVec 4) : Statement (.stcr dst count) := regFormat_masked 0b001101#6 dst count
theorem mpy (src : Operand) (d : BitVec 4) : Statement (.mpy src d) := regFormat_masked 0b001110#6 src d
theorem div (src : Operand) (d : BitVec 4) : Statement (.div src d) := regFormat_masked 0b001111#6 src d
theorem blwp (src : Operand) : Statement (.blwp src) := singleFormat_masked 0b0000010000#10 src
theorem b (src : Operand) : Statement (.b src) := singleFormat_masked 0b0000010001#10 src
theorem x (src : Operand) : Statement (.x src) := singleFormat_masked 0b0000010010#10 src
theorem clr (dst : Operand) : Statement (.clr dst) := singleFormat_masked 0b0000010011#10 dst
theorem neg (dst : Operand) : Statement (.neg dst) := singleFormat_masked 0b0000010100#10 dst
theorem inv (dst : Operand) : Statement (.inv dst) := singleFormat_masked 0b0000010101#10 dst
theorem inc (dst : Operand) : Statement (.inc dst) := singleFormat_masked 0b0000010110#10 dst
theorem inct (dst : Operand) : Statement (.inct dst) := singleFormat_masked 0b0000010111#10 dst
theorem dec (dst : Operand) : Statement (.dec dst) := singleFormat_masked 0b0000011000#10 dst
theorem dect (dst : Operand) : Statement (.dect dst) := singleFormat_masked 0b0000011001#10 dst
theorem bl (src : Operand) : Statement (.bl src) := singleFormat_masked 0b0000011010#10 src
theorem swpb (dst : Operand) : Statement (.swpb dst) := singleFormat_masked 0b0000011011#10 dst
theorem seto (dst : Operand) : Statement (.seto dst) := singleFormat_masked 0b0000011100#10 dst
theorem abs (dst : Operand) : Statement (.abs dst) := singleFormat_masked 0b0000011101#10 dst
theorem sra (count : BitVec 4) (w : Reg) : Statement (.sra count w) := shiftFormat_masked 0b00001000#8 count w
theorem srl (count : BitVec 4) (w : Reg) : Statement (.srl count w) := shiftFormat_masked 0b00001001#8 count w
theorem sla (count : BitVec 4) (w : Reg) : Statement (.sla count w) := shiftFormat_masked 0b00001010#8 count w
theorem src (count : BitVec 4) (w : Reg) : Statement (.src count w) := shiftFormat_masked 0b00001011#8 count w
theorem jmp (disp : BitVec 8) : Statement (.jmp disp) := dispFormat_masked 0b00010000#8 disp
theorem jlt (disp : BitVec 8) : Statement (.jlt disp) := dispFormat_masked 0b00010001#8 disp
theorem jle (disp : BitVec 8) : Statement (.jle disp) := dispFormat_masked 0b00010010#8 disp
theorem jeq (disp : BitVec 8) : Statement (.jeq disp) := dispFormat_masked 0b00010011#8 disp
theorem jhe (disp : BitVec 8) : Statement (.jhe disp) := dispFormat_masked 0b00010100#8 disp
theorem jgt (disp : BitVec 8) : Statement (.jgt disp) := dispFormat_masked 0b00010101#8 disp
theorem jne (disp : BitVec 8) : Statement (.jne disp) := dispFormat_masked 0b00010110#8 disp
theorem jnc (disp : BitVec 8) : Statement (.jnc disp) := dispFormat_masked 0b00010111#8 disp
theorem joc (disp : BitVec 8) : Statement (.joc disp) := dispFormat_masked 0b00011000#8 disp
theorem jno (disp : BitVec 8) : Statement (.jno disp) := dispFormat_masked 0b00011001#8 disp
theorem jl (disp : BitVec 8) : Statement (.jl disp) := dispFormat_masked 0b00011010#8 disp
theorem jh (disp : BitVec 8) : Statement (.jh disp) := dispFormat_masked 0b00011011#8 disp
theorem jop (disp : BitVec 8) : Statement (.jop disp) := dispFormat_masked 0b00011100#8 disp
theorem sbo (disp : BitVec 8) : Statement (.sbo disp) := dispFormat_masked 0b00011101#8 disp
theorem sbz (disp : BitVec 8) : Statement (.sbz disp) := dispFormat_masked 0b00011110#8 disp
theorem tb (disp : BitVec 8) : Statement (.tb disp) := dispFormat_masked 0b00011111#8 disp
theorem li (w : Reg) : Statement (.li w) := wordRegFormat_masked 0b00000010000#11 w
theorem ai (w : Reg) : Statement (.ai w) := wordRegFormat_masked 0b00000010001#11 w
theorem andi (w : Reg) : Statement (.andi w) := wordRegFormat_masked 0b00000010010#11 w
theorem ori (w : Reg) : Statement (.ori w) := wordRegFormat_masked 0b00000010011#11 w
theorem ci (w : Reg) : Statement (.ci w) := wordRegFormat_masked 0b00000010100#11 w
theorem stwp (w : Reg) : Statement (.stwp w) := wordRegFormat_masked 0b00000010101#11 w
theorem stst (w : Reg) : Statement (.stst w) := wordRegFormat_masked 0b00000010110#11 w
theorem lwpi : Statement .lwpi := controlFormat_masked 0b00000010111#11
theorem limi : Statement .limi := controlFormat_masked 0b00000011000#11
theorem idle : Statement .idle := controlFormat_masked 0b00000011010#11
theorem rset : Statement .rset := controlFormat_masked 0b00000011011#11
theorem rtwp : Statement .rtwp := controlFormat_masked 0b00000011100#11
theorem ckon : Statement .ckon := controlFormat_masked 0b00000011101#11
theorem ckof : Statement .ckof := controlFormat_masked 0b00000011110#11
theorem lrex : Statement .lrex := controlFormat_masked 0b00000011111#11

end Sys2Proof.Laws.TablePattern
end

