-- ==== Sys2Proof/Laws/Traps.lean ====
section
/-! SUPPORT. What the context switch and the return can do, said once: on any memory map as a frame, over
plain RAM as equations. -/

namespace Sys2Proof.Machine

/-- The words of the workspace at `w` that a context switch stores into (R273), R11 with them when XOP
leaves a link (R180). -/
def savedBytes (w : Word) (link : Option Word) (c : Word) : Prop :=
  (link ≠ none ∧ wordBytes (w + 22#16) c) ∨ wordBytes (w + 26#16) c ∨ wordBytes (w + 28#16) c ∨
    wordBytes (w + 30#16) c

/-- Everything a context switch can do on any memory map: its saved words, WP and PC, and nothing
else. -/
theorem contextSwitch_next {v : Word} {link : Option Word} {s t : State}
    (h : contextSwitch v link s = .next t) :
    ∃ w u, readWord v s = .next (w, u) ∧ t.wp = evenAddr w ∧
      Frame (savedBytes (evenAddr w) link) (s.withWp t.wp) t ∧ t.st = s.st ∧
      t.pc.getLsbD 0 = false ∧ (s.mem.wf = true → t.mem.wf = true) := by
  obtain ⟨w, s1, hw, h1⟩ := andThen_eq_next.mp h
  obtain ⟨s2, hl, h2⟩ := andDo_eq_next.mp h1
  obtain ⟨s3, h13, h3⟩ := andDo_eq_next.mp h2
  obtain ⟨s4, h14, h4⟩ := andDo_eq_next.mp h3
  obtain ⟨s5, h15, h5⟩ := andDo_eq_next.mp h4
  obtain ⟨npc, s6, hp, hn⟩ := andThen_eq_next.mp h5
  cases hn
  have k1 := readWord_steady hw
  have k2 : Steady (fun c => link ≠ none ∧ wordBytes (evenAddr w + 22#16) c) 0#16 s1 s2 := by
    cases link with
    | none =>
      cases hl
      exact ⟨Frame.refl _, rfl, by simp, id⟩
    | some a => exact (writeWord_steady hl).mono fun c hc => ⟨by simp, hc⟩
  have k := ((((k1.trans k2).trans (writeWord_steady h13)).trans (writeWord_steady h14)).trans
    (writeWord_steady h15)).trans (readWord_steady hp)
  refine ⟨w, s1, hw, by simp [State.goto, State.setWP], ?_, k.st,
    evenAddr_getLsbD_zero npc, k.wf⟩
  have f := k.frame
  refine ⟨fun c hc => f.mem c ?_, rfl, f.mask, f.x, f.idle, f.inhibit, f.faulted, f.pendingX,
    f.regions, f.samples, f.requestsEnd, f.cruInputs⟩
  rintro (((((hf | hf) | hf) | hf) | hf) | hf)
  · exact hf
  · exact hc (.inl hf)
  · exact hc (.inr (.inl hf))
  · exact hc (.inr (.inr (.inl hf)))
  · exact hc (.inr (.inr (.inr hf)))
  · exact hf

/-- The stores of a context switch over plain RAM, into the workspace at `w`. -/
def State.linked (s : State) (w : Word) (link : Option Word) : State :=
  ((((match link with
    | some a => s.storeWord (w + 22#16) a
    | none => s).storeWord (w + 26#16) s.wp).storeWord (w + 28#16) s.pc).storeWord (w + 30#16)
    s.st.toWord)

/-! The stores of a context switch leave every field but `mem` and `events` alone. -/

@[simp] theorem State.linked_pc (s : State) (w : Word) (link : Option Word) :
    (s.linked w link).pc = s.pc := by cases link <;> simp [State.linked]
@[simp] theorem State.linked_wp (s : State) (w : Word) (link : Option Word) :
    (s.linked w link).wp = s.wp := by cases link <;> simp [State.linked]
@[simp] theorem State.linked_st (s : State) (w : Word) (link : Option Word) :
    (s.linked w link).st = s.st := by cases link <;> simp [State.linked]
@[simp] theorem State.linked_idle (s : State) (w : Word) (link : Option Word) :
    (s.linked w link).idle = s.idle := by cases link <;> simp [State.linked]
@[simp] theorem State.linked_inhibit (s : State) (w : Word) (link : Option Word) :
    (s.linked w link).inhibit = s.inhibit := by cases link <;> simp [State.linked]
@[simp] theorem State.linked_faulted (s : State) (w : Word) (link : Option Word) :
    (s.linked w link).faulted = s.faulted := by cases link <;> simp [State.linked]
@[simp] theorem State.linked_pendingX (s : State) (w : Word) (link : Option Word) :
    (s.linked w link).pendingX = s.pendingX := by cases link <;> simp [State.linked]
@[simp] theorem State.linked_regions (s : State) (w : Word) (link : Option Word) :
    (s.linked w link).regions = s.regions := by cases link <;> simp [State.linked]
@[simp] theorem State.linked_samples (s : State) (w : Word) (link : Option Word) :
    (s.linked w link).samples = s.samples := by cases link <;> simp [State.linked]
@[simp] theorem State.linked_requestsEnd (s : State) (w : Word) (link : Option Word) :
    (s.linked w link).requestsEnd = s.requestsEnd := by cases link <;> simp [State.linked]
@[simp] theorem State.linked_cruInputs (s : State) (w : Word) (link : Option Word) :
    (s.linked w link).cruInputs = s.cruInputs := by cases link <;> simp [State.linked]
@[simp] theorem State.linked_draws (s : State) (w : Word) (link : Option Word) :
    (s.linked w link).draws = s.draws := by cases link <;> simp [State.linked]

/-- The stores of a context switch change memory, and what the environment has seen. -/
theorem State.linked_eq (s : State) (w : Word) (link : Option Word) :
    s.linked w link = (s.withMem (s.linked w link).mem).withEvents (s.linked w link).events := by
  cases link <;> (apply State.eq_of_fields <;> simp [State.linked])

/-- What the environment sees of a context switch over plain RAM, newest first. -/
theorem State.linked_events (s : State) (w : Word) (link : Option Word) :
    (s.linked w link).events = .memWrite (evenAddr (w + 30#16)) s.st.toWord ::
      .memWrite (evenAddr (w + 28#16)) s.pc :: .memWrite (evenAddr (w + 26#16)) s.wp ::
      ((link.map fun a => Event.memWrite (evenAddr (w + 22#16)) a).toList ++ s.events) := by
  cases link <;> simp [State.linked]

/-- The context switch over plain RAM (R273). -/
theorem contextSwitch_allRam {s : State} (h : s.AllRam) (v : Word) (link : Option Word) :
    contextSwitch v link s =
      .next ((((s.linked (evenAddr (s.wordAt v)) link).withWp (evenAddr (s.wordAt v)))).withPc
        (evenAddr ((s.linked (evenAddr (s.wordAt v)) link).wordAt (v + 2#16)))) := by
  have ram : ∀ {t : State}, t.AllRam → ∀ a x, (t.storeWord a x).AllRam :=
    fun ht _ _ => ht.congr rfl
  have finish : ∀ {t : State}, t.AllRam → ∀ w : Word,
      (andDo (writeWord (w + 26#16) t.wp t) fun s3 =>
        andDo (writeWord (w + 28#16) s3.pc s3) fun s4 =>
        andDo (writeWord (w + 30#16) s4.st.toWord s4) fun s5 =>
        andThen (readWord (v + 2#16) s5) fun npc s6 => .next ((s6.setWP w).goto npc)) =
      Host.Outcome.next (σ := State) (φ := Fault) (ρ := Refusal)
        (((((t.storeWord (w + 26#16) t.wp).storeWord (w + 28#16) t.pc).storeWord (w + 30#16)
          t.st.toWord).setWP w).goto ((((t.storeWord (w + 26#16) t.wp).storeWord (w + 28#16)
          t.pc).storeWord (w + 30#16) t.st.toWord).wordAt (v + 2#16))) := by
    intro t ht w
    have h1 := ram ht (w + 26#16) t.wp
    have h2 := ram h1 (w + 28#16) t.pc
    have h3 := ram h2 (w + 30#16) t.st.toWord
    rw [writeWord_allRam ht, andDo_next, writeWord_allRam h1, andDo_next]
    simp only [State.storeWord_pc, State.storeWord_st]
    rw [writeWord_allRam h2, andDo_next, readWord_allRam h3, andThen_next]
  unfold contextSwitch
  rw [readWord_allRam h, andThen_next]
  cases link with
  | none =>
    rw [andDo_next, finish h]
    simp only [State.goto, State.setWP, evenAddr_evenAddr]
    rfl
  | some a =>
    simp only
    rw [writeWord_allRam h, andDo_next, finish (ram h _ a)]
    simp only [State.goto, State.setWP, evenAddr_evenAddr]
    rfl

/-- The return over plain RAM (R239). -/
theorem returnWP_allRam {s : State} (h : s.AllRam) :
    returnWP s = .next (((s.withSt (Status.ofWord (s.reg 15#4))).withPc
      (evenAddr (s.reg 14#4))).withWp (evenAddr (s.reg 13#4))) := by
  simp only [returnWP, readReg_allRam h, andThen_next]
  rfl

/-- A word stored is the word read, from any address of it. -/
theorem State.wordAt_storeWord_self {s : State} {a b : Word} (v : Word) (h : s.mem.wf = true)
    (hab : evenAddr b = evenAddr a) : (s.storeWord a v).wordAt b = v := by
  unfold State.wordAt
  rw [hab]
  have h0 : (s.storeWord a v).byteAt (evenAddr a) = hiByte v := by
    refine (State.byteAt_storeByte_ne (loByte v) (s.storeByte (evenAddr a) (hiByte v)) ?_).trans
      (State.byteAt_storeByte_self _ _ h)
    intro hc
    have := congrArg BitVec.toNat hc
    rw [evenAddr_succ_toNat, evenAddr_toNat] at this
    omega
  have h1 : (s.storeWord a v).byteAt (evenAddr a + 1#16) = loByte v :=
    State.byteAt_storeByte_self (loByte v) (s.storeByte (evenAddr a) (hiByte v))
      (State.storeByte_wf _ _ h)
  rw [h0, h1, hiByte_append_loByte]

/-- A word store leaves every other word as it was. -/
theorem State.wordAt_storeWord_ne {s : State} {a b : Word} (v : Word)
    (hab : evenAddr b ≠ evenAddr a) : (s.storeWord a v).wordAt b = s.wordAt b := by
  unfold State.wordAt
  rw [State.byteAt_storeWord_ne v s (by rwa [evenAddr_evenAddr]),
    State.byteAt_storeWord_ne v s (by rwa [evenAddr_succ])]

end Sys2Proof.Machine
end

