-- ==== Sys2Proof/Tests/Slice0.lean ====
section
/-! SUPPORT. The model's own tests, all by the kernel: the smoke tests of WellFormed, one word written out
from the spec's encoding for every constructor, single steps with the results the spec's rules and
spec/95_test_vectors.md give, and for each statement with hypotheses a state that meets them. -/

namespace Sys2Proof.Tests
open Sys2Proof.Machine

/-! ## Helpers -/

/-- A machine over plain RAM at PC 0x0100 with workspace 0x8300, to which nothing is presented: the
registers from R0 on, and status. -/
def machine (code regs : List Word) (st : Word) : State :=
  (((((State.reset.withInhibit false).withRequestsEnd true).withSt (Status.ofWord st)).loadWords 0x8300#16 regs).loadWords
    0x0100#16 code)

/-- What a step leaves, when it leaves a state. -/
def after (r : Host.Outcome State Fault Refusal) : Option State :=
  match r with
  | .next t => some t
  | _ => none

/-- The register, the status word and PC after one step. -/
def result (code regs : List Word) (st : Word) (r : Reg) : Option (Word × Word × Word) :=
  (after (step (machine code regs st))).map fun t => (t.reg r, t.st.toWord, t.pc)

/-- The status word and PC after one step. -/
def status (code regs : List Word) (st : Word) : Option (Word × Word) :=
  (after (step (machine code regs st))).map fun t => (t.st.toWord, t.pc)

/-! ## WellFormed -/

theorem test_indexed_on_r0_is_ill_formed : (Operand.indexed 0#4).wellFormed = false := by decide
theorem test_ill_formed_source_refused : (Instr.a (.indexed 0#4) (.reg 1#4)).wellFormed = false := by
  decide
theorem test_ill_formed_destination_refused :
    (Instr.mov (.reg 1#4) (.indexed 0#4)).wellFormed = false := by decide
theorem test_ill_formed_single_operand_refused : (Instr.bl (.indexed 0#4)).wellFormed = false := by
  decide
theorem test_ill_formed_register_format_refused :
    (Instr.ldcr (.indexed 0#4) 3#4).wellFormed = false := by decide
theorem test_symbolic_is_well_formed : (Instr.mov .symbolic (.indexed 1#4)).wellFormed = true := by
  decide

/-! ## Decoding: words written out field by field from the encodings of spec/30_encoding.md -/

/-- Format DUAL (R81): opcode, Td, D, Ts, S. -/
theorem test_decode_two_operands :
    decode 0b0100010011000010#16 = some (.szc (.reg 2#4) (.indirect 3#4)) ∧
    decode 0b0101100101010011#16 = some (.szcb (.indirect 3#4) (.indexed 5#4)) ∧
    decode 0b0110000010100000#16 = some (.s .symbolic (.reg 2#4)) ∧
    decode 0b0111100000100101#16 = some (.sb (.indexed 5#4) .symbolic) ∧
    decode 0b1000110110110110#16 = some (.c (.autoInc 6#4) (.autoInc 6#4)) ∧
    decode 0b1001010011000010#16 = some (.cb (.reg 2#4) (.indirect 3#4)) ∧
    decode 0b1010100101010011#16 = some (.a (.indirect 3#4) (.indexed 5#4)) ∧
    decode 0b1011000010100000#16 = some (.ab .symbolic (.reg 2#4)) ∧
    decode 0b1100100000100101#16 = some (.mov (.indexed 5#4) .symbolic) ∧
    decode 0b1101110110110110#16 = some (.movb (.autoInc 6#4) (.autoInc 6#4)) ∧
    decode 0b1110010011000010#16 = some (.soc (.reg 2#4) (.indirect 3#4)) ∧
    decode 0b1111100101010011#16 = some (.socb (.indirect 3#4) (.indexed 5#4)) := by decide

/-- Formats DREG, XOP and CRUM (R82-R84): opcode, D or number or count, Ts, S. -/
theorem test_decode_register_formats :
    decode 0b0010001001000010#16 = some (.coc (.reg 2#4) 9#4) ∧
    decode 0b0010011001010011#16 = some (.czc (.indirect 3#4) 9#4) ∧
    decode 0b0010101001100000#16 = some (.xor .symbolic 9#4) ∧
    decode 0b0010111001100101#16 = some (.xop (.indexed 5#4) 9#4) ∧
    decode 0b0011001001110110#16 = some (.ldcr (.autoInc 6#4) 9#4) ∧
    decode 0b0011011001000010#16 = some (.stcr (.reg 2#4) 9#4) ∧
    decode 0b0011101001010011#16 = some (.mpy (.indirect 3#4) 9#4) ∧
    decode 0b0011111001100000#16 = some (.div .symbolic 9#4) := by decide

/-- Format SINGLE (R85): opcode, Ts, S. -/
theorem test_decode_one_operand :
    decode 0b0000010000000010#16 = some (.blwp (.reg 2#4)) ∧
    decode 0b0000010001010011#16 = some (.b (.indirect 3#4)) ∧
    decode 0b0000010010100000#16 = some (.x .symbolic) ∧
    decode 0b0000010011100101#16 = some (.clr (.indexed 5#4)) ∧
    decode 0b0000010100110110#16 = some (.neg (.autoInc 6#4)) ∧
    decode 0b0000010101000010#16 = some (.inv (.reg 2#4)) ∧
    decode 0b0000010110010011#16 = some (.inc (.indirect 3#4)) ∧
    decode 0b0000010111100000#16 = some (.inct .symbolic) ∧
    decode 0b0000011000100101#16 = some (.dec (.indexed 5#4)) ∧
    decode 0b0000011001110110#16 = some (.dect (.autoInc 6#4)) ∧
    decode 0b0000011010000010#16 = some (.bl (.reg 2#4)) ∧
    decode 0b0000011011010011#16 = some (.swpb (.indirect 3#4)) ∧
    decode 0b0000011100100000#16 = some (.seto .symbolic) ∧
    decode 0b0000011101100101#16 = some (.abs (.indexed 5#4)) := by decide

/-- Format SHIFT (R87): opcode, C, W. -/
theorem test_decode_shifts :
    decode 0b0000100001110010#16 = some (.sra 7#4 2#4) ∧
    decode 0b0000100101110010#16 = some (.srl 7#4 2#4) ∧
    decode 0b0000101001110010#16 = some (.sla 7#4 2#4) ∧
    decode 0b0000101101110010#16 = some (.src 7#4 2#4) := by decide

/-- Format DISP (R86): opcode, displacement. -/
theorem test_decode_displacements :
    decode 0b0001000010000001#16 = some (.jmp 0x81#8) ∧
    decode 0b0001000110000001#16 = some (.jlt 0x81#8) ∧
    decode 0b0001001010000001#16 = some (.jle 0x81#8) ∧
    decode 0b0001001110000001#16 = some (.jeq 0x81#8) ∧
    decode 0b0001010010000001#16 = some (.jhe 0x81#8) ∧
    decode 0b0001010110000001#16 = some (.jgt 0x81#8) ∧
    decode 0b0001011010000001#16 = some (.jne 0x81#8) ∧
    decode 0b0001011110000001#16 = some (.jnc 0x81#8) ∧
    decode 0b0001100010000001#16 = some (.joc 0x81#8) ∧
    decode 0b0001100110000001#16 = some (.jno 0x81#8) ∧
    decode 0b0001101010000001#16 = some (.jl 0x81#8) ∧
    decode 0b0001101110000001#16 = some (.jh 0x81#8) ∧
    decode 0b0001110010000001#16 = some (.jop 0x81#8) ∧
    decode 0b0001110110000001#16 = some (.sbo 0x81#8) ∧
    decode 0b0001111010000001#16 = some (.sbz 0x81#8) ∧
    decode 0b0001111110000001#16 = some (.tb 0x81#8) := by decide

/-- Formats IMM and STORE (R88, R90): opcode, filler, W. -/
theorem test_decode_immediates_and_stores :
    decode 0b0000001000001011#16 = some (.li 11#4) ∧
    decode 0b0000001000101011#16 = some (.ai 11#4) ∧
    decode 0b0000001001001011#16 = some (.andi 11#4) ∧
    decode 0b0000001001101011#16 = some (.ori 11#4) ∧
    decode 0b0000001010001011#16 = some (.ci 11#4) ∧
    decode 0b0000001010101011#16 = some (.stwp 11#4) ∧
    decode 0b0000001011001011#16 = some (.stst 11#4) := by decide

/-- Formats IMMI and CTRL (R89, R91): opcode, filler. -/
theorem test_decode_control :
    decode 0b0000001011100000#16 = some .lwpi ∧
    decode 0b0000001100000000#16 = some .limi ∧
    decode 0b0000001101000000#16 = some .idle ∧
    decode 0b0000001101100000#16 = some .rset ∧
    decode 0b0000001110000000#16 = some .rtwp ∧
    decode 0b0000001110100000#16 = some .ckon ∧
    decode 0b0000001111000000#16 = some .ckof ∧
    decode 0b0000001111100000#16 = some .lrex := by decide

/-- Filler bits carry no meaning (R101); the four unassigned ranges end where R100 says. -/
theorem test_decode_filler_and_unassigned :
    decode 0x039F#16 = some .rtwp ∧ decode 0x0211#16 = some (.li 1#4) ∧ decode 0x01FF#16 = none ∧
    decode 0x0320#16 = none ∧ decode 0x033F#16 = none ∧ decode 0x0780#16 = none ∧
    decode 0x07FF#16 = none ∧ decode 0x0C00#16 = none ∧ decode 0x0FFF#16 = none := by decide

/-- The encoder gives the words of the spec's examples back. -/
theorem test_encode_examples :
    encode (.a (.reg 1#4) (.reg 2#4)) = 0xA081#16 ∧ encode (.bl .symbolic) = 0x06A0#16 ∧
    encode (.xop (.reg 1#4) 2#4) = 0x2C81#16 ∧ encode .rtwp = 0x0380#16 ∧
    encode (.dect (.reg 10#4)) = 0x064A#16 := by decide

/-- A byte stream is read most significant byte first, and its rest is kept (R54, R97). -/
theorem test_decode_bytes :
    decodeBytes [0x02#8, 0x01#8, 0x12#8, 0x34#8] = .instr (.li 1#4) [0x12#8, 0x34#8] ∧
    decodeBytes [0x02#8] = .tooShort ∧ decodeBytes [0x00#8, 0x00#8] = .unassigned 0x0000#16 := by
  decide

/-! ## One step each, with the results of the examples in the instruction's own rule -/

/-- R131, and the flags not listed stay (R125) -/
theorem test_a_overflow :
    result [0xA081#16] [0x0000#16, 0x7FFF#16, 0x0001#16] 0x0000#16 2#4 =
      some (0x8000#16, 0x8800#16, 0x0102#16) := by decide
/-- R117: A *R1+,*R1+ adds the word at a into the word at a + 2 -/
theorem test_a_source_before_destination :
    result [0xAC71#16] [0x0000#16, 0x8304#16, 0x0005#16, 0x0007#16] 0x0000#16 3#4 =
      some (0x000C#16, 0xC000#16, 0x0102#16) := by decide
/-- R132 -/
theorem test_ab_carry :
    result [0xB081#16] [0x0000#16, 0xFF12#16, 0x0134#16] 0x0000#16 2#4 =
      some (0x0034#16, 0x3000#16, 0x0102#16) := by decide
/-- R133 -/
theorem test_c_unsigned_and_signed :
    status [0x8081#16] [0x0000#16, 0xFFFF#16, 0x0001#16] 0x0000#16 = some (0x8000#16, 0x0102#16) := by decide
/-- R134 -/
theorem test_cb_parity_of_source :
    status [0x9081#16] [0x0000#16, 0x80AA#16, 0x7FBB#16] 0x0000#16 = some (0x8400#16, 0x0102#16) := by decide
/-- R135 -/
theorem test_s_overflow :
    result [0x6081#16] [0x0000#16, 0x0001#16, 0x8000#16] 0x0000#16 2#4 =
      some (0x7FFF#16, 0xD800#16, 0x0102#16) := by decide
/-- R136 -/
theorem test_sb_keeps_low_byte :
    result [0x7081#16] [0x0000#16, 0x0100#16, 0x01CD#16] 0x0000#16 2#4 =
      some (0x00CD#16, 0x3000#16, 0x0102#16) := by decide
/-- R137 -/
theorem test_soc_or :
    result [0xE081#16] [0x0000#16, 0x00F0#16, 0x0F00#16] 0x0000#16 2#4 =
      some (0x0FF0#16, 0xC000#16, 0x0102#16) := by decide
/-- R138 -/
theorem test_socb_or :
    result [0xF081#16] [0x0000#16, 0x8100#16, 0x01FF#16] 0x0000#16 2#4 =
      some (0x81FF#16, 0x8000#16, 0x0102#16) := by decide
/-- R139 -/
theorem test_szc_and_not :
    result [0x4081#16] [0x0000#16, 0x00FF#16, 0x1234#16] 0x0000#16 2#4 =
      some (0x1200#16, 0xC000#16, 0x0102#16) := by decide
/-- R140 -/
theorem test_szcb_and_not :
    result [0x5081#16] [0x0000#16, 0xF000#16, 0xFF55#16] 0x0000#16 2#4 =
      some (0x0F55#16, 0xC000#16, 0x0102#16) := by decide
/-- R141, R125: C and OV stay -/
theorem test_mov_keeps_carry :
    result [0xC081#16] [0x0000#16, 0x8000#16, 0x0000#16] 0x1800#16 2#4 =
      some (0x8000#16, 0x9800#16, 0x0102#16) := by decide
/-- R117: MOV *R1+,R1 leaves the word -/
theorem test_mov_auto_increment_overwritten :
    result [0xC071#16] [0x0000#16, 0x8306#16, 0x0005#16, 0x1234#16] 0x0000#16 1#4 =
      some (0x1234#16, 0xC000#16, 0x0102#16) := by decide
/-- R142 -/
theorem test_movb_keeps_low_byte :
    result [0xD081#16] [0x0000#16, 0x0799#16, 0xAABB#16] 0x0000#16 2#4 =
      some (0x07BB#16, 0xC400#16, 0x0102#16) := by decide
/-- R151 -/
theorem test_coc_all_ones_there :
    status [0x2081#16] [0x0000#16, 0x00F0#16, 0x12F4#16] 0x0000#16 = some (0x2000#16, 0x0102#16) := by decide
/-- R151 -/
theorem test_coc_a_one_missing :
    status [0x2081#16] [0x0000#16, 0x00F0#16, 0x12E4#16] 0x0000#16 = some (0x0000#16, 0x0102#16) := by decide
/-- R152 -/
theorem test_czc_all_zeros_there :
    status [0x2481#16] [0x0000#16, 0x00F0#16, 0x1204#16] 0x0000#16 = some (0x2000#16, 0x0102#16) := by decide
/-- R153 -/
theorem test_xor :
    result [0x2881#16] [0x0000#16, 0xFF00#16, 0x0FF0#16] 0x0000#16 2#4 =
      some (0xF0F0#16, 0x8000#16, 0x0102#16) := by decide
/-- R154 -/
theorem test_mpy_high_word :
    result [0x3881#16] [0x0000#16, 0xFFFF#16, 0xFFFF#16] 0x0000#16 2#4 =
      some (0xFFFE#16, 0x0000#16, 0x0102#16) := by decide
/-- R154 -/
theorem test_mpy_low_word :
    result [0x3881#16] [0x0000#16, 0x0003#16, 0x0005#16] 0x0000#16 3#4 =
      some (0x000F#16, 0x0000#16, 0x0102#16) := by decide
/-- R155: OV cleared -/
theorem test_div_quotient :
    result [0x3C81#16] [0x0000#16, 0x0007#16, 0x0000#16, 0x0064#16] 0x0800#16 2#4 =
      some (0x000E#16, 0x0000#16, 0x0102#16) := by decide
/-- R155: OV set, registers unchanged -/
theorem test_div_not_performed :
    result [0x3C81#16] [0x0000#16, 0x0002#16, 0x0002#16, 0x0000#16] 0x0000#16 2#4 =
      some (0x0002#16, 0x0800#16, 0x0102#16) := by decide
/-- R164: ST unchanged -/
theorem test_clr :
    result [0x04C1#16] [0x0000#16, 0x1234#16] 0xF80F#16 1#4 =
      some (0x0000#16, 0xF80F#16, 0x0102#16) := by decide
/-- R165 -/
theorem test_seto :
    result [0x0701#16] [0x0000#16, 0x0000#16] 0x0000#16 1#4 =
      some (0xFFFF#16, 0x0000#16, 0x0102#16) := by decide
/-- R166 -/
theorem test_inv :
    result [0x0541#16] [0x0000#16, 0x00FF#16] 0x0000#16 1#4 =
      some (0xFF00#16, 0x8000#16, 0x0102#16) := by decide
/-- R167 -/
theorem test_neg :
    result [0x0501#16] [0x0000#16, 0x0001#16] 0x0000#16 1#4 =
      some (0xFFFF#16, 0x8000#16, 0x0102#16) := by decide
/-- R167 -/
theorem test_neg_most_negative :
    result [0x0501#16] [0x0000#16, 0x8000#16] 0x0000#16 1#4 =
      some (0x8000#16, 0x8800#16, 0x0102#16) := by decide
/-- R168: flags of the operand, C cleared -/
theorem test_abs_negative :
    result [0x0741#16] [0x0000#16, 0xFFFE#16] 0x1000#16 1#4 =
      some (0x0002#16, 0x8000#16, 0x0102#16) := by decide
/-- R168 -/
theorem test_abs_most_negative :
    result [0x0741#16] [0x0000#16, 0x8000#16] 0x0000#16 1#4 =
      some (0x8000#16, 0x8800#16, 0x0102#16) := by decide
/-- R169 -/
theorem test_swpb :
    result [0x06C1#16] [0x0000#16, 0x1234#16] 0x0000#16 1#4 =
      some (0x3412#16, 0x0000#16, 0x0102#16) := by decide
/-- R170 -/
theorem test_inc_wraps :
    result [0x0581#16] [0x0000#16, 0xFFFF#16] 0x0000#16 1#4 =
      some (0x0000#16, 0x3000#16, 0x0102#16) := by decide
/-- R171 -/
theorem test_inct_overflow :
    result [0x05C1#16] [0x0000#16, 0x7FFE#16] 0x0000#16 1#4 =
      some (0x8000#16, 0x8800#16, 0x0102#16) := by decide
/-- R172 -/
theorem test_dec_borrow :
    result [0x0601#16] [0x0000#16, 0x0000#16] 0x0000#16 1#4 =
      some (0xFFFF#16, 0x8000#16, 0x0102#16) := by decide
/-- R173 -/
theorem test_dect :
    result [0x064A#16] [0x0000#16, 0x0000#16, 0x0000#16, 0x0000#16, 0x0000#16, 0x0000#16, 0x0000#16, 0x0000#16, 0x0000#16, 0x0000#16, 0x8400#16] 0x0000#16 10#4 =
      some (0x83FE#16, 0x9000#16, 0x0102#16) := by decide
/-- R174: PC advanced by 2 only -/
theorem test_x_executes_register :
    result [0x0481#16] [0x0000#16, 0x0582#16, 0x0009#16] 0x0000#16 2#4 =
      some (0x000A#16, 0xC000#16, 0x0102#16) := by decide
/-- R174: the extension words of the target follow X -/
theorem test_x_takes_following_word :
    result [0x0481#16, 0x1234#16] [0x0000#16, 0x0202#16, 0x0000#16] 0x0000#16 2#4 =
      some (0x1234#16, 0xC000#16, 0x0104#16) := by decide
/-- R161 -/
theorem test_b_to_register_contents :
    status [0x045B#16] [0x0000#16, 0x0000#16, 0x0000#16, 0x0000#16, 0x0000#16, 0x0000#16, 0x0000#16, 0x0000#16, 0x0000#16, 0x0000#16, 0x0000#16, 0x1234#16] 0x0000#16 = some (0x0000#16, 0x1234#16) := by decide
/-- R161 -/
theorem test_b_register_mode_goes_to_workspace :
    status [0x0443#16] [0x0000#16, 0x0000#16, 0x0000#16, 0x0000#16] 0x0000#16 = some (0x0000#16, 0x8306#16) := by decide
/-- R162 -/
theorem test_bl_links :
    result [0x06A0#16, 0x0300#16] [0x0000#16, 0x0000#16, 0x0000#16, 0x0000#16, 0x0000#16, 0x0000#16, 0x0000#16, 0x0000#16, 0x0000#16, 0x0000#16, 0x0000#16, 0x0000#16] 0x0000#16 11#4 =
      some (0x0104#16, 0x0000#16, 0x0300#16) := by decide
/-- R162: BL *R11 -/
theorem test_bl_uses_old_r11 :
    result [0x069B#16] [0x0000#16, 0x0000#16, 0x0000#16, 0x0000#16, 0x0000#16, 0x0000#16, 0x0000#16, 0x0000#16, 0x0000#16, 0x0000#16, 0x0000#16, 0x2000#16] 0x0000#16 11#4 =
      some (0x0102#16, 0x0000#16, 0x2000#16) := by decide
/-- R221 -/
theorem test_sla_overflow :
    result [0x0A41#16] [0x0000#16, 0x0FF0#16] 0x0000#16 1#4 =
      some (0xFF00#16, 0x8800#16, 0x0102#16) := by decide
/-- R221 -/
theorem test_sla_no_overflow :
    result [0x0A11#16] [0x0000#16, 0xC000#16] 0x0000#16 1#4 =
      some (0x8000#16, 0x9000#16, 0x0102#16) := by decide
/-- R222 -/
theorem test_sra :
    result [0x0841#16] [0x0000#16, 0x8010#16] 0x0000#16 1#4 =
      some (0xF801#16, 0x8000#16, 0x0102#16) := by decide
/-- R224: low four bits of R0 are 0, so 16 places -/
theorem test_srl_sixteen_from_r0 :
    result [0x0901#16] [0xABC0#16, 0x8010#16] 0x0000#16 1#4 =
      some (0x0000#16, 0x3000#16, 0x0102#16) := by decide
/-- R223 -/
theorem test_src :
    result [0x0B81#16] [0x0000#16, 0x12AB#16] 0x0000#16 1#4 =
      some (0xAB12#16, 0x9000#16, 0x0102#16) := by decide
/-- R225 -/
theorem test_src_r0_counts_and_is_shifted :
    result [0x0B00#16] [0x0004#16] 0x0000#16 0#4 =
      some (0x4000#16, 0xC000#16, 0x0102#16) := by decide
/-- R201 -/
theorem test_jeq_taken :
    status [0x1302#16] [] 0x2000#16 = some (0x2000#16, 0x0106#16) := by decide
/-- R201 -/
theorem test_jeq_not_taken :
    status [0x1302#16] [] 0x0000#16 = some (0x0000#16, 0x0102#16) := by decide
/-- R202 -/
theorem test_jgt_taken :
    status [0x15FE#16] [] 0x4000#16 = some (0x4000#16, 0x00FE#16) := by decide
/-- R202 -/
theorem test_jgt_not_taken :
    status [0x15FE#16] [] 0x8000#16 = some (0x8000#16, 0x0102#16) := by decide
/-- R203 -/
theorem test_jh_taken :
    status [0x1B01#16] [] 0x8000#16 = some (0x8000#16, 0x0104#16) := by decide
/-- R203 -/
theorem test_jh_not_taken :
    status [0x1B01#16] [] 0xA000#16 = some (0xA000#16, 0x0102#16) := by decide
/-- R204 -/
theorem test_jhe_taken :
    status [0x1401#16] [] 0x2000#16 = some (0x2000#16, 0x0104#16) := by decide
/-- R204 -/
theorem test_jhe_not_taken :
    status [0x1401#16] [] 0x0000#16 = some (0x0000#16, 0x0102#16) := by decide
/-- R205 -/
theorem test_jl_taken :
    status [0x1A01#16] [] 0x4000#16 = some (0x4000#16, 0x0104#16) := by decide
/-- R205 -/
theorem test_jl_not_taken :
    status [0x1A01#16] [] 0x2000#16 = some (0x2000#16, 0x0102#16) := by decide
/-- R206 -/
theorem test_jle_taken :
    status [0x1201#16] [] 0x0000#16 = some (0x0000#16, 0x0104#16) := by decide
/-- R206 -/
theorem test_jle_not_taken :
    status [0x1201#16] [] 0x8000#16 = some (0x8000#16, 0x0102#16) := by decide
/-- R207 -/
theorem test_jlt_taken :
    status [0x1101#16] [] 0x8000#16 = some (0x8000#16, 0x0104#16) := by decide
/-- R207 -/
theorem test_jlt_not_taken :
    status [0x1101#16] [] 0x4000#16 = some (0x4000#16, 0x0102#16) := by decide
/-- R209 -/
theorem test_jnc_taken :
    status [0x1701#16] [] 0x0000#16 = some (0x0000#16, 0x0104#16) := by decide
/-- R209 -/
theorem test_jnc_not_taken :
    status [0x1701#16] [] 0x1000#16 = some (0x1000#16, 0x0102#16) := by decide
/-- R211 -/
theorem test_jno_taken :
    status [0x1901#16] [] 0x0000#16 = some (0x0000#16, 0x0104#16) := by decide
/-- R211 -/
theorem test_jno_not_taken :
    status [0x1901#16] [] 0x0800#16 = some (0x0800#16, 0x0102#16) := by decide
/-- R212 -/
theorem test_joc_taken :
    status [0x1801#16] [] 0x1000#16 = some (0x1000#16, 0x0104#16) := by decide
/-- R212 -/
theorem test_joc_not_taken :
    status [0x1801#16] [] 0x0000#16 = some (0x0000#16, 0x0102#16) := by decide
/-- R213 -/
theorem test_jop_taken :
    status [0x1C01#16] [] 0x0400#16 = some (0x0400#16, 0x0104#16) := by decide
/-- R213 -/
theorem test_jop_not_taken :
    status [0x1C01#16] [] 0x0000#16 = some (0x0000#16, 0x0102#16) := by decide
/-- R210 -/
theorem test_jne_taken :
    status [0x16FD#16] [] 0x0000#16 = some (0x0000#16, 0x00FC#16) := by decide
/-- R210 -/
theorem test_jne_not_taken :
    status [0x16FD#16] [] 0x2000#16 = some (0x2000#16, 0x0102#16) := by decide
/-- R208 -/
theorem test_jmp_to_itself :
    status [0x10FF#16] [] 0x0000#16 = some (0x0000#16, 0x0100#16) := by decide
/-- R208 -/
theorem test_jmp_far_back :
    status [0x1080#16] [] 0x0000#16 = some (0x0000#16, 0x0002#16) := by decide
/-- R234 -/
theorem test_li :
    result [0x0201#16, 0x1234#16] [0x0000#16, 0x0000#16] 0x0000#16 1#4 =
      some (0x1234#16, 0xC000#16, 0x0104#16) := by decide
/-- R231 -/
theorem test_ai_minus_one :
    result [0x0221#16, 0xFFFF#16] [0x0000#16, 0x0001#16] 0x0000#16 1#4 =
      some (0x0000#16, 0x3000#16, 0x0104#16) := by decide
/-- R232 -/
theorem test_andi :
    result [0x0241#16, 0x00FF#16] [0x0000#16, 0x1234#16] 0x0000#16 1#4 =
      some (0x0034#16, 0xC000#16, 0x0104#16) := by decide
/-- R235 -/
theorem test_ori :
    result [0x0261#16, 0x8000#16] [0x0000#16, 0x0001#16] 0x0000#16 1#4 =
      some (0x8001#16, 0x8000#16, 0x0104#16) := by decide
/-- R233 -/
theorem test_ci :
    status [0x0281#16, 0x0010#16] [0x0000#16, 0xFFF0#16] 0x0000#16 = some (0x8000#16, 0x0104#16) := by decide
/-- R236 -/
theorem test_limi_low_four_bits :
    status [0x0300#16, 0xFFF5#16] [] 0xC00F#16 = some (0xC005#16, 0x0104#16) := by decide
/-- R238 -/
theorem test_stst :
    result [0x02C5#16] [0x0000#16, 0x0000#16, 0x0000#16, 0x0000#16, 0x0000#16, 0x0000#16] 0xD40A#16 5#4 =
      some (0xD40A#16, 0xD40A#16, 0x0102#16) := by decide
/-- R240 -/
theorem test_stwp :
    result [0x02A5#16] [0x0000#16, 0x0000#16, 0x0000#16, 0x0000#16, 0x0000#16, 0x0000#16] 0x0000#16 5#4 =
      some (0x8300#16, 0x0000#16, 0x0102#16) := by decide
/-- R251 -/
theorem test_rset_clears_mask :
    status [0x0360#16] [] 0xD40A#16 = some (0xD400#16, 0x0102#16) := by decide
/-- R237: an odd immediate loses its least significant bit. -/
theorem test_lwpi_even : (after (step (machine [0x02E0#16, 0x8341#16] [] 0#16))).map
    (fun t => (t.wp, t.pc)) = some (0x8340#16, 0x0104#16) := by decide
/-- R239, the rule's own example. -/
theorem test_rtwp : (after (exec .rtwp (((machine [] [] 0#16).withWp 0x8320#16).loadWords 0x833A#16
    [0x8300#16, 0x0104#16, 0xC1FF#16]))).map (fun t => (t.wp, t.pc, t.st.toWord)) =
    some (0x8300#16, 0x0104#16, 0xC00F#16) := by decide
/-- R157: register 15's pair ends in the word at WP + 32. -/
theorem test_mpy_register_fifteen : (after (exec (.mpy (.reg 1#4) 15#4) (machine []
    [0#16, 0xFFFF#16, 0#16, 0#16, 0#16, 0#16, 0#16, 0#16, 0#16, 0#16, 0#16, 0#16, 0#16, 0#16, 0#16,
      0xFFFF#16] 0#16))).map (fun t => (t.reg 15#4, t.wordAt 0x8320#16)) =
    some (0xFFFE#16, 0x0001#16) := by decide
/-- What a context switch leaves: WP, PC, ST and `inhibit`, and the new R11, R13, R14, R15. -/
def switched (s : State) : Option ((Word × Word × Word × Bool) × List Word) :=
  (after (step s)).map fun t =>
    ((t.wp, t.pc, t.st.toWord, t.inhibit), [t.reg 11#4, t.reg 13#4, t.reg 14#4, t.reg 15#4])
/-- R163, the rule's own example; R11 of the new workspace is left alone. -/
theorem test_blwp : switched (((machine [0x0420#16, 0x0400#16] [] 0xC00F#16).loadWords 0x0400#16
    [0x8320#16, 0x0500#16]).loadWords 0x8336#16 [0xABCD#16]) =
    some ((0x8320#16, 0x0500#16, 0xC00F#16, true), [0xABCD#16, 0x8300#16, 0x0104#16, 0xC00F#16]) := by
  decide
/-- R180, the rule's own example, at 0x0100. -/
theorem test_xop : switched ((machine [0x2C81#16] [0#16, 0#16] 0x0002#16).loadWords 0x0048#16
    [0x8340#16, 0x0600#16]) =
    some ((0x8340#16, 0x0600#16, 0x0202#16, true), [0x8302#16, 0x8300#16, 0x0102#16, 0x0002#16]) := by
  decide

/-! ## The CRU -/

/-- Registers with R1 and R12 as given. -/
def cruRegs (r1 r12 : Word) : List Word :=
  [0#16, r1, 0#16, 0#16, 0#16, 0#16, 0#16, 0#16, 0#16, 0#16, 0#16, 0#16, r12]

/-- R187, the rule's own example; the newest event stands first. -/
theorem test_ldcr_byte : (after (step (machine [0x3201#16] (cruRegs 0xA500#16 0x0100#16) 0#16))).map
    (fun t => (t.events, t.st.toWord)) = some ([.cruOut 0x087#12 true, .cruOut 0x086#12 false,
    .cruOut 0x085#12 true, .cruOut 0x084#12 false, .cruOut 0x083#12 false, .cruOut 0x082#12 true,
    .cruOut 0x081#12 false, .cruOut 0x080#12 true], 0x8000#16) := by decide
/-- R187: nine bits come from the whole word. -/
theorem test_ldcr_word : (after (step (machine [0x3241#16] (cruRegs 0x8101#16 0x1FFE#16) 0#16))).map
    (fun t => (t.events.head?, t.events.length, t.events.getLast?, t.st.toWord)) =
    some (some (.cruOut 0x007#12 true), 9, some (.cruOut 0xFFF#12 true), 0x8000#16) := by decide
/-- R188, the rule's own example. -/
theorem test_stcr : (after (step ((machine [0x3501#16] (cruRegs 0xFFFF#16 0x0100#16) 0#16).withCruInputs
    [true, true, false, true, true]))).map (fun t => (t.reg 1#4, t.st.toWord, t.cruInputs)) =
    some (0x0BFF#16, 0xC400#16, [true]) := by decide
/-- R189, R190: the addresses of the rules' examples. -/
theorem test_sbo : (after (step (machine [0x1D05#16] (cruRegs 0#16 0x0100#16) 0#16))).map
    (fun t => t.events) = some [.cruOut 0x085#12 true] := by decide
theorem test_sbz : (after (step (machine [0x1E05#16] (cruRegs 0#16 0x0100#16) 0#16))).map
    (fun t => t.events) = some [.cruOut 0x085#12 false] := by decide
/-- R191: the flag is set with the bit's value, and cleared. -/
theorem test_tb_sets : (after (step ((machine [0x1FFF#16] (cruRegs 0#16 0x0100#16) 0#16).withCruInputs
    [true]))).map (fun t => t.st.toWord) = some 0x2000#16 := by decide
theorem test_tb_clears : (after (step ((machine [0x1FFF#16] (cruRegs 0#16 0x0100#16) 0x2000#16).withCruInputs
    [false]))).map (fun t => t.st.toWord) = some 0x0000#16 := by decide

/-! ## External instructions, requests, idle -/

/-- R250-R254: the codes on A0-A2, and the idle latch. -/
theorem test_external_codes :
    (after (step (machine [0x0340#16] [] 0#16))).map (fun t => (t.events, t.idle, t.pc)) =
      some ([.ext 2#3], true, 0x0102#16) ∧
    (after (step (machine [0x0360#16] [] 0#16))).map (fun t => t.events) = some [.ext 3#3] ∧
    (after (step (machine [0x03A0#16] [] 0#16))).map (fun t => t.events) = some [.ext 5#3] ∧
    (after (step (machine [0x03C0#16] [] 0#16))).map (fun t => t.events) = some [.ext 6#3] ∧
    (after (step (machine [0x03E0#16] [] 0#16))).map (fun t => t.events) = some [.ext 7#3] := by
  decide

/-- A machine with every vector in place, at a NOP, with one request presented. -/
def requested (q : Sample) (st : Word) : State :=
  ((((machine [0x1000#16] [] st).loadWords 0x0000#16 [0x8340#16, 0x0600#16, 0x8360#16, 0x0700#16,
    0x8380#16, 0x0800#16]).loadWords 0xFFFC#16 [0x83A0#16, 0x0900#16]).withSamples [q])

/-- What stands after a request's step. -/
def entered (s : State) : Option (Word × Word × Word × Word × Word × Bool) :=
  (after (step s)).map fun t => (t.wp, t.pc, t.st.toWord, t.reg 14#4, t.reg 15#4, t.inhibit)

/-- R274: level 2 with mask 2 is taken, the old mask saved and the new one 1. -/
theorem test_interrupt_taken : entered (requested ⟨false, false, some 2#4⟩ 0xC002#16) =
    some (0x8380#16, 0x0800#16, 0xC001#16, 0x0100#16, 0xC002#16, true) := by decide
/-- R265: level 2 with mask 1 is not taken; the instruction at PC runs. -/
theorem test_interrupt_masked :
    (after (step (requested ⟨false, false, some 2#4⟩ 0xC001#16))).map (fun t => (t.pc, t.st.toWord)) =
      some (0x0102#16, 0xC001#16) := by decide
/-- R268: `inhibit` holds a maskable request back once. -/
theorem test_interrupt_inhibited :
    (after (step ((requested ⟨false, false, some 2#4⟩ 0xC00F#16).withInhibit true))).map
      (fun t => (t.pc, t.inhibit)) = some (0x0102#16, false) := by decide
/-- R274: level 0 is taken at mask 0 and leaves mask 0. -/
theorem test_interrupt_level_zero : entered (requested ⟨false, false, some 0#4⟩ 0x0000#16) =
    some (0x8340#16, 0x0600#16, 0x0000#16, 0x0100#16, 0x0000#16, true) := by decide
/-- R271, R275: LOAD goes before an interrupt, whatever `inhibit` says. -/
theorem test_load_taken : entered ((requested ⟨false, true, some 2#4⟩ 0xC00F#16).withInhibit true) =
    some (0x83A0#16, 0x0900#16, 0xC000#16, 0x0100#16, 0xC00F#16, true) := by decide
/-- R271, R300: RESET goes before LOAD; the flags stay. -/
theorem test_reset_taken : entered (requested ⟨true, true, some 2#4⟩ 0xC00F#16) =
    some (0x8340#16, 0x0600#16, 0xC000#16, 0x0100#16, 0xC00F#16, true) := by decide
/-- R250: idle waits, PC stays, the code is emitted again; an accepted request ends it. -/
theorem test_idle_waits : (after (step ((requested ⟨false, false, some 2#4⟩ 0xC001#16).withIdle true))).map
    (fun t => (t.pc, t.idle, t.events)) = some (0x0100#16, true, [.ext 2#3]) := by decide
theorem test_idle_ends : (after (step ((requested ⟨false, false, some 2#4⟩ 0xC002#16).withIdle true))).map
    (fun t => (t.idle, t.reg 14#4)) = some (false, 0x0100#16) := by decide

/-! ## Stops -/

/-- The reason a step stops for, when it does. -/
def stopped (r : Host.Outcome State Fault Refusal) : Option Fault :=
  match r with
  | .fault e => some e
  | _ => none

/-- R100: an unassigned word is the model fault, fetched or through X. -/
theorem test_illegal_fetched : stopped (step (machine [0x0C00#16] [] 0#16)) =
    some (.illegalOpcode 0x0C00#16) := by decide
theorem test_illegal_through_x : stopped (step (machine [0x0481#16] [0#16, 0x0780#16] 0#16)) =
    some (.illegalOpcode 0x0780#16) := by decide
/-- R65: a store to ROM, and a read of an unmapped address. -/
theorem test_rom_write : stopped (step ((machine [0x04D1#16] [0#16, 0x4001#16] 0#16).withRegions
    [⟨0x4000, 0x1000, .rom⟩])) = some (.romWrite 0x4000#16) := by decide
theorem test_unmapped : stopped (step ((machine [0xC091#16] [0#16, 0x4001#16] 0#16).withRegions
    [⟨0x4000, 0x1000, .unmapped⟩])) = some (.unmappedAccess 0x4000#16) := by decide
/-- R65, R61: a device sees the unused read of CLR and then the write. -/
theorem test_device_sees_both_accesses : (after (step ((machine [0x04D1#16] [0#16, 0x4000#16]
    0#16).withRegions [⟨0x4000, 0x1000, .device⟩]))).map (fun t => t.events) =
    some [.deviceWrite 0x4000#16 0x0000#16, .deviceRead 0x4000#16] := by decide

/-! ## Memory -/

/-- R57, R115: an odd pointer reads the word below it and is advanced as it stands. -/
theorem test_odd_pointer : (after (step ((machine [0xC0B1#16] [0#16, 0x1001#16] 0#16).loadWords 0x1000#16
    [0xBEEF#16]))).map (fun t => (t.reg 2#4, t.reg 1#4)) = some (0xBEEF#16, 0x1003#16) := by decide
/-- R55: a byte store into the odd half. -/
theorem test_byte_store_odd : (after (step ((machine [0xD801#16, 0x2001#16] [0#16, 0xAB00#16]
    0#16).loadWords 0x2000#16 [0x1234#16]))).map (fun t => t.wordAt 0x2000#16) = some 0x12AB#16 := by
  decide
/-- Writing the byte an unlisted address is named to read as removes the entry. -/
theorem test_memory_canonical : Memory.set 0 0x83#8 (Memory.set 0 0x11#8 []) = [] ∧
    Memory.wf (Memory.set 0 0x83#8 (Memory.set 5 0x11#8 (Memory.set 1 0x22#8 []))) = true := by decide
/-- R46: the state after reset. -/
theorem test_reset : State.reset.pc = 0x0100#16 ∧ State.reset.wp = 0x8300#16 ∧
    State.reset.st.toWord = 0#16 ∧ State.reset.inhibit = true ∧ State.reset.idle = false := by decide
/-- `withFetchWord` stores what the very next step runs. -/
theorem test_with_fetch_word : (after (step (State.reset.withFetchWord 32 0x12340201))).map
    (fun t => (t.reg 1#4, t.pc)) = some (0x1234#16, 0x0104#16) := by decide
/-- R6, D32: the end of a run, at a self-jump, idle, and before a model fault; not while an X chain is
kept, nor at a NOP, nor while a request is fixed. -/
theorem test_end_of_run : (machine [0x10FF#16] [] 0#16).endOfRun = true ∧
    ((machine [0x1000#16] [] 0#16).withIdle true).endOfRun = true ∧
    (machine [0x0C00#16] [] 0#16).endOfRun = true := by decide
theorem test_no_end_of_run : (machine [0x1000#16] [] 0#16).endOfRun = false ∧
    ((machine [0x10FF#16] [] 0#16).withPendingX (some 0x1000#16)).endOfRun = false ∧
    ((machine [0x10FF#16] [] 0#16).withSamples [⟨false, true, none⟩]).endOfRun = false := by decide

/-! ## What the environment sees of memory (R13) -/

/-- R117, R13: MOVB *R1+,@>2001: the register and the whole word of the byte are seen written, the newest
first. -/
theorem test_writes_are_seen : (after (step ((machine [0xD831#16, 0x2001#16] [0#16, 0x1000#16]
    0#16).loadWords 0x2000#16 [0x1234#16] |>.loadWords 0x1000#16 [0xAB00#16]))).map (fun t => t.events) =
    some [.memWrite 0x2000#16 0x12AB#16, .memWrite 0x8302#16 0x1001#16] := by decide
/-- R273, R13: the three stores of BLWP, R15 the newest. -/
theorem test_switch_is_seen : (after (step ((machine [0x0420#16, 0x0400#16] [] 0xC00F#16).loadWords
    0x0400#16 [0x8320#16, 0x0500#16]))).map (fun t => t.events) = some [.memWrite 0x833E#16 0xC00F#16,
    .memWrite 0x833C#16 0x0104#16, .memWrite 0x833A#16 0x8300#16] := by decide
/-- R127, U13: with nothing fixed a sampling point counts a draw; with a fixed sample it uses that up. -/
theorem test_sampling_points : State.reset.takeSample.draws = 1 ∧
    (State.reset.withSamples [Sample.quiet]).takeSample = State.reset := by decide

/-! ## Witnesses: for each statement with hypotheses, states and operands that meet all of them -/

/-- Plain RAM: A *R1+,R2 at PC, then operands; R1 points at 0x2000, where 0x7FFF stands. -/
def plain : State :=
  (machine [0xA0B1#16, 0x0400#16, 0x0402#16] [0#16, 0x2000#16, 1#16, 3#16] 0x8002#16).loadWords
    0x2000#16 [0x7FFF#16, 0x8000#16]

/-- All RAM and the canonical form, for every state without a memory map. -/
theorem plain_allRam : plain.AllRam := State.allRam_of_no_regions rfl
theorem plain_wf : plain.mem.wf = true := by decide
theorem plain_inv : plain.Inv := ⟨by decide, by decide, plain_wf⟩

/-- Nothing presented is nothing accepted. -/
theorem undisturbed_of_quiet {s : State} (h : (s.faulted, s.pendingX, s.idle, s.sample) =
    (none, none, false, Sample.quiet)) : s.Undisturbed := by
  simp only [Prod.mk.injEq] at h
  obtain ⟨h1, h2, h3, h4⟩ := h
  exact ⟨h1, h2, h3, by rw [h4]; rfl, by rw [h4]; rfl, by rw [h4]; intro l hl; cases hl⟩

/-- A request above the mask, and one held back by `inhibit`, disturb nothing either. -/
theorem undisturbed_of_masked {s : State} (l : BitVec 4)
    (h : (s.faulted, s.pendingX, s.idle, s.sample) = (none, none, false, ⟨false, false, some l⟩))
    (hl : s.accepts l = false) : s.Undisturbed := by
  simp only [Prod.mk.injEq] at h
  obtain ⟨h1, h2, h3, h4⟩ := h
  refine ⟨h1, h2, h3, by rw [h4], by rw [h4], ?_⟩
  rw [h4]
  intro k hk
  cases hk
  exact hl

/-- A memory map with a range of each kind. -/
def mapped : State := plain.withRegions
  [⟨0x4000, 0x1000, .rom⟩, ⟨0x5000, 0x1000, .device⟩, ⟨0x6000, 0x1000, .unmapped⟩]

theorem witness_DecodeOfEncodeIsIdentity :
    (Instr.socb (.indexed 15#4) (.autoInc 15#4)).wellFormed = true ∧
    (Instr.ldcr .symbolic 15#4).wellFormed = true ∧ (Instr.tb 0xFF#8).wellFormed = true ∧
    Instr.lrex.wellFormed = true := by decide

theorem witness_DecodeIgnoresFillerBitsAlone :
    decode 0x0380#16 = some .rtwp ∧ 0x039F#16 &&& ~~~Instr.rtwp.filler = 0x0380#16 &&& ~~~Instr.rtwp.filler ∧
    decode 0x02EF#16 = some .lwpi := by decide

theorem witness_WordIsInstructionIffRowMatches :
    0x039F#16 &&& Instr.rtwp.tableRow.2 = Instr.rtwp.tableRow.1 ∧
    0xFFFF#16 &&& (Instr.socb (.autoInc 15#4) (.autoInc 15#4)).tableRow.2 =
      (Instr.socb .symbolic .symbolic).tableRow.1 := by decide

theorem witness_UnassignedWordsAreIllegal :
    (∃ s : State, s.Undisturbed ∧ s.kindAt s.pc = .ram ∧ decode (s.wordAt s.pc) = none) ∧
    (∃ s : State, s.Undisturbed ∧ s.kindAt s.pc = .rom ∧ decode (s.wordAt s.pc) = none) ∧
    (∃ (s : State) (p : Operand), s.AllRam ∧ decode (s.operandWord p) = none) := by
  refine ⟨⟨machine [0x0FFF#16] [] 0#16, undisturbed_of_quiet (by decide), by decide, by decide⟩,
    ⟨(machine [0x0320#16] [] 0#16).withRegions [⟨0, 0x200, .rom⟩],
      undisturbed_of_quiet (by decide), by decide, by decide⟩,
    ⟨machine [] [0#16, 0x0780#16] 0#16, .reg 1#4, State.allRam_of_no_regions rfl, by decide⟩⟩

theorem witness_PcPassesExtensionWords :
    ((Instr.mov .symbolic (.indexed 3#4)).writesPc, (Instr.mov .symbolic (.indexed 3#4)).isExecute,
      Instr.limi.writesPc, Instr.limi.isExecute) = (false, false, false, false) ∧
    (∃ t, exec (.mov .symbolic (.indexed 3#4)) plain = .next t) ∧ ∃ t, exec .limi plain = .next t :=
  ⟨by decide, ⟨_, rfl⟩, _, rfl⟩

theorem witness_StoredWordIsReadBackBigEndian :
    plain.kindAt 0xFFFF#16 = .ram ∧ mapped.kindAt 0x3FFF#16 = .ram ∧ plain.mem.wf = true ∧
    mapped.mem.wf = true := by decide

theorem witness_MixedWidthsShareMemory :
    plain.AllRam ∧ plain.Inv ∧ (0xFFFE#16).getLsbD 0 = false := ⟨plain_allRam, plain_inv, by decide⟩

theorem witness_MemoryMapDecidesAccesses :
    mapped.kindAt 0x6FFF#16 = .unmapped ∧ mapped.kindAt 0x4FFF#16 = .rom ∧
    mapped.kindAt 0x5000#16 = .device ∧ mapped.kindAt 0x5FFF#16 = .device ∧
    mapped.kindAt 0x7000#16 = .ram := by decide

theorem witness_DirectModesGiveAddress : plain.AllRam ∧ plain.wp.getLsbD 0 = false :=
  ⟨plain_allRam, by decide⟩
theorem witness_IndexedAndAutoIncrementModes : plain.AllRam ∧ (1#4 ≠ 0#4) ∧ (15#4 ≠ 0#4) :=
  ⟨plain_allRam, by decide⟩

theorem witness_OnlyListedStatusBitsChange :
    (Instr.ab (.autoInc 1#4) (.reg 2#4)).isExecute = false ∧ Instr.rtwp.isExecute = false ∧
    (∃ t, exec (.ab (.autoInc 1#4) (.reg 2#4)) plain = .next t) ∧
    ∃ t, exec .rtwp plain = .next t := ⟨rfl, rfl, ⟨_, rfl⟩, _, rfl⟩

theorem witness_WhichInstructionsWriteInternalState :
    (Instr.idle.isExecute, Instr.idle.writesWp, Instr.idle.readsCru) = (false, false, false) ∧
    ((Instr.blwp .symbolic).isExecute, (Instr.blwp .symbolic).readsCru) = (false, false) ∧
    ((Instr.tb 0#8).isExecute, (Instr.tb 0#8).writesWp) = (false, false) ∧
    (∃ t, exec .idle plain = .next t) ∧ (∃ t, exec (.blwp .symbolic) plain = .next t) ∧
    ∃ t, exec (.tb 0#8) plain = .next t :=
  ⟨by decide, by decide, by decide, ⟨_, rfl⟩, ⟨_, rfl⟩, _, rfl⟩

theorem witness_AddAndSubtractWords : plain.AllRam := plain_allRam
theorem witness_AddAndSubtractBytes : plain.AllRam := plain_allRam
theorem witness_ComparesRateFirstToSecond : plain.AllRam := plain_allRam
theorem witness_LogicalAndMoveWords : plain.AllRam := plain_allRam
theorem witness_LogicalAndMoveBytes : plain.AllRam := plain_allRam
theorem witness_CorrespondingCompareAndXor : plain.AllRam := plain_allRam
theorem witness_MultiplyLeavesProductInPair : plain.AllRam := plain_allRam

/-- The two clauses where they meet: R2 is 1, so a divisor of 1 overflows and one of 3 does not. -/
theorem witness_DivideOrReportOverflow : plain.AllRam ∧
    (plain.operandWord (.reg 2#4)).toNat ≤ ((plain.resolved (.reg 2#4) .word).reg 2#4).toNat ∧
    ((plain.resolved (.reg 3#4) .word).reg 2#4).toNat < (plain.operandWord (.reg 3#4)).toNat :=
  ⟨plain_allRam, by decide⟩

theorem witness_BranchAndLinkGoToOperandAddress : plain.AllRam := plain_allRam
theorem witness_BranchLoadWorkspaceSwitches : plain.AllRam ∧ plain.mem.wf = true :=
  ⟨plain_allRam, plain_wf⟩

/-- On RAM and over a device, whose answer is a free value. -/
theorem witness_ClearSetAndSwapKeepStatus : plain.AllRam ∧
    (∃ o u, fetchWord (.autoInc 1#4) plain = .next (o, u)) ∧
    ∃ o u, fetchWord (.indirect 1#4) (plain.withRegions [⟨0x2000, 2, .device⟩]) = .next (o, u) :=
  ⟨plain_allRam, ⟨_, _, rfl⟩, _, _, rfl⟩

theorem witness_InvertAndNegate : plain.AllRam := plain_allRam
theorem witness_IncrementAndDecrement : plain.AllRam := plain_allRam

/-- The most negative operand for one clause, 0 for the other. -/
theorem witness_AbsoluteValueRatesOperand : plain.AllRam ∧
    ((machine [] [0#16, 0x8000#16] 0#16).operandWord (.reg 1#4)).toInt < 0 ∧
    0 ≤ (plain.operandWord (.reg 0#4)).toInt := ⟨plain_allRam, by decide⟩

/-- R1 holds X R2, R2 holds INC R3. -/
def chained : State := machine [] [0#16, 0x0482#16, 0x0583#16, 7#16] 0#16

theorem witness_ExecuteRunsTheOperandWord : chained.AllRam ∧
    (decode (chained.operandWord (.reg 2#4)) = some (.inc (.reg 3#4)) ∧
      (Instr.inc (.reg 3#4)).isExecute = false) ∧
    (decode (chained.operandWord (.reg 1#4)) = some (.x (.reg 2#4)) ∧
      decode ((chained.resolved (.reg 1#4) .word).operandWord (.reg 2#4)) = some (.inc (.reg 3#4))) ∧
    ((chained.withPendingX (some 0x0583#16)).faulted = none ∧
      (chained.withPendingX (some 0x0583#16)).pendingX = some 0x0583#16 ∧
      decode 0x0583#16 = some (.inc (.reg 3#4))) :=
  ⟨State.allRam_of_no_regions rfl, by decide, by decide, by decide⟩

theorem witness_XopTrapsThroughItsVector : plain.AllRam ∧ plain.mem.wf = true :=
  ⟨plain_allRam, plain_wf⟩

/-- Every count falls under one clause: 8 and 1 under the first, 9 and 16 (written 0) under the second. -/
theorem witness_LoadCruSendsLowBitsFirst : plain.AllRam ∧ transferCount 8#4 ≤ 8 ∧
    transferCount 1#4 ≤ 8 ∧ 8 < transferCount 9#4 ∧ transferCount 0#4 = 16 := ⟨plain_allRam, by decide⟩
theorem witness_StoreCruCollectsInputBits : plain.AllRam ∧ transferCount 8#4 ≤ 8 ∧
    transferCount 1#4 ≤ 8 ∧ 8 < transferCount 9#4 ∧ transferCount 0#4 = 16 := ⟨plain_allRam, by decide⟩

theorem witness_CruBitInstructions : plain.AllRam := plain_allRam

/-- Flags of both kinds at even PC: with ST 0x8002 the higher-than conditions hold, with 0x2000 EQ. -/
theorem witness_CompareJumpsTestTheirFlags : plain.pc.getLsbD 0 = false ∧
    (plain.st.lgt = true ∧ plain.st.agt = false ∧ plain.st.eq = false) ∧
    (plain.withSt (Status.ofWord 0x2000#16)).pc.getLsbD 0 = false ∧
    (plain.withSt (Status.ofWord 0x2000#16)).st.eq = true ∧
    (plain.withSt (Status.ofWord 0x4000#16)).pc.getLsbD 0 = false ∧
    (plain.withSt (Status.ofWord 0x4000#16)).st.agt = true := by decide
theorem witness_FlagJumpsTestTheirFlags : plain.pc.getLsbD 0 = false ∧
    (plain.st.c = false ∧ plain.st.ov = false ∧ plain.st.op = false) ∧
    (plain.withSt (Status.ofWord 0x1C00#16)).pc.getLsbD 0 = false ∧
    ((plain.withSt (Status.ofWord 0x1C00#16)).st.c = true ∧
      (plain.withSt (Status.ofWord 0x1C00#16)).st.op = true) := by decide

/-- The three ways a count comes about, at their ends. -/
theorem witness_ShiftLeftMultiplies : plain.AllRam ∧ plain.shiftPlaces 15#4 = 15 ∧
    plain.shiftPlaces 0#4 = 16 ∧ (machine [] [0xFF01#16] 0#16).shiftPlaces 0#4 = 1 :=
  ⟨plain_allRam, by decide⟩
theorem witness_ShiftRightDividesOrRotates : plain.AllRam ∧ plain.shiftPlaces 1#4 = 1 ∧
    plain.shiftPlaces 0#4 = 16 ∧ (machine [] [0xFF0F#16] 0#16).shiftPlaces 0#4 = 15 :=
  ⟨plain_allRam, by decide⟩

theorem witness_ImmediateArithmetic : plain.AllRam := plain_allRam
theorem witness_InternalRegistersLoadAndStore : plain.AllRam := plain_allRam
theorem witness_ReturnRestoresFromRegisters : plain.AllRam := plain_allRam

/-- Fetched from RAM, and from ROM with a masked request presented. -/
theorem witness_StepRunsTheDecodedInstruction :
    (∃ (s t : State) (w : Word) (i : Instr), s.Undisturbed ∧
      readWord s.pc (s.takeSample.withInhibit false) = .next (w, t) ∧
      decode w = some i ∧ s.kindAt s.pc = .ram) ∧
    (∃ (s t : State) (w : Word) (i : Instr), s.Undisturbed ∧
      readWord s.pc (s.takeSample.withInhibit false) = .next (w, t) ∧
      decode w = some i ∧ s.kindAt s.pc = .rom) := by
  refine ⟨⟨plain, _, _, .a (.autoInc 1#4) (.reg 2#4), undisturbed_of_quiet (by decide), rfl,
      by decide, by decide⟩,
    ⟨(plain.withRegions [⟨0, 0x200, .rom⟩]).withSamples [⟨false, false, some 3#4⟩], _, _,
      .a (.autoInc 1#4) (.reg 2#4), undisturbed_of_masked 3#4 (by decide) (by decide), rfl,
      by decide, by decide⟩⟩

/-- The mask of `plain` is 2: level 2 is taken, level 3 is not, and with `inhibit` no level is. -/
theorem witness_RequestsAreTakenInOrder : plain.faulted = none ∧ plain.pendingX = none ∧
    (plain.withSamples [⟨true, true, some 0#4⟩]).sample.reset = true ∧
    ((plain.withSamples [⟨false, true, some 0#4⟩]).sample.reset = false ∧
      (plain.withSamples [⟨false, true, some 0#4⟩]).sample.load = true) ∧
    ((plain.withSamples [⟨false, false, some 2#4⟩]).sample = ⟨false, false, some 2#4⟩ ∧
      plain.inhibit = false ∧ (2#4).toNat ≤ plain.st.mask.toNat) ∧
    ((plain.withSamples [⟨false, false, some 3#4⟩]).sample = ⟨false, false, some 3#4⟩ ∧
      plain.st.mask.toNat < (3#4).toNat) ∧
    ((plain.withSamples [⟨false, false, some 0#4⟩]).withInhibit true).inhibit = true := by decide

theorem witness_ContextSwitchSavesAndLoads : plain.AllRam ∧ plain.mem.wf = true :=
  ⟨plain_allRam, plain_wf⟩

theorem witness_TrapEntriesSwitchThroughTheirVectors :
    (∀ q, (plain.withSamples [q]).AllRam) ∧ (∀ q, (plain.withSamples [q]).mem.wf = true) ∧
    ((plain.withSamples [⟨true, true, some 0#4⟩]).faulted = none ∧
      (plain.withSamples [⟨true, true, some 0#4⟩]).pendingX = none ∧
      (plain.withSamples [⟨true, true, some 0#4⟩]).sample.reset = true) ∧
    ((plain.withSamples [⟨false, true, some 0#4⟩]).sample.reset = false ∧
      (plain.withSamples [⟨false, true, some 0#4⟩]).sample.load = true) ∧
    ((plain.withSamples [⟨false, false, some 0#4⟩]).sample = ⟨false, false, some 0#4⟩ ∧
      plain.inhibit = false ∧ (0#4).toNat ≤ plain.st.mask.toNat) ∧
    ((plain.withSamples [⟨false, false, some 2#4⟩]).sample = ⟨false, false, some 2#4⟩ ∧
      (2#4).toNat ≤ plain.st.mask.toNat) :=
  ⟨fun _ => State.allRam_of_no_regions rfl, fun _ => plain_wf, by decide, by decide, by decide, by decide⟩

/-- Idle with nothing requested, with a request above the mask, and with one held back. -/
theorem witness_IdleWaitsForARequest :
    (∃ s : State, s.faulted = none ∧ s.pendingX = none ∧ s.idle = true ∧ s.sample = Sample.quiet) ∧
    (∃ s : State, s.faulted = none ∧ s.pendingX = none ∧ s.idle = true ∧
      s.sample = ⟨false, false, some 3#4⟩ ∧ s.st.mask.toNat < (3#4).toNat) ∧
    (∃ s : State, s.faulted = none ∧ s.pendingX = none ∧ s.idle = true ∧
      s.sample = ⟨false, false, some 0#4⟩ ∧ s.inhibit = true) :=
  ⟨⟨plain.withIdle true, by decide⟩,
    ⟨(plain.withIdle true).withSamples [⟨false, false, some 3#4⟩], by decide⟩,
    ⟨((plain.withIdle true).withInhibit true).withSamples [⟨false, false, some 0#4⟩], by decide⟩⟩

theorem witness_NoInstructionFails :
    (∀ a, plain.kindAt a = .ram ∨ plain.kindAt a = .device) ∧
    (∀ a, (plain.withRegions [⟨0x0, 0x10000, .device⟩]).kindAt a = .ram ∨
      (plain.withRegions [⟨0x0, 0x10000, .device⟩]).kindAt a = .device) ∧
    (Instr.div .symbolic 15#4).isExecute = false ∧ (Instr.x .symbolic).isExecute = true := by
  refine ⟨fun a => .inl (plain_allRam a), fun a => .inr ?_, rfl, rfl⟩
  have h : ((0x0 : Nat) ≤ (evenAddr a).toNat ∧ (evenAddr a).toNat < 0x0 + 0x10000) :=
    ⟨Nat.zero_le _, (evenAddr a).isLt⟩
  unfold State.kindAt
  simp only [State.withRegions, List.find?, h, and_self, decide_true]

theorem witness_ReturnUndoesEverySwitch : plain.AllRam ∧ plain.Inv := ⟨plain_allRam, plain_inv⟩

theorem witness_FrameOfTwoOperandStores :
    (∃ o u t, dualFetch (.autoInc 1#4) (.reg 2#4) plain = .next (o, u) ∧
      exec (.a (.autoInc 1#4) (.reg 2#4)) plain = .next t) ∧
    (∃ o u t, dualFetchByte (.autoInc 1#4) (.indexed 3#4) plain = .next (o, u) ∧
      exec (.movb (.autoInc 1#4) (.indexed 3#4)) plain = .next t) :=
  ⟨⟨_, _, _, rfl, rfl⟩, _, _, _, rfl, rfl⟩

theorem witness_FrameOfInstructionsThatStoreNothing :
    (∃ t, exec (.cb (.autoInc 1#4) .symbolic) plain = .next t) ∧
    (∃ t, exec (.ldcr (.autoInc 1#4) 4#4) plain = .next t) ∧
    (∃ t, exec (.b (.indirect 1#4)) plain = .next t) ∧ ∃ t, exec (.jne 0x80#8) plain = .next t :=
  ⟨⟨_, rfl⟩, ⟨_, rfl⟩, ⟨_, rfl⟩, _, rfl⟩

/-- A word rewritten, ABS of 0, and BL. -/
theorem witness_FrameOfOneOperandInstructions :
    (∃ o u t, fetchWord (.autoInc 1#4) plain = .next (o, u) ∧
      exec (.neg (.autoInc 1#4)) plain = .next t) ∧
    (∃ o u t, fetchWord (.reg 0#4) plain = .next (o, u) ∧ exec (.abs (.reg 0#4)) plain = .next t ∧
      o.value.msb = false) ∧
    (∃ o u t, fetchWord .symbolic plain = .next (o, u) ∧ exec (.bl .symbolic) plain = .next t) :=
  ⟨⟨_, _, _, rfl, rfl⟩, ⟨⟨0x8300#16, 0#16⟩, plain, _, by rfl, rfl, by decide⟩, _, _, _, rfl, rfl⟩

/-- DIV on both sides of its test: R2 is 1. -/
theorem witness_FrameOfRegisterDestinations :
    (∃ t, exec (.sla 0#4 15#4) plain = .next t) ∧ (∃ t, exec (.xor (.autoInc 1#4) 2#4) plain = .next t) ∧
    (∃ t, exec (.mpy (.autoInc 1#4) 15#4) plain = .next t) ∧
    (∃ t, exec (.div (.reg 3#4) 2#4) plain = .next t) ∧
    (∃ t o u, exec (.div (.reg 2#4) 2#4) plain = .next t ∧
      regFetch (.reg 2#4) 2#4 plain = .next (o, u) ∧ o.src.toNat ≤ o.reg.toNat) :=
  ⟨⟨_, rfl⟩, ⟨_, rfl⟩, ⟨_, rfl⟩, ⟨_, rfl⟩, _, ⟨1#16, 1#16⟩, plain, rfl, rfl, by decide⟩

theorem witness_FrameOfContextSwitches :
    (∃ a u w x t, resolve .symbolic .word plain = .next (a, u) ∧ readWord a u = .next (w, x) ∧
      exec (.blwp .symbolic) plain = .next t) ∧
    (∃ o u w x t, fetchWord (.autoInc 1#4) plain = .next (o, u) ∧
      readWord (BitVec.ofNat 16 (0x0040 + 4 * (15#4).toNat)) u = .next (w, x) ∧
      exec (.xop (.autoInc 1#4) 15#4) plain = .next t) ∧
    (∃ w x t, readWord 0xFFFC#16 plain = .next (w, x) ∧
      trapEnter 0xFFFC#16 0#4 plain = .next t) :=
  ⟨⟨_, _, _, _, _, rfl, rfl, rfl⟩, ⟨_, _, _, _, _, rfl, rfl, rfl⟩, _, _, _, rfl, rfl⟩

theorem witness_FrameOfInternalAndCruWrites :
    (∃ t, exec .lwpi plain = .next t) ∧ (∃ t, exec .limi plain = .next t) ∧
    (∃ t, exec .rset plain = .next t) ∧ (∃ t, exec .rtwp plain = .next t) ∧
    (∃ t, exec .idle plain = .next t) ∧ (∃ t, exec (.tb 5#8) plain = .next t) ∧
    (∃ o u t, transferCount 8#4 ≤ 8 ∧ fetchByte (.autoInc 1#4) plain = .next (o, u) ∧
      exec (.stcr (.autoInc 1#4) 8#4) plain = .next t) ∧
    (∃ o u t, 8 < transferCount 9#4 ∧ fetchWord (.autoInc 1#4) plain = .next (o, u) ∧
      exec (.stcr (.autoInc 1#4) 9#4) plain = .next t) :=
  ⟨⟨_, rfl⟩, ⟨_, rfl⟩, ⟨_, rfl⟩, ⟨_, rfl⟩, ⟨_, rfl⟩, ⟨_, rfl⟩, ⟨_, _, _, by decide, rfl, rfl⟩,
    _, _, _, by decide, rfl, rfl⟩

theorem witness_EveryStepKeepsInvariant : plain.Inv ∧ (after (step plain)).isSome = true :=
  ⟨plain_inv, by decide⟩

theorem witness_EndOfRunLasts :
    ((machine [0x10FF#16] [] 0#16).Inv ∧ (machine [0x10FF#16] [] 0#16).endOfRun = true) ∧
    ((plain.withIdle true).Inv ∧ (plain.withIdle true).endOfRun = true) ∧
    ((machine [0x0C00#16] [] 0#16).Inv ∧ (machine [0x0C00#16] [] 0#16).endOfRun = true) := by
  unfold State.Inv
  decide

end Sys2Proof.Tests
end

namespace Sys2Proof.Machine

/-! ## The layout of the status word (spec/10_state.md, R30, R31) -/

/-- R31: the status word has nothing outside the bits that are storage. -/
theorem Status.toWord_and_storage (t : Status) : t.toWord &&& 0xFE0F#16 = t.toWord := by
  rw [← Status.toWord_ofWord, Status.ofWord_toWord]

/-- R31: TI bits 7-11 of the status word read 0. -/
theorem Status.toWord_and_unused (t : Status) : t.toWord &&& 0x01F0#16 = 0#16 := by
  have disjoint : 0xFE0F#16 &&& 0x01F0#16 = 0#16 := by decide
  rw [← t.toWord_and_storage, BitVec.and_assoc, disjoint, BitVec.and_zero]

/-- R30: the mask is the low four bits of the status word. -/
theorem Status.toWord_toNat_mod (t : Status) : t.toWord.toNat % 16 = t.mask.toNat := by
  have low : t.toWord.extractLsb' 0 4 = t.mask := congrArg Status.mask t.ofWord_toWord
  rw [← low, BitVec.extractLsb'_toNat, Nat.shiftRight_zero]

/-- Settles O13: the flags are read off the word bit by bit, and the unused bits and the mask come from
writing the word back. -/
theorem statusWordLayout : Obligations.StatusWordLayout := by
  intro t
  have bit := t.toWord_getLsbD
  exact ⟨bit 15, bit 14, bit 13, bit 12, bit 11, bit 10, bit 9, t.toWord_and_unused,
    t.toWord_toNat_mod⟩

end Sys2Proof.Machine

namespace Sys2Proof.Machine

/-! ## The two bytes of a word (spec/20_memory.md, R54, R55, R60) -/

theorem word_getLsbD_zero (a : Word) : a.getLsbD 0 = decide (a.toNat % 2 = 1) := by
  rw [BitVec.getLsbD, Nat.testBit_zero]

theorem evenAddr_of_even {a : Word} (h : a.getLsbD 0 = false) : evenAddr a = a := by
  rw [word_getLsbD_zero, decide_eq_false_iff_not] at h
  exact BitVec.eq_of_toNat_eq (by rw [evenAddr_toNat]; omega)

theorem evenAddr_succ_of_odd {a : Word} (h : a.getLsbD 0 = true) : evenAddr a + 1#16 = a := by
  rw [word_getLsbD_zero, decide_eq_true_iff] at h
  exact BitVec.eq_of_toNat_eq (by rw [evenAddr_succ_toNat]; omega)

/-- The byte after an even address lies in the same word. -/
theorem evenAddr_succ_of_even {a : Word} (h : a.getLsbD 0 = false) :
    evenAddr (a + 1#16) = evenAddr a := by
  calc evenAddr (a + 1#16) = evenAddr (evenAddr a + 1#16) := by rw [evenAddr_of_even h]
    _ = evenAddr a := evenAddr_succ a

theorem succ_odd_of_even {a : Word} (h : a.getLsbD 0 = false) :
    (a + 1#16).getLsbD 0 = true := by
  rw [word_getLsbD_zero, decide_eq_false_iff_not] at h
  rw [word_getLsbD_zero, decide_eq_true_iff, BitVec.toNat_add, BitVec.toNat_ofNat]
  omega

theorem evenAddr_succ_ne (a : Word) : evenAddr a + 1#16 ≠ evenAddr a := by
  intro h
  have := congrArg BitVec.toNat h
  rw [evenAddr_succ_toNat, evenAddr_toNat] at this
  omega

theorem selectByte_of_even {a : Word} (w : Word) (h : a.getLsbD 0 = false) :
    selectByte a w = hiByte w := if_neg (Bool.eq_false_iff.mp h)

theorem selectByte_of_odd {a : Word} (w : Word) (h : a.getLsbD 0 = true) :
    selectByte a w = loByte w := if_pos h

theorem mergeByte_of_even {a : Word} (w : Word) (b : Byte) (h : a.getLsbD 0 = false) :
    mergeByte a w b = b ++ loByte w := if_neg (Bool.eq_false_iff.mp h)

theorem mergeByte_of_odd {a : Word} (w : Word) (b : Byte) (h : a.getLsbD 0 = true) :
    mergeByte a w b = hiByte w ++ b := if_pos h

/-- R60: a byte store replaces the half of its word that its address selects and leaves the other
half alone. -/
theorem State.wordAt_storeByte {s : State} {a c : Word} (b : Byte) (h : s.mem.wf = true)
    (hc : evenAddr c = evenAddr a) : (s.storeByte a b).wordAt c = mergeByte a (s.wordAt c) b := by
  unfold State.wordAt
  rw [hc]
  cases parity : a.getLsbD 0 with
  | false =>
    have kept : (s.storeByte a b).byteAt (evenAddr a + 1#16) = s.byteAt (evenAddr a + 1#16) :=
      State.byteAt_storeByte_ne b s fun ho =>
        evenAddr_succ_ne a (ho.trans (evenAddr_of_even parity).symm)
    rw [mergeByte_of_even _ b parity, loByte_append, kept, evenAddr_of_even parity,
      State.byteAt_storeByte_self b s h]
  | true =>
    have kept : (s.storeByte a b).byteAt (evenAddr a) = s.byteAt (evenAddr a) :=
      State.byteAt_storeByte_ne b s fun he =>
        evenAddr_succ_ne a ((evenAddr_succ_of_odd parity).trans he.symm)
    rw [mergeByte_of_odd _ b parity, hiByte_append, kept, evenAddr_succ_of_odd parity,
      State.byteAt_storeByte_self b s h]

theorem readByte_allRam {s : State} (h : s.AllRam) (a : Word) :
    readByte a s = .next (⟨a, s.wordAt a, selectByte a (s.wordAt a)⟩, s) := by
  simp only [readByte, readWord_allRam h, andThen_next]

/-- R22, R24: every register of an even workspace starts at an even address. -/
theorem State.regAddr_even {s : State} (h : s.wp.getLsbD 0 = false) (r : Reg) :
    (s.regAddr r).getLsbD 0 = false := by
  rw [word_getLsbD_zero, decide_eq_false_iff_not] at h ⊢
  simp only [State.regAddr, BitVec.toNat_add, BitVec.toNat_mul, BitVec.toNat_ofNat]
  omega

/-- R55: a word stored at an even address is read byte by byte, and a byte stored into its odd half
joins the other half. -/
theorem storedWord_sharesBytes {s : State} (ram : s.AllRam) (wf : s.mem.wf = true) {e : Word}
    (v : Word) (even : e.getLsbD 0 = false) :
    readByte e (s.storeWord e v) = .next (⟨e, v, hiByte v⟩, s.storeWord e v) ∧
    readByte (e + 1#16) (s.storeWord e v) = .next (⟨e + 1#16, v, loByte v⟩, s.storeWord e v) ∧
    ∀ b : Byte, ((s.storeWord e v).storeByte (e + 1#16) b).wordAt e = hiByte v ++ b := by
  have stored : (s.storeWord e v).AllRam := ram.congr (State.storeWord_regions s e v)
  have sameWord := evenAddr_succ_of_even even
  have odd := succ_odd_of_even even
  refine ⟨?_, ?_, fun b => ?_⟩
  · rw [readByte_allRam stored, State.wordAt_storeWord_self v wf rfl, selectByte_of_even v even]
  · rw [readByte_allRam stored, State.wordAt_storeWord_self v wf sameWord, selectByte_of_odd v odd]
  · rw [State.wordAt_storeByte b (State.storeWord_wf e v wf) sameWord.symm,
      State.wordAt_storeWord_self v wf rfl, mergeByte_of_odd v b odd]

/-- R55: a byte operand in register mode is the register's high byte. -/
theorem fetchByte_reg {s : State} (ram : s.AllRam) (even : s.wp.getLsbD 0 = false) (r : Reg) :
    fetchByte (.reg r) s = .next (⟨s.regAddr r, s.reg r, hiByte (s.reg r)⟩, s) := by
  rw [← selectByte_of_even (s.reg r) (State.regAddr_even even r)]
  exact readByte_allRam ram (s.regAddr r)

/-- R55: a byte stored at a register's address leaves the register's low byte alone. -/
theorem State.reg_storeByte {s : State} (wf : s.mem.wf = true) (even : s.wp.getLsbD 0 = false)
    (r : Reg) (b : Byte) : (s.storeByte (s.regAddr r) b).reg r = b ++ loByte (s.reg r) :=
  (State.wordAt_storeByte b wf rfl).trans (mergeByte_of_even _ b (State.regAddr_even even r))

/-- Settles O8: over plain RAM every access completes, and each byte store replaces one half of the
word it lies in. -/
theorem mixedWidthsShareMemory : Obligations.MixedWidthsShareMemory := by
  rintro s ram ⟨-, evenWp, wf⟩
  refine ⟨fun e v even => ?_, fun r => ?_⟩
  · have stored : (s.storeWord e v).AllRam := ram.congr (State.storeWord_regions s e v)
    obtain ⟨high, low, joined⟩ := storedWord_sharesBytes ram wf v even
    refine ⟨_, writeWord_allRam ram e v, ⟨_, high, rfl⟩, _, low, rfl, fun b =>
      ⟨_, writeByte_allRam stored _ v b, ?_⟩⟩
    rw [readWord_allRam (stored.congr (State.storeByte_regions _ _ b)), joined]
    rfl
  · exact ⟨_, fetchByte_reg ram evenWp r, rfl, fun b =>
      ⟨_, writeByte_allRam ram _ _ b, State.reg_storeByte wf evenWp r b⟩⟩

end Sys2Proof.Machine

namespace Sys2Proof

/-! ## The opcode table's rows (spec/30_encoding.md, R98): the bits that settle a word's row -/

/-- The mask of a word's format, by the decoder's classes of leading bits (R98, R107). For the two
classes that are unassigned throughout (R100) it holds the bits that say so. -/
def formatMask (w : Word) : Word :=
  match (w.extractLsb' 12 4).toNat with
  | 0 =>
    match (w.extractLsb' 9 3).toNat with
    | 1 => 0xFFE0#16
    | 2 | 3 => 0xFFC0#16
    | 4 | 5 => 0xFF00#16
    | _ => 0xFE00#16
  | 1 => 0xFF00#16
  | 2 | 3 => 0xFC00#16
  | _ => 0xF000#16

/-- Words that agree under a mask agree in every slice the mask covers. -/
theorem slice_congr {w v m : Word} (h : w &&& m = v &&& m) (k n : Nat)
    (covered : m.extractLsb' k n = BitVec.allOnes n) : w.extractLsb' k n = v.extractLsb' k n := by
  have sliced := congrArg (BitVec.extractLsb' k n) h
  rwa [BitVec.extractLsb'_and, BitVec.extractLsb'_and, covered, BitVec.and_allOnes,
    BitVec.and_allOnes] at sliced

theorem decodeDual_row_congr {w v : Word} (h : w.extractLsb' 12 4 = v.extractLsb' 12 4) :
    (decodeDual w).map Instr.tableRow = (decodeDual v).map Instr.tableRow := by
  unfold decodeDual
  rw [h]
  split <;> rfl

theorem decodeRegDest_row_congr {w v : Word} (h : w.extractLsb' 10 3 = v.extractLsb' 10 3) :
    (decodeRegDest w).map Instr.tableRow = (decodeRegDest v).map Instr.tableRow := by
  unfold decodeRegDest
  rw [h]
  split <;> rfl

theorem decodeDisp_row_congr {w v : Word} (h : w.extractLsb' 8 4 = v.extractLsb' 8 4) :
    (decodeDisp w).map Instr.tableRow = (decodeDisp v).map Instr.tableRow := by
  unfold decodeDisp
  rw [h]
  split <;> rfl

theorem decodeShift_row_congr {w v : Word} (h : w.extractLsb' 8 2 = v.extractLsb' 8 2) :
    (decodeShift w).map Instr.tableRow = (decodeShift v).map Instr.tableRow := by
  unfold decodeShift
  rw [h]
  split <;> rfl

theorem decodeSingle_row_congr {w v : Word} (h : w.extractLsb' 6 4 = v.extractLsb' 6 4) :
    (decodeSingle w).map Instr.tableRow = (decodeSingle v).map Instr.tableRow := by
  unfold decodeSingle
  rw [h]
  split <;> rfl

theorem decodeControl_row_congr {w v : Word} (h : w.extractLsb' 5 4 = v.extractLsb' 5 4) :
    (decodeControl w).map Instr.tableRow = (decodeControl v).map Instr.tableRow := by
  unfold decodeControl
  rw [h]
  split <;> rfl

/-- Every class's mask covers the bits that choose the class. -/
theorem leadingSlice_congr {w v : Word} (h : w &&& formatMask v = v &&& formatMask v) :
    w.extractLsb' 12 4 = v.extractLsb' 12 4 := by
  apply slice_congr h
  unfold formatMask
  split
  · split <;> rfl
  all_goals rfl

/-- The row a word belongs to is settled by the bits under its format's mask. -/
theorem decode_row_congr {w v : Word} (h : w &&& formatMask v = v &&& formatMask v) :
    (decode w).map Instr.tableRow = (decode v).map Instr.tableRow := by
  have leading := leadingSlice_congr h
  unfold decode
  rw [leading]
  split
  next zero =>
    simp only [formatMask, zero] at h
    have middle : w.extractLsb' 9 3 = v.extractLsb' 9 3 := by
      apply slice_congr h
      split <;> rfl
    rw [middle]
    split
    next c => simp only [c] at h; exact decodeControl_row_congr (slice_congr h 5 4 rfl)
    next c => simp only [c] at h; exact decodeSingle_row_congr (slice_congr h 6 4 rfl)
    next c => simp only [c] at h; exact decodeSingle_row_congr (slice_congr h 6 4 rfl)
    next c => simp only [c] at h; exact decodeShift_row_congr (slice_congr h 8 2 rfl)
    next c => simp only [c] at h; exact decodeShift_row_congr (slice_congr h 8 2 rfl)
    next => rfl
  next c => simp only [formatMask, c] at h; exact decodeDisp_row_congr (slice_congr h 8 4 rfl)
  next c => simp only [formatMask, c] at h; exact decodeRegDest_row_congr (slice_congr h 10 3 rfl)
  next c => simp only [formatMask, c] at h; exact decodeRegDest_row_congr (slice_congr h 10 3 rfl)
  next => exact decodeDual_row_congr leading

/-! ## The rows' matches, read as words -/

theorem formatMask_match (i : Instr) : formatMask i.tableRow.1 = i.tableRow.2 := by
  cases i <;> (rw [Instr.tableRow]; decide)

theorem match_masked (i : Instr) : i.tableRow.1 &&& i.tableRow.2 = i.tableRow.1 := by
  cases i <;> (rw [Instr.tableRow]; decide)

/-- Every row's match is itself a word of the row. -/
theorem decode_match_row (i : Instr) :
    (decode i.tableRow.1).map Instr.tableRow = some i.tableRow := by
  cases i <;> (rw [Instr.tableRow]; decide)

/-! ## What the decoder reads matches its row -/

/-- A word masked to its bits from bit `k` up, in numbers. -/
theorem and_upper_eq {w v : Word} (k : Nat) (h : w.toNat / 2 ^ k * 2 ^ k = v.toNat) :
    w &&& BitVec.allOnes 16 <<< k = v := by
  rw [← BitVec.shiftLeft_ushiftRight]
  apply BitVec.eq_of_toNat_eq
  rw [BitVec.toNat_shiftLeft, BitVec.toNat_ushiftRight, Nat.shiftLeft_eq,
    Nat.shiftRight_eq_div_pow, h, Nat.mod_eq_of_lt v.isLt]

/-- A slice of a word, in numbers. -/
theorem slice_toNat (w : Word) (k n : Nat) :
    (w.extractLsb' k n).toNat = w.toNat / 2 ^ k % 2 ^ n := by
  rw [BitVec.extractLsb'_toNat, Nat.shiftRight_eq_div_pow]

theorem decodeDual_matches {w : Word} {i : Instr} (h : decodeDual w = some i) :
    w &&& i.tableRow.2 = i.tableRow.1 := by
  simp only [decodeDual, slice_toNat] at h
  split at h <;> cases h <;> rw [Instr.tableRow] <;>
    exact and_upper_eq 12 (by rw [BitVec.toNat_ofNat]; omega)

theorem decodeRegDest_matches {w : Word} {i : Instr} (lead : w.toNat / 2 ^ 13 = 1)
    (h : decodeRegDest w = some i) : w &&& i.tableRow.2 = i.tableRow.1 := by
  simp only [decodeRegDest, slice_toNat] at h
  generalize slice : w.toNat / 2 ^ 10 % 2 ^ 3 = x at h
  have : x < 8 := by omega
  interval_cases x <;> cases h <;> rw [Instr.tableRow] <;>
    exact and_upper_eq 10 (by rw [BitVec.toNat_ofNat]; omega)

theorem decodeDisp_matches {w : Word} {i : Instr} (lead : w.toNat / 2 ^ 12 = 1)
    (h : decodeDisp w = some i) : w &&& i.tableRow.2 = i.tableRow.1 := by
  simp only [decodeDisp, slice_toNat] at h
  generalize slice : w.toNat / 2 ^ 8 % 2 ^ 4 = x at h
  have : x < 16 := by omega
  interval_cases x <;> cases h <;> rw [Instr.tableRow] <;>
    exact and_upper_eq 8 (by rw [BitVec.toNat_ofNat]; omega)

theorem decodeShift_matches {w : Word} {i : Instr} (lead : w.toNat / 2 ^ 10 = 2)
    (h : decodeShift w = some i) : w &&& i.tableRow.2 = i.tableRow.1 := by
  simp only [decodeShift, slice_toNat] at h
  generalize slice : w.toNat / 2 ^ 8 % 2 ^ 2 = x at h
  have : x < 4 := by omega
  interval_cases x <;> cases h <;> rw [Instr.tableRow] <;>
    exact and_upper_eq 8 (by rw [BitVec.toNat_ofNat]; omega)

theorem decodeSingle_matches {w : Word} {i : Instr} (lead : w.toNat / 2 ^ 10 = 1)
    (h : decodeSingle w = some i) : w &&& i.tableRow.2 = i.tableRow.1 := by
  simp only [decodeSingle, slice_toNat] at h
  split at h <;> cases h <;> rw [Instr.tableRow] <;>
    exact and_upper_eq 6 (by rw [BitVec.toNat_ofNat]; omega)

theorem decodeControl_matches {w : Word} {i : Instr} (lead : w.toNat / 2 ^ 9 = 1)
    (h : decodeControl w = some i) : w &&& i.tableRow.2 = i.tableRow.1 := by
  simp only [decodeControl, slice_toNat] at h
  split at h <;> cases h <;> rw [Instr.tableRow] <;>
    exact and_upper_eq 5 (by rw [BitVec.toNat_ofNat]; omega)

/-- A word that decodes is a word of its instruction's row. -/
theorem decode_matches {w : Word} {i : Instr} (h : decode w = some i) :
    w &&& i.tableRow.2 = i.tableRow.1 := by
  simp only [decode, slice_toNat] at h
  split at h
  · split at h
    · exact decodeControl_matches (by omega) h
    · exact decodeSingle_matches (by omega) h
    · exact decodeSingle_matches (by omega) h
    · exact decodeShift_matches (by omega) h
    · exact decodeShift_matches (by omega) h
    · cases h
  · exact decodeDisp_matches (by omega) h
  · exact decodeRegDest_matches (by omega) h
  · exact decodeRegDest_matches (by omega) h
  · exact decodeDual_matches h

/-- R98: a word is the instruction of a row exactly when it matches the row. -/
theorem matches_tableRow_iff (i : Instr) (w : Word) :
    w &&& i.tableRow.2 = i.tableRow.1 ↔ ∃ j, decode w = some j ∧ j.tableRow = i.tableRow := by
  constructor
  · intro h
    have agree : w &&& formatMask i.tableRow.1 = i.tableRow.1 &&& formatMask i.tableRow.1 := by
      rw [formatMask_match, h, match_masked]
    rw [← Option.map_eq_some_iff, decode_row_congr agree, decode_match_row]
  · rintro ⟨j, decoded, row⟩
    rw [← row]
    exact decode_matches decoded

/-- Settles O4: the rows are read off the model's table, and a word decodes to one instruction, so it
matches one row. -/
theorem wordIsInstructionIffRowMatches : Obligations.WordIsInstructionIffRowMatches := by
  refine ⟨fun p q r n disp => ⟨rfl, rfl, rfl, rfl, rfl⟩, matches_tableRow_iff, fun i j w hi hj => ?_⟩
  obtain ⟨a, decodedA, rowA⟩ := (matches_tableRow_iff i w).mp hi
  obtain ⟨b, decodedB, rowB⟩ := (matches_tableRow_iff j w).mp hj
  have same : a = b := Option.some.inj (decodedA.symm.trans decodedB)
  rw [← rowA, ← rowB, same]

end Sys2Proof

namespace Sys2Proof.Machine

/-! ## The direct addressing modes (spec/40_addressing.md, R111-R113) -/

/-- R9, R24, R111: a register's address, in plain numbers. -/
theorem State.ofNat_wp_add_eq_regAddr (s : State) (r : Reg) :
    BitVec.ofNat 16 (s.wp.toNat + 2 * r.toNat) = s.regAddr r := by
  apply BitVec.eq_of_toNat_eq
  simp only [State.regAddr, BitVec.toNat_add, BitVec.toNat_mul, BitVec.toNat_setWidth,
    BitVec.toNat_ofNat]
  omega

/-- R57: the word at an address is the word at its even address. -/
theorem State.wordAt_evenAddr (s : State) (a : Word) : s.wordAt (evenAddr a) = s.wordAt a := by
  simp only [State.wordAt, evenAddr_evenAddr]

theorem fetchWord_indirect {s : State} (ram : s.AllRam) (r : Reg) :
    fetchWord (.indirect r) s = .next (⟨s.reg r, s.wordAt (evenAddr (s.reg r))⟩, s) := by
  rw [s.wordAt_evenAddr]
  exact fetchWord_allRam ram (.indirect r)

theorem fetchWord_symbolic {s : State} (ram : s.AllRam) :
    fetchWord .symbolic s =
      .next (⟨s.wordAt s.pc, s.wordAt (evenAddr (s.wordAt s.pc))⟩, s.withPc (s.pc + 2#16)) := by
  rw [s.wordAt_evenAddr]
  exact fetchWord_allRam ram .symbolic

/-- Settles O11: a register's own address takes no access, so it holds on any memory map; the rest is what
resolving and reading an operand gives over plain RAM, mode by mode. -/
theorem directModesGiveAddress : Obligations.DirectModesGiveAddress := by
  intro s size r ea
  have regEa : ea = s.regAddr r := s.ofNat_wp_add_eq_regAddr r
  rw [regEa]
  refine ⟨rfl, rfl, rfl, rfl, fun ram => ?_⟩
  exact ⟨resolve_allRam ram (.indirect r) size, resolve_allRam ram .symbolic size,
    fetchWord_allRam ram (.reg r), fun evenWp => ⟨_, fetchByte_reg ram evenWp r, rfl⟩,
    fetchWord_indirect ram r, ⟨_, fetchByte_allRam ram (.indirect r), rfl, rfl⟩,
    fetchWord_symbolic ram, _, fetchByte_allRam ram .symbolic, rfl, rfl⟩

end Sys2Proof.Machine

namespace Sys2Proof

/-! ## The fields of a word of format SINGLE (spec/30_encoding.md, R85) -/

/-- A slice of a concatenation that starts above its lower part lies in its upper part. -/
theorem slice_append_upper {n m : Nat} (x : BitVec n) (y : BitVec m) (k len : Nat) :
    (x ++ y).extractLsb' (k + m) len = x.extractLsb' k len := by
  ext i hi
  rw [BitVec.getElem_extractLsb', BitVec.getElem_extractLsb', BitVec.getLsbD_append,
    if_neg (by omega), show k + m + i - m = k + i by omega]

theorem slice_append_lower {n m : Nat} (x : BitVec n) (y : BitVec m) :
    (x ++ y).extractLsb' 0 m = y := by
  ext i hi
  rw [BitVec.getElem_extractLsb', Nat.zero_add, BitVec.getLsbD_append, if_pos hi,
    BitVec.getLsbD_eq_getElem]

/-- The bits from weight 6 up are the opcode's. -/
theorem single_opcode_slice (op : BitVec 10) (ts : BitVec 2) (r : Reg) (k len : Nat) :
    (op ++ ts ++ r).extractLsb' (k + 6) len = op.extractLsb' k len :=
  (slice_append_upper (op ++ ts) r (k + 2) len).trans (slice_append_upper op ts k len)

theorem fieldTs_single (op : BitVec 10) (ts : BitVec 2) (r : Reg) :
    fieldTs (op ++ ts ++ r) = ts :=
  (slice_append_upper (op ++ ts) r 0 2).trans (slice_append_lower op ts)

theorem fieldS_single (op : BitVec 10) (ts : BitVec 2) (r : Reg) : fieldS (op ++ ts ++ r) = r :=
  slice_append_lower (op ++ ts) r

/-- R98: each opcode's low four bits choose its row, and the mode and register fields its operand. -/
theorem clearSetSwap_decode (ts : BitVec 2) (r : Reg) :
    decode (0b0000010011#10 ++ ts ++ r) = some (.clr (operandOf ts r)) ∧
    decode (0b0000011100#10 ++ ts ++ r) = some (.seto (operandOf ts r)) ∧
    decode (0b0000011011#10 ++ ts ++ r) = some (.swpb (operandOf ts r)) := by
  refine ⟨?_, ?_, ?_⟩ <;>
  · rw [decode, single_opcode_slice _ ts r 6 4, single_opcode_slice _ ts r 3 3, decodeSingle,
      single_opcode_slice _ ts r 0 4, fieldTs_single, fieldS_single]
    rfl

end Sys2Proof

namespace Sys2Proof.Machine

/-! ## CLR, SETO and SWPB (spec/43_single_operand.md, R164, R165, R169) -/

/-- On any memory map: once the operand has been read, the rest is one store at its address. -/
theorem clearSetSwap_of_fetchWord {s u : State} {p : Operand} {o : WordOp}
    (read : fetchWord p s = .next (o, u)) :
    exec (.clr p) s = writeWord o.addr 0x0000#16 u ∧
    exec (.seto p) s = writeWord o.addr 0xFFFF#16 u ∧
    exec (.swpb p) s = writeWord o.addr (loByte o.value ++ hiByte o.value) u := by
  simp only [exec, execClr, execSeto, execSwpb, read, andThen_next, and_self]

/-- Settles O26: the encodings are read off the decoder, and over plain RAM both the operand's read and the
store after it complete. -/
theorem clearSetAndSwapKeepStatus : Obligations.ClearSetAndSwapKeepStatus := by
  refine ⟨clearSetSwap_decode, fun s p ram => ?_, fun s u p o => clearSetSwap_of_fetchWord⟩
  obtain ⟨clear, set, swap⟩ := clearSetSwap_of_fetchWord (fetchWord_allRam ram p)
  have store := writeWord_allRam (ram.resolved p .word) (s.ea p)
  exact ⟨clear.trans (store _), set.trans (store _), swap.trans (store _)⟩

end Sys2Proof.Machine

namespace Sys2Proof

/-! ## Encoding and decoding (spec/30_encoding.md, R81-R92, R101) -/

/-! ### Operands as mode and register fields (R92) -/

/-- A slice of a concatenation that ends within its lower part lies there. -/
theorem slice_append_within {n m : Nat} (x : BitVec n) (y : BitVec m) (k len : Nat)
    (h : k + len ≤ m) : (x ++ y).extractLsb' k len = y.extractLsb' k len := by
  ext i hi
  rw [BitVec.getElem_extractLsb', BitVec.getElem_extractLsb', BitVec.getLsbD_append,
    if_pos (by omega)]

theorem operandOf_wellFormed :
    ∀ (t : BitVec 2) (r : Reg), (operandOf t r).wellFormed = true := by decide

theorem operandOf_bits : ∀ (t : BitVec 2) (r : Reg), (operandOf t r).bits = t ++ r := by decide

/-- A well-formed operand is read back from its mode and register fields. -/
theorem operandOf_slices {p : Operand} (h : p.wellFormed = true) :
    operandOf (p.bits.extractLsb' 4 2) (p.bits.extractLsb' 0 4) = p := by
  have fields : ∀ (t : BitVec 2) (r : Reg),
      operandOf ((t ++ r).extractLsb' 4 2) ((t ++ r).extractLsb' 0 4) = operandOf t r := by
    intro t r
    rw [slice_append_upper t r 0 2, slice_append_lower, BitVec.extractLsb'_eq_self]
  cases p with
  | reg r => exact fields 0#2 r
  | indirect r => exact fields 1#2 r
  | symbolic => exact fields 2#2 0#4
  | indexed r =>
    exact (fields 2#2 r).trans (if_neg (by simpa [Operand.wellFormed] using h))
  | autoInc r => exact fields 3#2 r

/-! ### The fields of an encoded word, format by format -/

theorem dualFormat_opcode (op : BitVec 4) (p q : Operand) :
    (dualFormat op p q).extractLsb' 12 4 = op :=
  (slice_append_upper op (q.bits ++ p.bits) 0 4).trans BitVec.extractLsb'_eq_self

theorem dualFormat_source (op : BitVec 4) {p : Operand} (q : Operand) (h : p.wellFormed = true) :
    operandOf (fieldTs (dualFormat op p q)) (fieldS (dualFormat op p q)) = p := by
  have field : ∀ k len, k + len ≤ 6 →
      (dualFormat op p q).extractLsb' k len = p.bits.extractLsb' k len := fun k len hk =>
    (slice_append_within op (q.bits ++ p.bits) k len (by omega)).trans
      (slice_append_within q.bits p.bits k len hk)
  rw [fieldTs, fieldS, field 4 2 (by omega), field 0 4 (by omega), operandOf_slices h]

theorem dualFormat_destination (op : BitVec 4) (p : Operand) {q : Operand}
    (h : q.wellFormed = true) :
    operandOf (fieldTd (dualFormat op p q)) (fieldD (dualFormat op p q)) = q := by
  have field : ∀ k len, k + len ≤ 6 →
      (dualFormat op p q).extractLsb' (k + 6) len = q.bits.extractLsb' k len := fun k len hk =>
    (slice_append_within op (q.bits ++ p.bits) (k + 6) len (by omega)).trans
      (slice_append_upper q.bits p.bits k len)
  rw [fieldTd, fieldD, field 4 2 (by omega), field 0 4 (by omega), operandOf_slices h]

theorem regFormat_opcode (op : BitVec 6) (p : Operand) (d : BitVec 4) (k len : Nat) :
    (regFormat op p d).extractLsb' (k + 10) len = op.extractLsb' k len :=
  slice_append_upper op (d ++ p.bits) k len

theorem regFormat_source (op : BitVec 6) {p : Operand} (d : BitVec 4) (h : p.wellFormed = true) :
    operandOf (fieldTs (regFormat op p d)) (fieldS (regFormat op p d)) = p := by
  have field : ∀ k len, k + len ≤ 6 →
      (regFormat op p d).extractLsb' k len = p.bits.extractLsb' k len := fun k len hk =>
    (slice_append_within op (d ++ p.bits) k len (by omega)).trans
      (slice_append_within d p.bits k len hk)
  rw [fieldTs, fieldS, field 4 2 (by omega), field 0 4 (by omega), operandOf_slices h]

theorem regFormat_register (op : BitVec 6) (p : Operand) (d : BitVec 4) :
    fieldD (regFormat op p d) = d :=
  (slice_append_within op (d ++ p.bits) 6 4 (by omega)).trans
    ((slice_append_upper d p.bits 0 4).trans BitVec.extractLsb'_eq_self)

theorem singleFormat_opcode (op : BitVec 10) (p : Operand) (k len : Nat) :
    (singleFormat op p).extractLsb' (k + 6) len = op.extractLsb' k len :=
  slice_append_upper op p.bits k len

theorem singleFormat_operand (op : BitVec 10) {p : Operand} (h : p.wellFormed = true) :
    operandOf (fieldTs (singleFormat op p)) (fieldS (singleFormat op p)) = p := by
  have field : ∀ k len, k + len ≤ 6 →
      (singleFormat op p).extractLsb' k len = p.bits.extractLsb' k len :=
    slice_append_within op p.bits
  rw [fieldTs, fieldS, field 4 2 (by omega), field 0 4 (by omega), operandOf_slices h]

theorem shiftFormat_opcode (op : BitVec 8) (n : BitVec 4) (w : Reg) (k len : Nat) :
    (shiftFormat op n w).extractLsb' (k + 8) len = op.extractLsb' k len :=
  slice_append_upper op (n ++ w) k len

theorem shiftFormat_fields (op : BitVec 8) (n : BitVec 4) (w : Reg) :
    fieldC (shiftFormat op n w) = n ∧ fieldS (shiftFormat op n w) = w :=
  ⟨(slice_append_within op (n ++ w) 4 4 (by omega)).trans
      ((slice_append_upper n w 0 4).trans BitVec.extractLsb'_eq_self),
    (slice_append_within op (n ++ w) 0 4 (by omega)).trans (slice_append_lower n w)⟩

theorem dispFormat_opcode (op d : BitVec 8) (k len : Nat) :
    (dispFormat op d).extractLsb' (k + 8) len = op.extractLsb' k len :=
  slice_append_upper op d k len

theorem dispFormat_displacement (op d : BitVec 8) : fieldDisp (dispFormat op d) = d :=
  slice_append_lower op d

/-- A word that is `f` under a mask has the slices of `f` that the mask covers. -/
theorem slice_of_masked {v f m : Word} (h : v &&& m = f) (k n : Nat)
    (covered : m.extractLsb' k n = BitVec.allOnes n) : v.extractLsb' k n = f.extractLsb' k n :=
  slice_congr (by rw [← h, BitVec.and_assoc, BitVec.and_self]) k n covered

theorem wordRegFormat_fields {v : Word} {op : BitVec 11} {w : Reg}
    (h : v &&& ~~~0x0010#16 = wordRegFormat op w) :
    v.extractLsb' 12 4 = op.extractLsb' 7 4 ∧ v.extractLsb' 9 3 = op.extractLsb' 4 3 ∧
      v.extractLsb' 5 4 = op.extractLsb' 0 4 ∧ fieldS v = w := by
  have upper := slice_append_upper op (0#1 ++ w)
  exact ⟨(slice_of_masked h 12 4 rfl).trans (upper 7 4),
    (slice_of_masked h 9 3 rfl).trans (upper 4 3), (slice_of_masked h 5 4 rfl).trans (upper 0 4),
    (slice_of_masked h 0 4 rfl).trans ((slice_append_within op (0#1 ++ w) 0 4 (by omega)).trans
      (slice_append_lower 0#1 w))⟩

theorem controlFormat_fields {v : Word} {op : BitVec 11}
    (h : v &&& ~~~0x001F#16 = controlFormat op) :
    v.extractLsb' 12 4 = op.extractLsb' 7 4 ∧ v.extractLsb' 9 3 = op.extractLsb' 4 3 ∧
      v.extractLsb' 5 4 = op.extractLsb' 0 4 := by
  have upper := slice_append_upper op 0#5
  exact ⟨(slice_of_masked h 12 4 rfl).trans (upper 7 4),
    (slice_of_masked h 9 3 rfl).trans (upper 4 3), (slice_of_masked h 5 4 rfl).trans (upper 0 4)⟩

/-! ### From the instruction to the word and back -/

theorem and_not_zero (v : Word) : v &&& ~~~0#16 = v := by
  rw [BitVec.not_zero, BitVec.and_allOnes]

/-- A word that is an instruction's encoding but for filler bits decodes to the instruction. -/
theorem decode_of_encode_masked {i : Instr} {v : Word} (wf : i.wellFormed = true)
    (h : v &&& ~~~i.filler = encode i) : decode v = some i := by
  cases i with
  | szc p q | szcb p q | s p q | sb p q | c p q | cb p q | a p q | ab p q | mov p q | movb p q
  | soc p q | socb p q =>
    obtain ⟨hp, hq⟩ := Bool.and_eq_true_iff.mp wf
    rw [Instr.filler, and_not_zero] at h
    simp only [h, encode, decode, decodeDual, dualFormat_opcode, dualFormat_source _ q hp,
      dualFormat_destination _ p hq]
    rfl
  | coc p d | czc p d | xor p d | xop p d | ldcr p d | stcr p d | mpy p d | div p d =>
    rw [Instr.filler, and_not_zero] at h
    simp only [h, encode, decode, decodeRegDest, regFormat_opcode _ p d 2 4,
      regFormat_opcode _ p d 0 3, regFormat_source _ d wf, regFormat_register]
    rfl
  | blwp p | b p | x p | clr p | neg p | inv p | inc p | inct p | dec p | dect p | bl p | swpb p
  | seto p | abs p =>
    rw [Instr.filler, and_not_zero] at h
    simp only [h, encode, decode, decodeSingle, singleFormat_opcode _ p 6 4,
      singleFormat_opcode _ p 3 3, singleFormat_opcode _ p 0 4, singleFormat_operand _ wf]
    rfl
  | sra n w | srl n w | sla n w | src n w =>
    rw [Instr.filler, and_not_zero] at h
    simp only [h, encode, decode, decodeShift, shiftFormat_opcode _ n w 4 4,
      shiftFormat_opcode _ n w 1 3, shiftFormat_opcode _ n w 0 2, shiftFormat_fields _ n w]
    rfl
  | jmp d | jlt d | jle d | jeq d | jhe d | jgt d | jne d | jnc d | joc d | jno d | jl d | jh d
  | jop d | sbo d | sbz d | tb d =>
    rw [Instr.filler, and_not_zero] at h
    simp only [h, encode, decode, decodeDisp, dispFormat_opcode _ d 4 4, dispFormat_opcode _ d 0 4,
      dispFormat_displacement]
    rfl
  | li w | ai w | andi w | ori w | ci w | stwp w | stst w =>
    obtain ⟨top, middle, low, reg⟩ := wordRegFormat_fields h
    simp only [decode, decodeControl, top, middle, low, reg]
    rfl
  | lwpi | limi | idle | rset | rtwp | ckon | ckof | lrex =>
    obtain ⟨top, middle, low⟩ := controlFormat_fields h
    simp only [decode, decodeControl, top, middle, low]
    rfl

/-- A word of format IMM or STORE with its filler bit cleared (R88, R90). -/
theorem append_filler_mask (op : BitVec 11) (f : BitVec 1) (w : Reg) :
    (op ++ (f ++ w)) &&& ~~~0x0010#16 = op ++ (0#1 ++ w) := by
  have mask : ~~~0x0010#16 = BitVec.allOnes 11 ++ (0#1 ++ BitVec.allOnes 4) := by decide
  rw [mask, BitVec.and_append, BitVec.and_append, BitVec.and_allOnes, BitVec.and_allOnes,
    BitVec.and_zero]

/-- The encoder leaves the filler bits 0. -/
theorem encode_and_not_filler (i : Instr) : encode i &&& ~~~i.filler = encode i := by
  cases i with
  | li w | ai w | andi w | ori w | ci w | stwp w | stst w =>
    exact append_filler_mask _ 0#1 w
  | lwpi | limi | idle | rset | rtwp | ckon | ckof | lrex => rfl
  | _ => exact and_not_zero _

/-- Settles O2: the encoding is a word that is the encoding but for filler bits. -/
theorem decodeOfEncodeIsIdentity : Obligations.DecodeOfEncodeIsIdentity :=
  fun i wf => decode_of_encode_masked wf (encode_and_not_filler i)

/-- Settles O1: each word is what the encoder makes of its instruction. -/
theorem sampleWordsDecode : Obligations.SampleWordsDecode :=
  ⟨decodeOfEncodeIsIdentity (.a (.reg 1#4) (.reg 2#4)) rfl,
    decodeOfEncodeIsIdentity (.cb (.reg 1#4) (.reg 2#4)) rfl,
    decodeOfEncodeIsIdentity (.mov (.reg 1#4) .symbolic) rfl,
    decodeOfEncodeIsIdentity (.xop (.reg 1#4) 2#4) rfl,
    decodeOfEncodeIsIdentity (.ldcr (.reg 1#4) 8#4) rfl,
    decodeOfEncodeIsIdentity (.b (.indirect 11#4)) rfl,
    decodeOfEncodeIsIdentity (.bl .symbolic) rfl,
    decodeOfEncodeIsIdentity (.srl 0#4 1#4) rfl,
    decodeOfEncodeIsIdentity (.jmp 0xFF#8) rfl,
    decodeOfEncodeIsIdentity (.tb 0xFF#8) rfl,
    decodeOfEncodeIsIdentity (.ai 1#4) rfl,
    decodeOfEncodeIsIdentity .limi rfl,
    decodeOfEncodeIsIdentity .rtwp rfl,
    decodeOfEncodeIsIdentity .ckon rfl⟩

/-! ### From the word to the instruction and back -/

/-- The instruction is well formed and stands for the word, but for its filler bits. -/
def Instr.StandsFor (i : Instr) (w : Word) : Prop :=
  i.wellFormed = true ∧ encode i = w &&& ~~~i.filler

/-- A word is its upper bits before its lower ones. -/
theorem upper_append_lower {n : Nat} (k : Nat) (v : BitVec (n + k)) :
    v.extractLsb' k n ++ v.extractLsb' 0 k = v := BitVec.extractLsb'_append_extractLsb'

theorem adjacent_slices (w : Word) (k n m : Nat) :
    w.extractLsb' (k + n) m ++ w.extractLsb' k n = w.extractLsb' k (m + n) :=
  BitVec.extractLsb'_append_extractLsb'_eq_extractLsb' rfl

theorem slice_eq_of_div {w : Word} (k : Nat) {n : Nat} {op : BitVec n}
    (h : w.toNat / 2 ^ k = op.toNat) : w.extractLsb' k n = op :=
  BitVec.eq_of_toNat_eq (by rw [slice_toNat, h, Nat.mod_eq_of_lt op.isLt])

/-- The mode and register fields from weight `k` on are the operand's bits. -/
theorem operandOf_slices_bits (w : Word) (k : Nat) :
    (operandOf (w.extractLsb' (k + 4) 2) (w.extractLsb' k 4)).bits = w.extractLsb' k 6 := by
  rw [operandOf_bits, adjacent_slices w k 4 2]

theorem dualFormat_of_opcode {w : Word} {op : BitVec 4} (h : w.toNat / 2 ^ 12 = op.toNat) :
    dualFormat op (operandOf (fieldTs w) (fieldS w)) (operandOf (fieldTd w) (fieldD w)) = w := by
  rw [dualFormat, fieldTs, fieldS, fieldTd, fieldD, operandOf_slices_bits w 0,
    operandOf_slices_bits w 6, adjacent_slices w 0 6 6, ← slice_eq_of_div 12 h]
  exact upper_append_lower 12 w

theorem regFormat_of_opcode {w : Word} {op : BitVec 6} (h : w.toNat / 2 ^ 10 = op.toNat) :
    regFormat op (operandOf (fieldTs w) (fieldS w)) (fieldD w) = w := by
  rw [regFormat, fieldTs, fieldS, fieldD, operandOf_slices_bits w 0,
    adjacent_slices w 0 6 4, ← slice_eq_of_div 10 h]
  exact upper_append_lower 10 w

theorem singleFormat_of_opcode {w : Word} {op : BitVec 10} (h : w.toNat / 2 ^ 6 = op.toNat) :
    singleFormat op (operandOf (fieldTs w) (fieldS w)) = w := by
  rw [singleFormat, fieldTs, fieldS, operandOf_slices_bits w 0, ← slice_eq_of_div 6 h]
  exact upper_append_lower 6 w

theorem shiftFormat_of_opcode {w : Word} {op : BitVec 8} (h : w.toNat / 2 ^ 8 = op.toNat) :
    shiftFormat op (fieldC w) (fieldS w) = w := by
  rw [shiftFormat, fieldC, fieldS, adjacent_slices w 0 4 4, ← slice_eq_of_div 8 h]
  exact upper_append_lower 8 w

theorem dispFormat_of_opcode {w : Word} {op : BitVec 8} (h : w.toNat / 2 ^ 8 = op.toNat) :
    dispFormat op (fieldDisp w) = w := by
  rw [dispFormat, fieldDisp, ← slice_eq_of_div 8 h]
  exact upper_append_lower 8 w

theorem wordRegFormat_of_opcode {w : Word} {op : BitVec 11} (h : w.toNat / 2 ^ 5 = op.toNat) :
    wordRegFormat op (fieldS w) = w &&& ~~~0x0010#16 := by
  have split : op ++ (w.extractLsb' 4 1 ++ w.extractLsb' 0 4) = w := by
    rw [adjacent_slices w 0 4 1, ← slice_eq_of_div 5 h]
    exact upper_append_lower 5 w
  exact (append_filler_mask op (w.extractLsb' 4 1) (fieldS w)).symm.trans
    (congrArg (· &&& ~~~0x0010#16) split)

theorem controlFormat_of_opcode {w : Word} {op : BitVec 11} (h : w.toNat / 2 ^ 5 = op.toNat) :
    controlFormat op = w &&& ~~~0x001F#16 := by
  have split : op ++ w.extractLsb' 0 5 = w := by
    rw [← slice_eq_of_div 5 h]
    exact upper_append_lower 5 w
  exact (append_upper_mask op (w.extractLsb' 0 5)).symm.trans (congrArg (· &&& ~~~0x001F#16) split)

theorem decodeDual_standsFor {w : Word} {i : Instr} (h : decodeDual w = some i) :
    i.StandsFor w := by
  have wf := operandOf_wellFormed
  simp only [decodeDual, slice_toNat] at h
  split at h <;> cases h <;>
    exact ⟨Bool.and_eq_true_iff.mpr ⟨wf _ _, wf _ _⟩,
      (dualFormat_of_opcode (by rw [BitVec.toNat_ofNat]; omega)).trans (and_not_zero w).symm⟩

theorem decodeRegDest_standsFor {w : Word} {i : Instr} (lead : w.toNat / 2 ^ 13 = 1)
    (h : decodeRegDest w = some i) : i.StandsFor w := by
  simp only [decodeRegDest, slice_toNat] at h
  generalize slice : w.toNat / 2 ^ 10 % 2 ^ 3 = x at h
  have : x < 8 := by omega
  interval_cases x <;> cases h <;>
    exact ⟨operandOf_wellFormed _ _,
      (regFormat_of_opcode (by rw [BitVec.toNat_ofNat]; omega)).trans (and_not_zero w).symm⟩

theorem decodeDisp_standsFor {w : Word} {i : Instr} (lead : w.toNat / 2 ^ 12 = 1)
    (h : decodeDisp w = some i) : i.StandsFor w := by
  simp only [decodeDisp, slice_toNat] at h
  generalize slice : w.toNat / 2 ^ 8 % 2 ^ 4 = x at h
  have : x < 16 := by omega
  interval_cases x <;> cases h <;>
    exact ⟨rfl, (dispFormat_of_opcode (by rw [BitVec.toNat_ofNat]; omega)).trans
      (and_not_zero w).symm⟩

theorem decodeShift_standsFor {w : Word} {i : Instr} (lead : w.toNat / 2 ^ 10 = 2)
    (h : decodeShift w = some i) : i.StandsFor w := by
  simp only [decodeShift, slice_toNat] at h
  generalize slice : w.toNat / 2 ^ 8 % 2 ^ 2 = x at h
  have : x < 4 := by omega
  interval_cases x <;> cases h <;>
    exact ⟨rfl, (shiftFormat_of_opcode (by rw [BitVec.toNat_ofNat]; omega)).trans
      (and_not_zero w).symm⟩

theorem decodeSingle_standsFor {w : Word} {i : Instr} (lead : w.toNat / 2 ^ 10 = 1)
    (h : decodeSingle w = some i) : i.StandsFor w := by
  simp only [decodeSingle, slice_toNat] at h
  split at h <;> cases h <;>
    exact ⟨operandOf_wellFormed _ _,
      (singleFormat_of_opcode (by rw [BitVec.toNat_ofNat]; omega)).trans (and_not_zero w).symm⟩

theorem decodeControl_standsFor {w : Word} {i : Instr} (lead : w.toNat / 2 ^ 9 = 1)
    (h : decodeControl w = some i) : i.StandsFor w := by
  simp only [decodeControl, slice_toNat] at h
  split at h <;> cases h
  iterate 7 exact ⟨rfl, wordRegFormat_of_opcode (by rw [BitVec.toNat_ofNat]; omega)⟩
  all_goals exact ⟨rfl, controlFormat_of_opcode (by rw [BitVec.toNat_ofNat]; omega)⟩

theorem decode_standsFor {w : Word} {i : Instr} (h : decode w = some i) : i.StandsFor w := by
  simp only [decode, slice_toNat] at h
  split at h
  · split at h
    · exact decodeControl_standsFor (by omega) h
    · exact decodeSingle_standsFor (by omega) h
    · exact decodeSingle_standsFor (by omega) h
    · exact decodeShift_standsFor (by omega) h
    · exact decodeShift_standsFor (by omega) h
    · cases h
  · exact decodeDisp_standsFor (by omega) h
  · exact decodeRegDest_standsFor (by omega) h
  · exact decodeRegDest_standsFor (by omega) h
  · exact decodeDual_standsFor h

/-- Settles O3: a decoded word is the encoding but for filler bits, and so is every word that agrees with
it outside them. -/
theorem decodeIgnoresFillerBitsAlone : Obligations.DecodeIgnoresFillerBitsAlone := by
  intro w i decoded
  obtain ⟨wf, encoded⟩ := decode_standsFor decoded
  exact ⟨wf, encoded, fun v agrees => decode_of_encode_masked wf (agrees.trans encoded.symm)⟩

end Sys2Proof

namespace Sys2Proof.Machine

/-! ## Which bits of the status word an update leaves alone (spec/10_state.md, R33, R125) -/

/-- The bits of ST outside the mask are the same. -/
def Status.Keeps (m : Word) (a b : Status) : Prop := b.toWord &&& ~~~m = a.toWord &&& ~~~m

theorem Status.Keeps.refl (m : Word) (t : Status) : t.Keeps m t := rfl

theorem Status.Keeps.trans {m n : Word} {a b c : Status} (h : a.Keeps m b) (k : b.Keeps n c) :
    a.Keeps (m ||| n) c := by
  unfold Status.Keeps at *
  calc c.toWord &&& ~~~(m ||| n) = (c.toWord &&& ~~~n) &&& ~~~m := by
        rw [BitVec.not_or, BitVec.and_comm (~~~m), BitVec.and_assoc]
    _ = (b.toWord &&& ~~~m) &&& ~~~n := by
        rw [k, BitVec.and_assoc, BitVec.and_comm (~~~n), BitVec.and_assoc]
    _ = a.toWord &&& ~~~(m ||| n) := by rw [h, BitVec.not_or, BitVec.and_assoc]

theorem Status.setLAE_keeps {n : Nat} (t : Status) (v : BitVec n) :
    t.Keeps 0xE000#16 (t.setLAE v) := by
  apply Status.toWord_and_congr <;> simp [Status.setLAE]

theorem Status.setCmp_keeps {n : Nat} (t : Status) (a b : BitVec n) :
    t.Keeps 0xE000#16 (t.setCmp a b) := by
  apply Status.toWord_and_congr <;> simp [Status.setCmp]

theorem Status.setEQ_keeps (t : Status) (v : Bool) : t.Keeps 0x2000#16 (t.setEQ v) := by
  apply Status.toWord_and_congr <;> simp [Status.setEQ]

theorem Status.setC_keeps (t : Status) (v : Bool) : t.Keeps 0x1000#16 (t.setC v) := by
  apply Status.toWord_and_congr <;> simp [Status.setC]

theorem Status.setOV_keeps (t : Status) (v : Bool) : t.Keeps 0x0800#16 (t.setOV v) := by
  apply Status.toWord_and_congr <;> simp [Status.setOV]

theorem Status.setOP_keeps (t : Status) (b : Byte) : t.Keeps 0x0400#16 (t.setOP b) := by
  apply Status.toWord_and_congr <;> simp [Status.setOP]

theorem Status.setX_keeps (t : Status) (v : Bool) : t.Keeps 0x0200#16 (t.setX v) := by
  apply Status.toWord_and_congr <;> simp [Status.setX]

theorem Status.setMask_keeps (t : Status) (m : BitVec 4) : t.Keeps 0x000F#16 (t.setMask m) := by
  apply Status.toWord_and_congr <;> simp [Status.setMask]

theorem Status.setArith_keeps {n : Nat} (t : Status) (r : Arith n) :
    t.Keeps 0xF800#16 (t.setArith r) :=
  ((t.setLAE_keeps r.value).trans (Status.setC_keeps _ r.carry)).trans
    (Status.setOV_keeps _ r.overflow)

theorem Status.setLAE_setOP_keeps (t : Status) (v b : Byte) :
    t.Keeps 0xE400#16 ((t.setLAE v).setOP b) := (t.setLAE_keeps v).trans (Status.setOP_keeps _ b)

theorem Status.setArith_setOP_keeps {n : Nat} (t : Status) (r : Arith n) (b : Byte) :
    t.Keeps 0xFC00#16 ((t.setArith r).setOP b) := (t.setArith_keeps r).trans (Status.setOP_keeps _ b)

theorem Status.setCmp_setOP_keeps {n : Nat} (t : Status) (v w : BitVec n) (b : Byte) :
    t.Keeps 0xE400#16 ((t.setCmp v w).setOP b) := (t.setCmp_keeps v w).trans (Status.setOP_keeps _ b)

/-- R31: outside the bits that are storage every status word is 0. -/
theorem Status.keeps_unused (a b : Status) : a.Keeps 0xFE0F#16 b :=
  b.toWord_and_unused.trans a.toWord_and_unused.symm

theorem Status.Keeps.bit {m : Word} {a b : Status} (h : a.Keeps m b) {k : Nat} (hk : k < 16)
    (free : m.getLsbD k = false) : b.toWord.getLsbD k = a.toWord.getLsbD k := by
  have same : (b.toWord &&& ~~~m).getLsbD k = (a.toWord &&& ~~~m).getLsbD k :=
    congrArg (BitVec.getLsbD · k) h
  simpa only [BitVec.getLsbD_and, BitVec.getLsbD_not, hk, free, decide_true, Bool.not_false,
    Bool.and_true] using same

/-- A mask clear of the interrupt mask and of X. -/
theorem getLsbD_of_clear {m : Word} (clear : m &&& 0x020F#16 = 0#16) {k : Nat}
    (hk : (0x020F#16).getLsbD k = true) : m.getLsbD k = false := by
  simpa [hk] using congrArg (BitVec.getLsbD · k) clear

theorem Status.Keeps.x_eq {m : Word} {a b : Status} (h : a.Keeps m b)
    (clear : m &&& 0x020F#16 = 0#16) : b.x = a.x := by
  have same := h.bit (k := 9) (by omega) (getLsbD_of_clear clear rfl)
  rw [Status.toWord_getLsbD, Status.toWord_getLsbD] at same
  simpa using same

theorem Status.Keeps.mask_eq {m : Word} {a b : Status} (h : a.Keeps m b)
    (clear : m &&& 0x020F#16 = 0#16) : b.mask = a.mask := by
  apply BitVec.eq_of_getLsbD_eq
  intro k hk
  have low : ∀ j : Fin 4, (0x020F#16).getLsbD j = true := by decide
  have same := h.bit (k := k) (by omega) (getLsbD_of_clear clear (low ⟨k, hk⟩))
  rwa [Status.toWord_getLsbD, Status.toWord_getLsbD, if_pos hk, if_pos hk] at same

/-! ## Operand operations on any memory map -/

/-- Every address is RAM or a device, so that every access completes (R65). -/
def State.Answers (s : State) : Prop := ∀ a, s.kindAt a = .ram ∨ s.kindAt a = .device

theorem State.Answers.congr {s t : State} (h : s.Answers) (regions : t.regions = s.regions) :
    t.Answers := fun a => by
  rw [State.kindAt_congr regions]
  exact h a

theorem State.Answers.withSt {s : State} (h : s.Answers) (st : Status) : (s.withSt st).Answers :=
  h.congr rfl

theorem State.AllRam.withSt {s : State} (h : s.AllRam) (st : Status) : (s.withSt st).AllRam :=
  h.congr rfl

theorem State.AllRam.answers {s : State} (h : s.AllRam) : s.Answers := fun a => .inl (h a)

theorem writeWord_completes {s : State} (h : s.Answers) (a v : Word) :
    ∃ t, writeWord a v s = .next t := by
  unfold writeWord
  rcases h a with kind | kind <;> rw [kind]
  · exact ⟨_, rfl⟩
  · exact ⟨_, rfl⟩

theorem writeByte_completes {s : State} (h : s.Answers) (a w : Word) (b : Byte) :
    ∃ t, writeByte a w b s = .next t := by
  unfold writeByte
  rcases h a with kind | kind <;> rw [kind]
  · exact ⟨_, rfl⟩
  · exact ⟨_, rfl⟩

/-- An operation that reads operands: it touches memory at most in `P`, keeps ST, advances PC by `n`, and
completes where every access does. -/
structure Reads {α : Type} (f : State → Res α) (P : State → Word → Prop) (n : Word) : Prop where
  steady : ∀ {s u : State} {o : α}, f s = .next (o, u) → Steady (P s) n s u
  completes : ∀ {s : State}, s.Answers → ∃ b, f s = .next b

section
variable {α β : Type} {f : State → Res α} {P : State → Word → Prop} {n : Word}

/-- What follows an operand operation completes when it does so in the state the operation leaves. -/
theorem Reads.andThen_completes {k : α → State → Host.Outcome β Fault Refusal} (r : Reads f P n)
    {s : State} (h : s.Answers) (hk : ∀ o u, u.Answers → ∃ b, k o u = .next b) :
    ∃ b, andThen (f s) k = .next b := by
  obtain ⟨⟨o, u⟩, hf⟩ := r.completes h
  rw [hf, andThen_next]
  exact hk o u (h.congr (r.steady hf).frame.regions)

theorem andDo_completes {r : Result} {k : State → Host.Outcome β Fault Refusal} {s : State}
    (h : s.Answers) (completes : ∃ t, r = .next t) (regions : ∀ t, r = .next t → t.regions = s.regions)
    (hk : ∀ t, t.Answers → ∃ b, k t = .next b) : ∃ b, andDo r k = .next b := by
  obtain ⟨t, rfl⟩ := completes
  exact hk t (h.congr (regions t rfl))

theorem writeWord_andDo_completes {k : State → Host.Outcome β Fault Refusal} {s : State}
    (h : s.Answers) (a v : Word) (hk : ∀ t, t.Answers → ∃ b, k t = .next b) :
    ∃ b, andDo (writeWord a v s) k = .next b :=
  andDo_completes h (writeWord_completes h a v) (fun _ ht => (writeWord_frame ht).regions) hk

end

theorem readWord_reads (a : Word) : Reads (readWord a) (fun _ _ => False) 0#16 where
  steady := readWord_steady
  completes {s} h := by
    unfold readWord
    rcases h a with kind | kind <;> rw [kind]
    · exact ⟨_, rfl⟩
    · exact ⟨_, rfl⟩

theorem readReg_reads (r : Reg) : Reads (readReg r) (fun _ _ => False) 0#16 where
  steady := readWord_steady
  completes {s} := (readWord_reads (s.regAddr r)).completes

theorem fetch_reads : Reads fetch (fun _ _ => False) 2#16 where
  steady := fetch_steady
  completes {s} h := (readWord_reads s.pc).andThen_completes h fun _ _ _ => ⟨_, rfl⟩

/-- An operation that only looks at the state. -/
theorem look_reads {α : Type} (v : State → α) :
    Reads (fun s => .next (v s, s)) (fun _ _ => False) 0#16 where
  steady h := by
    cases h
    exact ⟨Frame.refl _, rfl, by simp, id⟩
  completes _ := ⟨_, rfl⟩

theorem resolve_reads (p : Operand) (size : Size) :
    Reads (resolve p size) (autoBytes p) (2#16 * BitVec.ofNat 16 p.extWords) where
  steady := resolve_steady
  completes {s} h := by
    cases p with
    | reg r => exact ⟨_, rfl⟩
    | indirect r => exact (readReg_reads r).completes h
    | symbolic => exact fetch_reads.completes h
    | indexed r =>
      exact fetch_reads.andThen_completes h fun _ _ ht =>
        (readReg_reads r).andThen_completes ht fun _ _ _ => ⟨_, rfl⟩
    | autoInc r =>
      exact (readReg_reads r).andThen_completes h fun _ _ ht =>
        writeWord_andDo_completes ht _ _ fun _ _ => ⟨_, rfl⟩

theorem fetchWord_reads (p : Operand) :
    Reads (fetchWord p) (autoBytes p) (2#16 * BitVec.ofNat 16 p.extWords) where
  steady := fetchWord_steady
  completes h := (resolve_reads p .word).andThen_completes h fun a _ ht =>
    (readWord_reads a).andThen_completes ht fun _ _ _ => ⟨_, rfl⟩

theorem fetchByte_reads (p : Operand) :
    Reads (fetchByte p) (autoBytes p) (2#16 * BitVec.ofNat 16 p.extWords) where
  steady := fetchByte_steady
  completes h := (resolve_reads p .byte).andThen_completes h fun a _ ht =>
    (readWord_reads a).andThen_completes ht fun _ _ _ => ⟨_, rfl⟩

theorem dualFetch_reads (p q : Operand) :
    Reads (dualFetch p q) (fun s c => autoBytes p s c ∨ autoBytes q s c)
      (2#16 * BitVec.ofNat 16 p.extWords + 2#16 * BitVec.ofNat 16 q.extWords) where
  steady := dualFetch_steady
  completes h := (fetchWord_reads p).andThen_completes h fun _ _ ht =>
    (fetchWord_reads q).andThen_completes ht fun _ _ _ => ⟨_, rfl⟩

theorem dualFetchByte_reads (p q : Operand) :
    Reads (dualFetchByte p q) (fun s c => autoBytes p s c ∨ autoBytes q s c)
      (2#16 * BitVec.ofNat 16 p.extWords + 2#16 * BitVec.ofNat 16 q.extWords) where
  steady := dualFetchByte_steady
  completes h := (fetchByte_reads p).andThen_completes h fun _ _ ht =>
    (fetchByte_reads q).andThen_completes ht fun _ _ _ => ⟨_, rfl⟩

theorem regFetch_reads (p : Operand) (d : Reg) :
    Reads (regFetch p d) (autoBytes p) (2#16 * BitVec.ofNat 16 p.extWords) where
  steady := regFetch_steady
  completes h := (fetchWord_reads p).andThen_completes h fun _ _ ht =>
    (readReg_reads d).andThen_completes ht fun _ _ _ => ⟨_, rfl⟩

theorem shiftCount_reads (c : BitVec 4) : Reads (shiftCount c) (fun _ _ => False) 0#16 where
  steady h := (shiftCount_steady h).2.2
  completes {s} h := by
    unfold shiftCount
    split
    · exact (readReg_reads 0#4).andThen_completes h fun _ _ _ => ⟨_, rfl⟩
    · exact ⟨_, rfl⟩

/-- An operand operation, then a register read: the start of the immediates (R230), of the shifts (R220)
and of the CRU instructions (R186). -/
def withReg {α : Type} (f : State → Res α) (r : Reg) (s : State) : Res (α × Word) :=
  andThen (f s) fun o t => andThen (readReg r t) fun v u => .next ((o, v), u)

theorem andThen_withReg {α β : Type} (f : State → Res α) (r : Reg) (s : State)
    (k : α × Word → State → Host.Outcome β Fault Refusal) :
    andThen (withReg f r s) k =
      andThen (f s) fun o t => andThen (readReg r t) fun v u => k (o, v) u := by
  unfold withReg
  cases f s with
  | next b =>
    obtain ⟨o, t⟩ := b
    simp only [andThen_next]
    cases readReg r t <;> rfl
  | fault e => rfl
  | refused e => rfl

theorem withReg_reads {α : Type} {f : State → Res α} {P : State → Word → Prop} {n : Word}
    (h : Reads f P n) (r : Reg) : Reads (withReg f r) P n where
  steady {s u o} run := by
    obtain ⟨v, t, hf, hm⟩ := andThen_eq_next.mp run
    obtain ⟨w, x, hr, hn⟩ := andThen_eq_next.mp hm
    cases hn
    have := (h.steady hf).trans (readWord_steady hr)
    rw [BitVec.add_zero] at this
    exact this.mono fun _ hc => hc.elim id False.elim
  completes ans := h.andThen_completes ans fun _ _ ht =>
    (readReg_reads r).andThen_completes ht fun _ _ _ => ⟨_, rfl⟩

/-- The operand of `withReg` is the operation's own. -/
theorem withReg_operand {α : Type} {f : State → Res α} {r : Reg} {s t u : State} {o o' : α}
    {w : Word} (fetched : f s = .next (o, t)) (run : withReg f r s = .next ((o', w), u)) :
    o' = o := by
  rw [withReg, fetched, andThen_next] at run
  obtain ⟨_, _, _, hn⟩ := andThen_eq_next.mp run
  cases hn
  rfl

theorem withReg_allRam {α : Type} {f : State → Res α} {s u : State} {o : α} (r : Reg)
    (fetched : f s = .next (o, u)) (ram : u.AllRam) :
    withReg f r s = .next ((o, u.reg r), u) := by
  simp only [withReg, fetched, andThen_next, readReg_allRam ram]

/-! ## What an instruction may do, on any memory map -/

end Sys2Proof.Machine

namespace Sys2Proof

/-- The state `s` with what the instruction itself is there to write besides memory, PC and flags (WP, the
mask or X, a latch, the CRU inputs) as it stands in `t`, the state it ends in. -/
def Instr.base (i : Instr) (s t : Machine.State) : Machine.State :=
  match i with
  | .lwpi => s.withWp t.wp
  | .limi | .rset => s.withSt t.st
  | .rtwp => (s.withSt t.st).withWp t.wp
  | .idle => s.withIdle true
  | .tb _ | .stcr _ _ => s.withCruInputs t.cruInputs
  | .blwp _ => (s.withWp t.wp).withInhibit true
  | .xop _ _ => ((s.withWp t.wp).withInhibit true).withSt { s.st with x := true }
  | _ => s

/-- Is there to write nothing besides memory, PC and flags (R23, R41, R42, R185). -/
def Instr.plain (i : Instr) : Bool :=
  match i with
  | .lwpi | .limi | .rset | .rtwp | .idle | .tb _ | .stcr _ _ | .blwp _ | .xop _ _ | .x _ => false
  | _ => true

theorem Instr.base_of_plain {i : Instr} (h : i.plain = true) (s t : Machine.State) :
    i.base s t = s := by
  cases i with
  | lwpi | limi | rset | rtwp | idle | tb | stcr | blwp | xop | x => cases h
  | _ => rfl

theorem Instr.statusMask_of_plain {i : Instr} (h : i.plain = true) :
    i.statusMask &&& 0x020F#16 = 0#16 := by
  cases i with
  | lwpi | limi | rset | rtwp | idle | tb | stcr | blwp | xop | x => cases h
  | ldcr p c =>
    rw [Instr.statusMask]
    split <;> decide
  | _ =>
    rw [Instr.statusMask]
    decide

end Sys2Proof

namespace Sys2Proof.Machine

/-- What every instruction but X keeps to when it completes: memory outside `P`, ST outside its bits
(R33), PC past its own words unless it is a transfer of control (R20), even PC and WP, the canonical form
of memory, and everything else but what it is there to write. -/
structure Effect (i : Instr) (P : Word → Prop) (s t : State) : Prop where
  frame : Frame P (i.base s t) t
  flags : FlagsKept i s t
  pc : i.writesPc = false → t.pc = s.pc + 2#16 * BitVec.ofNat 16 (i.words - 1)
  even : s.pc.getLsbD 0 = false → s.wp.getLsbD 0 = false →
    t.pc.getLsbD 0 = false ∧ t.wp.getLsbD 0 = false
  wf : s.mem.wf = true → t.mem.wf = true

theorem Effect.mono {i : Instr} {P Q : Word → Prop} {s t : State} (h : Effect i P s t)
    (hpq : ∀ c, P c → Q c) : Effect i Q s t :=
  { h with frame := h.frame.mono hpq }

theorem Effect.plainFrame {i : Instr} {P : Word → Prop} {s t : State} (h : Effect i P s t)
    (plain : i.plain = true) : Frame P s t := Instr.base_of_plain plain s t ▸ h.frame

end Sys2Proof.Machine

namespace Sys2Proof.Machine

/-! ## Effects out of steady operations -/

theorem two_mul_even (k : Word) : (2#16 * k).getLsbD 0 = false := by
  rw [word_getLsbD_zero, decide_eq_false_iff_not, BitVec.toNat_mul, BitVec.toNat_ofNat]
  omega

theorem add_even {a b : Word} (ha : a.getLsbD 0 = false) (hb : b.getLsbD 0 = false) :
    (a + b).getLsbD 0 = false := by
  rw [word_getLsbD_zero, decide_eq_false_iff_not] at *
  rw [BitVec.toNat_add]
  omega

/-- What stays as it was may be replaced in both states alike. -/
theorem Steady.withSt {P : Word → Prop} {n : Word} {s u : State} (h : Steady P n s u)
    (st : Status) : Steady P n (s.withSt st) (u.withSt st) :=
  ⟨{ h.frame with mask := rfl, x := rfl }, rfl, h.pc, h.wf⟩

theorem Steady.withCruInputs {P : Word → Prop} {n : Word} {s u : State} (h : Steady P n s u)
    (c : List Bool) : Steady P n (s.withCruInputs c) (u.withCruInputs c) :=
  ⟨{ h.frame with cruInputs := rfl }, h.st, h.pc, h.wf⟩

/-- Neither what the environment has seen nor the count of draws is part of a frame. -/
theorem Steady.withEvents {P : Word → Prop} {n : Word} {s u : State} (h : Steady P n s u)
    (e : List Event) : Steady P n s (u.withEvents e) :=
  ⟨{ h.frame with }, h.st, h.pc, h.wf⟩

theorem Steady.withDraws {P : Word → Prop} {n : Word} {s u : State} (h : Steady P n s u)
    (d : Nat) : Steady P n s (u.withDraws d) :=
  ⟨{ h.frame with }, h.st, h.pc, h.wf⟩

theorem Steady.regAddr {P : Word → Prop} {n : Word} {s u : State} (h : Steady P n s u) (r : Reg) :
    u.regAddr r = s.regAddr r := by
  rw [State.regAddr, State.regAddr, h.frame.wp]

/-- Where an instruction changes nothing but ST of its bits, and PC past its own words, and then goes on
steadily, it has its effect. -/
theorem Effect.of_steady {i : Instr} {P : Word → Prop} {n : Word} {s s₀ t : State}
    (h : Steady P n s₀ t) (advance : n = 2#16 * BitVec.ofNat 16 (i.words - 1))
    (pc : s₀.pc = s.pc) (wp : s₀.wp = s.wp) (mem : s₀.mem = s.mem)
    (flags : s.st.Keeps i.statusMask s₀.st) (frame : Frame P (i.base s t) t) : Effect i P s t where
  frame := frame
  flags := (congrArg (fun st : Status => st.toWord &&& ~~~i.statusMask) h.st).trans flags
  pc _ := by rw [h.pc, pc, advance]
  even evenPc evenWp :=
    ⟨by rw [h.pc, advance, pc]; exact add_even evenPc (two_mul_even _), by rwa [h.frame.wp, wp]⟩
  wf hw := h.wf (by rwa [mem])

/-- A plain instruction: a new status, and the rest is steady. -/
theorem Effect.of_plain {i : Instr} {P : Word → Prop} {n : Word} {s t : State} {st : Status}
    (plain : i.plain = true) (h : Steady P n (s.withSt st) t)
    (advance : n = 2#16 * BitVec.ofNat 16 (i.words - 1)) (flags : s.st.Keeps i.statusMask st) :
    Effect i P s t :=
  .of_steady h advance rfl rfl rfl flags
    (by
      rw [Instr.base_of_plain plain]
      exact { h.frame with
        mask := h.frame.mask.trans (flags.mask_eq (Instr.statusMask_of_plain plain))
        x := h.frame.x.trans (flags.x_eq (Instr.statusMask_of_plain plain)) })

/-- A plain transfer of control: steady, but for PC. -/
theorem Effect.of_branch {i : Instr} {P : Word → Prop} {n : Word} {s u : State} {a : Word}
    (plain : i.plain = true) (writes : i.writesPc = true) (h : Steady P n s u)
    (even : s.pc.getLsbD 0 = false → a.getLsbD 0 = false) : Effect i P s (u.withPc a) where
  frame := by
    rw [Instr.base_of_plain plain]
    exact h.frame.withPc a
  flags := congrArg (fun st : Status => st.toWord &&& ~~~i.statusMask) h.st
  pc hf := absurd (writes.symm.trans hf) (by decide)
  even evenPc evenWp := ⟨even evenPc, by rwa [State.withPc_wp, h.frame.wp]⟩
  wf := h.wf

/-! ## The shapes of the meanings -/

section
variable {α : Type}

/-- The meaning reads operands and changes ST and what the environment has seen. -/
structure Rates (i : Instr) (f : State → Res α) (st : α → Status → Status)
    (seen : α → List Event) : Prop where
  meaning : ∀ s, exec i s = andThen (f s) fun o u =>
    .next ((u.withSt (st o u.st)).withEvents (seen o ++ u.events))
  keeps : ∀ o t, Status.Keeps i.statusMask t (st o t)

/-- The meaning reads operands, changes ST and stores a word. -/
structure Stores (i : Instr) (f : State → Res α) (addr : α → State → Word) (value : α → Word)
    (st : α → Status → Status) : Prop where
  meaning : ∀ s, exec i s = andThen (f s) fun o u =>
    writeWord (addr o u) (value o) (u.withSt (st o u.st))
  keeps : ∀ o t, Status.Keeps i.statusMask t (st o t)

/-- The meaning reads operands, changes ST and stores a byte. -/
structure StoresByte (i : Instr) (f : State → Res α) (dst : α → ByteOp) (value : α → Byte)
    (st : α → Status → Status) : Prop where
  meaning : ∀ s, exec i s = andThen (f s) fun o u =>
    writeByteOp (dst o) (value o) (u.withSt (st o u.st))
  keeps : ∀ o t, Status.Keeps i.statusMask t (st o t)

variable {i : Instr} {f : State → Res α} {P : State → Word → Prop} {n : Word} {s t u : State}
  {st : α → Status → Status} {seen : α → List Event} {addr : α → State → Word} {value : α → Word}
  {dst : α → ByteOp} {byte : α → Byte} {o : α}

/-! ### On any memory map -/

theorem Rates.next (h : Rates i f st seen) (run : exec i s = .next t) :
    ∃ o u, f s = .next (o, u) ∧ t = (u.withSt (st o u.st)).withEvents (seen o ++ u.events) := by
  rw [h.meaning] at run
  obtain ⟨o, u, fetched, hn⟩ := andThen_eq_next.mp run
  exact ⟨o, u, fetched, (Host.Outcome.next.inj hn).symm⟩

theorem Rates.effect (h : Rates i f st seen) (r : Reads f P n) (plain : i.plain = true)
    (advance : n = 2#16 * BitVec.ofNat 16 (i.words - 1)) (run : exec i s = .next t) :
    Effect i (P s) s t := by
  obtain ⟨o, u, fetched, rfl⟩ := h.next run
  have k := r.steady fetched
  rw [k.st]
  exact .of_plain plain ((k.withSt _).withEvents _) advance (h.keeps o s.st)

theorem Rates.completes (h : Rates i f st seen) (r : Reads f P n) (ans : s.Answers) :
    ∃ t, exec i s = .next t := by
  rw [h.meaning]
  exact r.andThen_completes ans fun _ _ _ => ⟨_, rfl⟩

theorem Stores.next (h : Stores i f addr value st) (run : exec i s = .next t) :
    ∃ o u, f s = .next (o, u) ∧
      writeWord (addr o u) (value o) (u.withSt (st o u.st)) = .next t := by
  rw [h.meaning] at run
  exact andThen_eq_next.mp run

theorem Stores.effect_of_fetched (h : Stores i f addr value st) (r : Reads f P n) (plain : i.plain = true)
    (advance : n = 2#16 * BitVec.ofNat 16 (i.words - 1)) (fetched : f s = .next (o, u))
    (run : exec i s = .next t) : Effect i (fun c => P s c ∨ wordBytes (addr o u) c) s t := by
  rw [h.meaning, fetched, andThen_next] at run
  have k := r.steady fetched
  rw [k.st] at run
  have steady := (k.withSt _).trans (writeWord_steady run)
  rw [BitVec.add_zero] at steady
  exact .of_plain plain steady advance (h.keeps o s.st)

theorem Stores.effect (h : Stores i f addr value st) (r : Reads f P n) (plain : i.plain = true)
    (advance : n = 2#16 * BitVec.ofNat 16 (i.words - 1)) (run : exec i s = .next t) :
    ∃ o u, f s = .next (o, u) ∧ Effect i (fun c => P s c ∨ wordBytes (addr o u) c) s t := by
  obtain ⟨o, u, fetched, -⟩ := h.next run
  exact ⟨o, u, fetched, h.effect_of_fetched r plain advance fetched run⟩

theorem Stores.completes (h : Stores i f addr value st) (r : Reads f P n) (ans : s.Answers) :
    ∃ t, exec i s = .next t := by
  rw [h.meaning]
  exact r.andThen_completes ans fun _ _ hu => writeWord_completes (hu.withSt _) _ _

theorem StoresByte.effect_of_fetched (h : StoresByte i f dst byte st) (r : Reads f P n)
    (plain : i.plain = true) (advance : n = 2#16 * BitVec.ofNat 16 (i.words - 1))
    (fetched : f s = .next (o, u)) (run : exec i s = .next t) :
    Effect i (fun c => P s c ∨ c = (dst o).addr) s t := by
  rw [h.meaning, fetched, andThen_next] at run
  have k := r.steady fetched
  rw [k.st] at run
  have steady := (k.withSt _).trans (writeByte_steady run)
  rw [BitVec.add_zero] at steady
  exact .of_plain plain steady advance (h.keeps o s.st)

theorem StoresByte.effect (h : StoresByte i f dst byte st) (r : Reads f P n) (plain : i.plain = true)
    (advance : n = 2#16 * BitVec.ofNat 16 (i.words - 1)) (run : exec i s = .next t) :
    ∃ o u, f s = .next (o, u) ∧ Effect i (fun c => P s c ∨ c = (dst o).addr) s t := by
  have run' := run
  rw [h.meaning] at run'
  obtain ⟨o, u, fetched, -⟩ := andThen_eq_next.mp run'
  exact ⟨o, u, fetched, h.effect_of_fetched r plain advance fetched run⟩

theorem StoresByte.completes (h : StoresByte i f dst byte st) (r : Reads f P n)
    (ans : s.Answers) : ∃ t, exec i s = .next t := by
  rw [h.meaning]
  exact r.andThen_completes ans fun _ _ hu => writeByte_completes (hu.withSt _) _ _ _

/-! ### Over plain RAM -/

theorem Rates.completesRating {Q : Status → Prop} (h : Rates i f st fun _ => [])
    (fetched : f s = .next (o, u)) (same : u.st = s.st) (rates : Q (st o s.st)) :
    CompletesRating i s u Q := by
  refine ⟨u.withSt (st o s.st), ?_, rfl, h.keeps o s.st, rates⟩
  rw [h.meaning, fetched, andThen_next, same]
  rfl

theorem Stores.completesStoring {Q : Status → Prop} {a r : Word} (h : Stores i f addr value st)
    (fetched : f s = .next (o, u)) (ram : u.AllRam) (same : u.st = s.st) (place : addr o u = a)
    (stored : value o = r) (rates : Q (st o s.st)) : CompletesStoring i s u a r Q := by
  refine ⟨(u.withSt (st o s.st)).storeWord a r, ?_, rfl, h.keeps o s.st, rates⟩
  rw [h.meaning, fetched, andThen_next, same, place, stored]
  exact writeWord_allRam (ram.withSt _) _ _

theorem StoresByte.completesStoringByte {Q : Status → Prop} {a : Word} {r : Byte}
    (h : StoresByte i f dst byte st) (fetched : f s = .next (o, u)) (ram : u.AllRam)
    (same : u.st = s.st) (place : (dst o).addr = a) (stored : byte o = r) (rates : Q (st o s.st)) :
    CompletesStoringByte i s u a r Q := by
  refine ⟨(u.withSt (st o s.st)).storeByte a r, ?_, rfl, h.keeps o s.st, rates⟩
  rw [h.meaning, fetched, andThen_next, same, writeByteOp, place, stored]
  exact writeByte_allRam (ram.withSt _) _ _ _

end

end Sys2Proof.Machine

namespace Sys2Proof.Machine

/-! ## The shape of each instruction's meaning -/

/-! ### Two general operands (spec/41_dual_operand.md) -/

section
variable (p q : Operand)

theorem a_stores : Stores (.a p q) (dualFetch p q) (fun o _ => o.dst.addr)
    (fun o => o.dst.value + o.src) (fun o t => t.setArith (add o.dst.value o.src)) :=
  ⟨fun _ => rfl, fun _ t => t.setArith_keeps _⟩

theorem s_stores : Stores (.s p q) (dualFetch p q) (fun o _ => o.dst.addr)
    (fun o => o.dst.value - o.src) (fun o t => t.setArith (sub o.dst.value o.src)) :=
  ⟨fun _ => rfl, fun _ t => t.setArith_keeps _⟩

theorem soc_stores : Stores (.soc p q) (dualFetch p q) (fun o _ => o.dst.addr)
    (fun o => o.dst.value ||| o.src) (fun o t => t.setLAE (o.dst.value ||| o.src)) :=
  ⟨fun _ => rfl, fun _ t => t.setLAE_keeps _⟩

theorem szc_stores : Stores (.szc p q) (dualFetch p q) (fun o _ => o.dst.addr)
    (fun o => o.dst.value &&& ~~~o.src) (fun o t => t.setLAE (o.dst.value &&& ~~~o.src)) :=
  ⟨fun _ => rfl, fun _ t => t.setLAE_keeps _⟩

theorem mov_stores : Stores (.mov p q) (dualFetch p q) (fun o _ => o.dst.addr) (fun o => o.src)
    (fun o t => t.setLAE o.src) :=
  ⟨fun _ => rfl, fun _ t => t.setLAE_keeps _⟩

theorem ab_storesByte : StoresByte (.ab p q) (dualFetchByte p q) (fun o => o.dst)
    (fun o => o.dst.byte + o.src)
    (fun o t => (t.setArith (add o.dst.byte o.src)).setOP (o.dst.byte + o.src)) :=
  ⟨fun _ => rfl, fun _ t => t.setArith_setOP_keeps _ _⟩

theorem sb_storesByte : StoresByte (.sb p q) (dualFetchByte p q) (fun o => o.dst)
    (fun o => o.dst.byte - o.src)
    (fun o t => (t.setArith (sub o.dst.byte o.src)).setOP (o.dst.byte - o.src)) :=
  ⟨fun _ => rfl, fun _ t => t.setArith_setOP_keeps _ _⟩

theorem socb_storesByte : StoresByte (.socb p q) (dualFetchByte p q) (fun o => o.dst)
    (fun o => o.dst.byte ||| o.src)
    (fun o t => (t.setLAE (o.dst.byte ||| o.src)).setOP (o.dst.byte ||| o.src)) :=
  ⟨fun _ => rfl, fun _ t => t.setLAE_setOP_keeps _ _⟩

theorem szcb_storesByte : StoresByte (.szcb p q) (dualFetchByte p q) (fun o => o.dst)
    (fun o => o.dst.byte &&& ~~~o.src)
    (fun o t => (t.setLAE (o.dst.byte &&& ~~~o.src)).setOP (o.dst.byte &&& ~~~o.src)) :=
  ⟨fun _ => rfl, fun _ t => t.setLAE_setOP_keeps _ _⟩

theorem movb_storesByte : StoresByte (.movb p q) (dualFetchByte p q) (fun o => o.dst)
    (fun o => o.src) (fun o t => (t.setLAE o.src).setOP o.src) :=
  ⟨fun _ => rfl, fun _ t => t.setLAE_setOP_keeps _ _⟩

theorem c_rates : Rates (.c p q) (dualFetch p q) (fun o t => t.setCmp o.src o.dst.value)
    (fun _ => []) :=
  ⟨fun _ => rfl, fun _ t => t.setCmp_keeps _ _⟩

theorem cb_rates : Rates (.cb p q) (dualFetchByte p q)
    (fun o t => (t.setCmp o.src o.dst.byte).setOP o.src) (fun _ => []) :=
  ⟨fun _ => rfl, fun _ t => t.setCmp_setOP_keeps _ _ _⟩

end

/-! ### A general source and a register (spec/42_dual_operand_regdest.md) -/

section
variable (p : Operand) (d : Reg)

theorem coc_rates : Rates (.coc p d) (regFetch p d)
    (fun o t => t.setEQ (o.src &&& ~~~o.reg == 0#16)) (fun _ => []) :=
  ⟨fun _ => rfl, fun _ t => t.setEQ_keeps _⟩

theorem czc_rates : Rates (.czc p d) (regFetch p d)
    (fun o t => t.setEQ (o.src &&& o.reg == 0#16)) (fun _ => []) :=
  ⟨fun _ => rfl, fun _ t => t.setEQ_keeps _⟩

theorem xor_stores : Stores (.xor p d) (regFetch p d) (fun _ u => u.regAddr d)
    (fun o => o.reg ^^^ o.src) (fun o t => t.setLAE (o.reg ^^^ o.src)) :=
  ⟨fun _ => rfl, fun _ t => t.setLAE_keeps _⟩

end

/-! ### One general operand (spec/43_single_operand.md) -/

section
variable (p : Operand)

theorem clr_stores : Stores (.clr p) (fetchWord p) (fun o _ => o.addr) (fun _ => 0x0000#16)
    (fun _ t => t) :=
  ⟨fun _ => rfl, fun _ t => .refl _ t⟩

theorem seto_stores : Stores (.seto p) (fetchWord p) (fun o _ => o.addr) (fun _ => 0xFFFF#16)
    (fun _ t => t) :=
  ⟨fun _ => rfl, fun _ t => .refl _ t⟩

theorem swpb_stores : Stores (.swpb p) (fetchWord p) (fun o _ => o.addr)
    (fun o => loByte o.value ++ hiByte o.value) (fun _ t => t) :=
  ⟨fun _ => rfl, fun _ t => .refl _ t⟩

theorem inv_stores : Stores (.inv p) (fetchWord p) (fun o _ => o.addr) (fun o => ~~~o.value)
    (fun o t => t.setLAE (~~~o.value)) :=
  ⟨fun _ => rfl, fun _ t => t.setLAE_keeps _⟩

theorem neg_stores : Stores (.neg p) (fetchWord p) (fun o _ => o.addr) (fun o => 0#16 - o.value)
    (fun o t => t.setArith (sub 0#16 o.value)) :=
  ⟨fun _ => rfl, fun _ t => t.setArith_keeps _⟩

theorem inc_stores : Stores (.inc p) (fetchWord p) (fun o _ => o.addr) (fun o => o.value + 1#16)
    (fun o t => t.setArith (add o.value 1#16)) :=
  ⟨fun _ => rfl, fun _ t => t.setArith_keeps _⟩

theorem inct_stores : Stores (.inct p) (fetchWord p) (fun o _ => o.addr) (fun o => o.value + 2#16)
    (fun o t => t.setArith (add o.value 2#16)) :=
  ⟨fun _ => rfl, fun _ t => t.setArith_keeps _⟩

theorem dec_stores : Stores (.dec p) (fetchWord p) (fun o _ => o.addr) (fun o => o.value - 1#16)
    (fun o t => t.setArith (sub o.value 1#16)) :=
  ⟨fun _ => rfl, fun _ t => t.setArith_keeps _⟩

theorem dect_stores : Stores (.dect p) (fetchWord p) (fun o _ => o.addr) (fun o => o.value - 2#16)
    (fun o t => t.setArith (sub o.value 2#16)) :=
  ⟨fun _ => rfl, fun _ t => t.setArith_keeps _⟩

/-- The flags of ABS, from the operand before the operation (R168). -/
def absFlags (v : Word) (t : Status) : Status :=
  ((t.setLAE v).setC false).setOV (v == 0x8000#16)

theorem absFlags_keeps (v : Word) (t : Status) : t.Keeps 0xF800#16 (absFlags v t) :=
  ((t.setLAE_keeps v).trans (Status.setC_keeps _ _)).trans (Status.setOV_keeps _ _)

end

/-! ### Immediates and internal registers (spec/48_immediate_internal.md), shifts (spec/47_shifts.md) -/

section
variable (w : Reg)

theorem li_stores : Stores (.li w) fetch (fun _ u => u.regAddr w) (fun imm => imm)
    (fun imm t => t.setLAE imm) :=
  ⟨fun _ => rfl, fun _ t => t.setLAE_keeps _⟩

theorem ai_stores : Stores (.ai w) (withReg fetch w) (fun _ u => u.regAddr w)
    (fun o => o.2 + o.1) (fun o t => t.setArith (add o.2 o.1)) :=
  ⟨fun s => by rw [andThen_withReg]; rfl, fun _ t => t.setArith_keeps _⟩

theorem andi_stores : Stores (.andi w) (withReg fetch w) (fun _ u => u.regAddr w)
    (fun o => o.2 &&& o.1) (fun o t => t.setLAE (o.2 &&& o.1)) :=
  ⟨fun s => by rw [andThen_withReg]; rfl, fun _ t => t.setLAE_keeps _⟩

theorem ori_stores : Stores (.ori w) (withReg fetch w) (fun _ u => u.regAddr w)
    (fun o => o.2 ||| o.1) (fun o t => t.setLAE (o.2 ||| o.1)) :=
  ⟨fun s => by rw [andThen_withReg]; rfl, fun _ t => t.setLAE_keeps _⟩

theorem ci_rates : Rates (.ci w) (withReg fetch w) (fun o t => t.setCmp o.2 o.1) (fun _ => []) :=
  ⟨fun s => by rw [andThen_withReg]; rfl, fun _ t => t.setCmp_keeps _ _⟩

theorem stst_stores : Stores (.stst w) (fun s => .next (s.st.toWord, s)) (fun _ u => u.regAddr w)
    (fun v => v) (fun _ t => t) :=
  ⟨fun _ => rfl, fun _ t => .refl _ t⟩

theorem stwp_stores : Stores (.stwp w) (fun s => .next (s.wp, s)) (fun _ u => u.regAddr w)
    (fun v => v) (fun _ t => t) :=
  ⟨fun _ => rfl, fun _ t => .refl _ t⟩

theorem limi_rates : Rates .limi fetch (fun imm t => t.setMask (imm.extractLsb' 0 4))
    (fun _ => []) :=
  ⟨fun _ => rfl, fun _ t => t.setMask_keeps _⟩

variable (c : BitVec 4)

/-- LGT, AGT, EQ and C after a shift (R220). -/
theorem shiftFlags_keeps (t : Status) (r : Word) (b : Bool) :
    t.Keeps 0xF000#16 ((t.setLAE r).setC b) := (t.setLAE_keeps r).trans (Status.setC_keeps _ b)

theorem sla_stores : Stores (.sla c w) (withReg (shiftCount c) w) (fun _ u => u.regAddr w)
    (fun o => o.2 <<< o.1)
    (fun o t => ((t.setOV (signChanges o.2 o.1)).setLAE (o.2 <<< o.1)).setC
      (o.2.getLsbD (16 - o.1))) :=
  ⟨fun s => by rw [andThen_withReg]; rfl,
    fun _ t => (t.setOV_keeps _).trans (shiftFlags_keeps _ _ _)⟩

theorem sra_stores : Stores (.sra c w) (withReg (shiftCount c) w) (fun _ u => u.regAddr w)
    (fun o => o.2.sshiftRight o.1)
    (fun o t => (t.setLAE (o.2.sshiftRight o.1)).setC (o.2.getLsbD (o.1 - 1))) :=
  ⟨fun s => by rw [andThen_withReg]; rfl, fun _ t => shiftFlags_keeps t _ _⟩

theorem srl_stores : Stores (.srl c w) (withReg (shiftCount c) w) (fun _ u => u.regAddr w)
    (fun o => o.2 >>> o.1)
    (fun o t => (t.setLAE (o.2 >>> o.1)).setC (o.2.getLsbD (o.1 - 1))) :=
  ⟨fun s => by rw [andThen_withReg]; rfl, fun _ t => shiftFlags_keeps t _ _⟩

theorem src_stores : Stores (.src c w) (withReg (shiftCount c) w) (fun _ u => u.regAddr w)
    (fun o => o.2 >>> o.1 ||| o.2 <<< (16 - o.1))
    (fun o t => (t.setLAE (o.2 >>> o.1 ||| o.2 <<< (16 - o.1))).setC (o.2.getLsbD (o.1 - 1))) :=
  ⟨fun s => by rw [andThen_withReg]; rfl, fun _ t => shiftFlags_keeps t _ _⟩

end

/-! ### The CRU (spec/45_cru.md) and the external instructions (spec/49_external.md) -/

section
variable (p : Operand) (d : BitVec 8) {c : BitVec 4}

theorem cruCount_eq_transferCount (c : BitVec 4) : cruCount c = transferCount c := rfl

/-- The output bits of LDCR, newest first (R187). -/
def sentBits (r12 : Word) (v : Word) (n : Nat) : List Event :=
  ((List.range n).map fun k =>
    Event.cruOut (cruBase r12 + BitVec.ofNat 12 k) (v.getLsbD k)).reverse

theorem ldcr_rates_byte (few : transferCount c ≤ 8) : Rates (.ldcr p c) (withReg (fetchByte p) 12#4)
    (fun o t => (t.setLAE o.1.byte).setOP o.1.byte)
    (fun o => sentBits o.2 (o.1.byte.setWidth 16) (transferCount c)) where
  meaning s := by
    rw [andThen_withReg, exec, execLdcr, cruCount_eq_transferCount, if_pos few]
    simp only [cruOutMany_eq]
    rfl
  keeps o t := by
    rw [Instr.statusMask, if_pos few]
    exact t.setLAE_setOP_keeps _ _

theorem ldcr_rates_word (many : ¬ transferCount c ≤ 8) :
    Rates (.ldcr p c) (withReg (fetchWord p) 12#4) (fun o t => t.setLAE o.1.value)
      (fun o => sentBits o.2 o.1.value (transferCount c)) where
  meaning s := by
    rw [andThen_withReg, exec, execLdcr, cruCount_eq_transferCount, if_neg many]
    simp only [cruOutMany_eq]
    rfl
  keeps o t := by
    rw [Instr.statusMask, if_neg many]
    exact t.setLAE_keeps _

theorem sbo_rates : Rates (.sbo d) (readReg 12#4) (fun _ t => t)
    (fun r12 => [.cruOut (cruAddr r12 d) true]) :=
  ⟨fun _ => rfl, fun _ t => .refl _ t⟩

theorem sbz_rates : Rates (.sbz d) (readReg 12#4) (fun _ t => t)
    (fun r12 => [.cruOut (cruAddr r12 d) false]) :=
  ⟨fun _ => rfl, fun _ t => .refl _ t⟩

theorem rset_rates : Rates .rset (fun s => .next ((), s)) (fun _ t => t.setMask 0#4)
    (fun _ => [.ext 0b011#3]) :=
  ⟨fun _ => rfl, fun _ t => t.setMask_keeps _⟩

theorem ckof_rates : Rates .ckof (fun s => .next ((), s)) (fun _ t => t) (fun _ => [.ext 0b110#3]) :=
  ⟨fun _ => rfl, fun _ t => .refl _ t⟩

theorem ckon_rates : Rates .ckon (fun s => .next ((), s)) (fun _ t => t) (fun _ => [.ext 0b101#3]) :=
  ⟨fun _ => rfl, fun _ t => .refl _ t⟩

theorem lrex_rates : Rates .lrex (fun s => .next ((), s)) (fun _ t => t) (fun _ => [.ext 0b111#3]) :=
  ⟨fun _ => rfl, fun _ t => .refl _ t⟩

end

end Sys2Proof.Machine

namespace Sys2Proof.Machine

/-! ## The effect of each instruction, and that it completes where every access does -/

/-- The instruction has an effect whenever it completes, and it completes where every access does. -/
structure Behaves (i : Instr) : Prop where
  effect : ∀ {s t : State}, exec i s = .next t → ∃ P, Effect i P s t
  completes : ∀ {s : State}, s.Answers → ∃ t, exec i s = .next t

theorem two_mul_extWords (n : Nat) :
    2#16 * BitVec.ofNat 16 n = 2#16 * BitVec.ofNat 16 (1 + n - 1) := by
  rw [Nat.add_sub_cancel_left]

theorem two_mul_extWords_add (m n : Nat) : 2#16 * BitVec.ofNat 16 m + 2#16 * BitVec.ofNat 16 n =
    2#16 * BitVec.ofNat 16 (1 + m + n - 1) := by
  rw [show 1 + m + n - 1 = m + n by omega, BitVec.ofNat_add, BitVec.mul_add]

section
variable {α : Type} {i : Instr} {f : State → Res α} {P : State → Word → Prop} {n : Word}
  {st : α → Status → Status} {seen : α → List Event} {addr : α → State → Word} {value : α → Word}
  {dst : α → ByteOp} {byte : α → Byte}

theorem Rates.behaves (h : Rates i f st seen) (r : Reads f P n) (plain : i.plain = true)
    (advance : n = 2#16 * BitVec.ofNat 16 (i.words - 1)) : Behaves i :=
  ⟨fun run => ⟨_, h.effect r plain advance run⟩, h.completes r⟩

theorem Stores.behaves (h : Stores i f addr value st) (r : Reads f P n) (plain : i.plain = true)
    (advance : n = 2#16 * BitVec.ofNat 16 (i.words - 1)) : Behaves i where
  effect run := by
    obtain ⟨_, _, -, e⟩ := h.effect r plain advance run
    exact ⟨_, e⟩
  completes := h.completes r

theorem StoresByte.behaves (h : StoresByte i f dst byte st) (r : Reads f P n) (plain : i.plain = true)
    (advance : n = 2#16 * BitVec.ofNat 16 (i.words - 1)) : Behaves i where
  effect run := by
    obtain ⟨_, _, -, e⟩ := h.effect r plain advance run
    exact ⟨_, e⟩
  completes := h.completes r

end

/-! ### Two general operands -/

section
variable {p q : Operand} {i : Instr}

theorem dualStore_shape (hi : i ∈ [.a p q, .s p q, .soc p q, .szc p q, .mov p q]) :
    (∃ value st, Stores i (dualFetch p q) (fun o _ => o.dst.addr) value st) ∧ i.plain = true ∧
      i.words = 1 + p.extWords + q.extWords := by
  simp only [List.mem_cons, List.not_mem_nil, or_false] at hi
  rcases hi with rfl | rfl | rfl | rfl | rfl
  · exact ⟨⟨_, _, a_stores p q⟩, rfl, rfl⟩
  · exact ⟨⟨_, _, s_stores p q⟩, rfl, rfl⟩
  · exact ⟨⟨_, _, soc_stores p q⟩, rfl, rfl⟩
  · exact ⟨⟨_, _, szc_stores p q⟩, rfl, rfl⟩
  · exact ⟨⟨_, _, mov_stores p q⟩, rfl, rfl⟩

theorem dualStoreByte_shape (hi : i ∈ [.ab p q, .sb p q, .socb p q, .szcb p q, .movb p q]) :
    (∃ value st, StoresByte i (dualFetchByte p q) (fun o => o.dst) value st) ∧ i.plain = true ∧
      i.words = 1 + p.extWords + q.extWords := by
  simp only [List.mem_cons, List.not_mem_nil, or_false] at hi
  rcases hi with rfl | rfl | rfl | rfl | rfl
  · exact ⟨⟨_, _, ab_storesByte p q⟩, rfl, rfl⟩
  · exact ⟨⟨_, _, sb_storesByte p q⟩, rfl, rfl⟩
  · exact ⟨⟨_, _, socb_storesByte p q⟩, rfl, rfl⟩
  · exact ⟨⟨_, _, szcb_storesByte p q⟩, rfl, rfl⟩
  · exact ⟨⟨_, _, movb_storesByte p q⟩, rfl, rfl⟩

theorem dualStore_behaves (hi : i ∈ [.a p q, .s p q, .soc p q, .szc p q, .mov p q]) :
    Behaves i := by
  obtain ⟨⟨_, _, shape⟩, plain, words⟩ := dualStore_shape hi
  exact shape.behaves (dualFetch_reads p q) plain (words ▸ two_mul_extWords_add _ _)

theorem dualStoreByte_behaves (hi : i ∈ [.ab p q, .sb p q, .socb p q, .szcb p q, .movb p q]) :
    Behaves i := by
  obtain ⟨⟨_, _, shape⟩, plain, words⟩ := dualStoreByte_shape hi
  exact shape.behaves (dualFetchByte_reads p q) plain (words ▸ two_mul_extWords_add _ _)


/-- Settles O50: the stored word or byte is the one at the address `dualFetch` gives. -/
theorem frameOfTwoOperandStores : Obligations.FrameOfTwoOperandStores := by
  refine fun s t u p q i => ⟨fun o hi fetched run => ?_, fun o hi fetched run => ?_⟩
  · obtain ⟨⟨_, _, shape⟩, plain, words⟩ := dualStore_shape hi
    have e := shape.effect_of_fetched (dualFetch_reads p q) plain
      (words ▸ two_mul_extWords_add _ _) fetched run
    exact ⟨e.flags, (e.plainFrame plain).mono fun _ => or_assoc.mp⟩
  · obtain ⟨⟨_, _, shape⟩, plain, words⟩ := dualStoreByte_shape hi
    have e := shape.effect_of_fetched (dualFetchByte_reads p q) plain
      (words ▸ two_mul_extWords_add _ _) fetched run
    exact ⟨e.flags, (e.plainFrame plain).mono fun _ => or_assoc.mp⟩

end

/-! ### One general operand, or one and a register -/

section
variable {p : Operand} {d : Reg} {i : Instr} {s t u : State}

theorem rewrite_shape (hi : i ∈ [.clr p, .seto p, .inv p, .neg p, .swpb p, .inc p, .inct p, .dec p,
      .dect p]) :
    (∃ value st, Stores i (fetchWord p) (fun o _ => o.addr) value st) ∧ i.plain = true ∧
      i.words = 1 + p.extWords := by
  simp only [List.mem_cons, List.not_mem_nil, or_false] at hi
  rcases hi with rfl | rfl | rfl | rfl | rfl | rfl | rfl | rfl | rfl
  · exact ⟨⟨_, _, clr_stores p⟩, rfl, rfl⟩
  · exact ⟨⟨_, _, seto_stores p⟩, rfl, rfl⟩
  · exact ⟨⟨_, _, inv_stores p⟩, rfl, rfl⟩
  · exact ⟨⟨_, _, neg_stores p⟩, rfl, rfl⟩
  · exact ⟨⟨_, _, swpb_stores p⟩, rfl, rfl⟩
  · exact ⟨⟨_, _, inc_stores p⟩, rfl, rfl⟩
  · exact ⟨⟨_, _, inct_stores p⟩, rfl, rfl⟩
  · exact ⟨⟨_, _, dec_stores p⟩, rfl, rfl⟩
  · exact ⟨⟨_, _, dect_stores p⟩, rfl, rfl⟩

theorem rewrite_behaves (hi : i ∈ [.clr p, .seto p, .inv p, .neg p, .swpb p, .inc p, .inct p, .dec p,
      .dect p]) : Behaves i := by
  obtain ⟨⟨_, _, shape⟩, plain, words⟩ := rewrite_shape hi
  exact shape.behaves (fetchWord_reads p) plain (words ▸ two_mul_extWords _)


/-- ABS of an operand that is not negative changes flags alone (R168). -/
theorem abs_effect_of_positive {o : WordOp} (fetched : fetchWord p s = .next (o, u))
    (positive : o.value.msb = false) (run : exec (.abs p) s = .next t) :
    Effect (.abs p) (autoBytes p s) s t := by
  have k := fetchWord_steady fetched
  simp only [exec, execAbs, fetched, andThen_next, positive, Bool.false_eq_true, if_false, k.st] at run
  cases run
  exact .of_plain rfl (k.withSt _) (two_mul_extWords _) (absFlags_keeps o.value s.st)

theorem abs_effect {o : WordOp} (fetched : fetchWord p s = .next (o, u))
    (run : exec (.abs p) s = .next t) :
    Effect (.abs p) (fun c => autoBytes p s c ∨ wordBytes o.addr c) s t := by
  cases negative : o.value.msb with
  | false => exact (abs_effect_of_positive fetched negative run).mono fun _ => .inl
  | true =>
    have k := fetchWord_steady fetched
    simp only [exec, execAbs, fetched, andThen_next, negative, if_true, k.st] at run
    have steady := (k.withSt _).trans (writeWord_steady run)
    rw [BitVec.add_zero] at steady
    exact .of_plain rfl steady (two_mul_extWords _) (absFlags_keeps o.value s.st)

theorem abs_behaves : Behaves (.abs p) where
  effect run := by
    obtain ⟨o, u, fetched, -⟩ := andThen_eq_next.mp run
    exact ⟨_, abs_effect fetched run⟩
  completes ans := (fetchWord_reads p).andThen_completes ans fun o u hu => by
    dsimp only
    split
    · exact writeWord_completes (hu.withSt _) _ _
    · exact ⟨_, rfl⟩


theorem xor_effect (run : exec (.xor p d) s = .next t) :
    Effect (.xor p d) (fun c => autoBytes p s c ∨ wordBytes (s.regAddr d) c) s t := by
  obtain ⟨o, u, fetched, e⟩ :=
    (xor_stores p d).effect (regFetch_reads p d) rfl (two_mul_extWords _) run
  rwa [(regFetch_steady fetched).regAddr] at e

/-- The two stores into the pair of a register (R157). -/
theorem storePair_steady {a b : Word} {v : State} (high : writeReg d a s = .next v)
    (low : writeWord (v.pairAddr d) b v = .next t) :
    Steady (fun c => wordBytes (s.regAddr d) c ∨ wordBytes (s.pairAddr d) c) 0#16 s t := by
  have k := writeWord_steady high
  have same : v.pairAddr d = s.pairAddr d := by rw [State.pairAddr, k.regAddr, State.pairAddr]
  have steady := k.trans (writeWord_steady low)
  rwa [same, BitVec.add_zero] at steady

theorem storePair_completes (ans : s.Answers) (a b : Word) :
    ∃ t, andDo (writeReg d a s) (fun v => writeWord (v.pairAddr d) b v) = .next t :=
  writeWord_andDo_completes ans _ a fun v hv => writeWord_completes hv (v.pairAddr d) b

theorem mpy_effect (run : exec (.mpy p d) s = .next t) :
    Effect (.mpy p d) (fun c => autoBytes p s c ∨ wordBytes (s.regAddr d) c ∨
      wordBytes (s.pairAddr d) c) s t := by
  obtain ⟨o, u, fetched, stores⟩ := andThen_eq_next.mp run
  obtain ⟨v, high, low⟩ := andDo_eq_next.mp stores
  have k := regFetch_steady fetched
  have steady := k.trans (storePair_steady high low)
  rw [BitVec.add_zero, k.regAddr, State.pairAddr, k.regAddr] at steady
  exact .of_steady steady (two_mul_extWords _) rfl rfl rfl (.refl _ _) steady.frame

theorem mpy_behaves : Behaves (.mpy p d) where
  effect run := ⟨_, mpy_effect run⟩
  completes ans := (regFetch_reads p d).andThen_completes ans fun _ _ hu =>
    storePair_completes hu _ _

/-- DIV that overflows changes OV alone (R155). -/
theorem div_effect_of_overflow {o : RegOp} (fetched : regFetch p d s = .next (o, u))
    (overflow : o.src ≤ o.reg) (run : exec (.div p d) s = .next t) :
    Effect (.div p d) (autoBytes p s) s t := by
  have k := regFetch_steady fetched
  simp only [exec, execDiv, fetched, andThen_next, overflow, if_true] at run
  cases run
  exact .of_plain rfl (k.st ▸ k.withSt _) (two_mul_extWords _) (s.st.setOV_keeps true)

theorem div_effect (run : exec (.div p d) s = .next t) :
    Effect (.div p d) (fun c => autoBytes p s c ∨ wordBytes (s.regAddr d) c ∨
      wordBytes (s.pairAddr d) c) s t := by
  obtain ⟨o, u, fetched, -⟩ := andThen_eq_next.mp run
  by_cases overflow : o.src ≤ o.reg
  · exact (div_effect_of_overflow fetched overflow run).mono fun _ => .inl
  · simp only [exec, execDiv, fetched, andThen_next, overflow, if_false] at run
    obtain ⟨lo, x, read, stores⟩ := andThen_eq_next.mp run
    obtain ⟨v, high, low⟩ := andDo_eq_next.mp stores
    have k := regFetch_steady fetched
    have k' := k.trans (readWord_steady read)
    rw [BitVec.add_zero] at k'
    have steady := (k'.withSt (x.st.setOV false)).trans (storePair_steady high low)
    rw [BitVec.add_zero, k'.st, State.pairAddr, k'.withSt _ |>.regAddr] at steady
    exact .of_plain rfl (steady.mono fun _ => Or.imp_left fun h => h.elim id False.elim)
      (two_mul_extWords _) (s.st.setOV_keeps false)

theorem div_behaves : Behaves (.div p d) where
  effect run := ⟨_, div_effect run⟩
  completes ans := (regFetch_reads p d).andThen_completes ans fun o u hu => by
    split
    · exact ⟨_, rfl⟩
    · exact (readWord_reads _).andThen_completes hu fun _ _ hv =>
        storePair_completes (hv.withSt _) _ _

end

end Sys2Proof.Machine

namespace Sys2Proof.Machine

/-! ### Branch and link -/

section
variable {p : Operand} {s t : State}

theorem bl_effect (run : exec (.bl p) s = .next t) :
    Effect (.bl p) (fun c => autoBytes p s c ∨ wordBytes (s.regAddr 11#4) c) s t := by
  obtain ⟨o, u, fetched, links⟩ := andThen_eq_next.mp run
  obtain ⟨v, link, hn⟩ := andDo_eq_next.mp links
  cases hn
  have k := fetchWord_steady fetched
  have steady := k.trans (writeWord_steady link)
  rw [k.regAddr] at steady
  exact .of_branch rfl rfl steady fun _ => evenAddr_getLsbD_zero _

theorem bl_behaves : Behaves (.bl p) where
  effect run := ⟨_, bl_effect run⟩
  completes ans := (fetchWord_reads p).andThen_completes ans fun _ _ hu =>
    writeWord_andDo_completes hu _ _ fun _ _ => ⟨_, rfl⟩

/-- Settles O52: the rewritten word is the one at the address `fetchWord` gives, and BL's is R11. -/
theorem frameOfOneOperandInstructions : Obligations.FrameOfOneOperandInstructions := by
  refine fun s t u p i o fetched run => ⟨fun hi => ?_, ?_, ?_⟩
  · have cases : i = .abs p ∨ i ∈ [.clr p, .seto p, .inv p, .neg p, .swpb p, .inc p, .inct p,
        .dec p, .dect p] := by
      simp only [List.mem_cons, List.not_mem_nil, or_false] at hi ⊢
      tauto
    rcases cases with rfl | hi
    · have e := abs_effect fetched run
      exact ⟨e.flags, e.plainFrame rfl⟩
    · obtain ⟨⟨_, _, shape⟩, plain, words⟩ := rewrite_shape hi
      have e := shape.effect_of_fetched (fetchWord_reads p) plain (words ▸ two_mul_extWords _)
        fetched run
      exact ⟨e.flags, e.plainFrame plain⟩
  · rintro rfl positive
    exact (abs_effect_of_positive fetched positive run).plainFrame rfl
  · rintro rfl
    exact ⟨(bl_effect run).flags, (bl_effect run).plainFrame rfl⟩

end

/-! ### A register destination without a general operand -/

section
variable {r : Reg} {n : BitVec 4} {d : BitVec 8} {i : Instr} {s t : State}

theorem regStore_shape (hi : i ∈ [.li r, .ai r, .andi r, .ori r, .stst r, .stwp r, .sra n r,
      .srl n r, .sla n r, .src n r]) :
    i.plain = true ∧ ∃ (α : Type) (f : State → Res α) (value : α → Word) (st : _) (m : Word),
      Stores i f (fun _ u => u.regAddr r) value st ∧ Reads f (fun _ _ => False) m ∧
      m = 2#16 * BitVec.ofNat 16 (i.words - 1) := by
  have shift := withReg_reads (shiftCount_reads n) r
  have imm := withReg_reads fetch_reads r
  simp only [List.mem_cons, List.not_mem_nil, or_false] at hi
  rcases hi with rfl | rfl | rfl | rfl | rfl | rfl | rfl | rfl | rfl | rfl
  · exact ⟨rfl, _, _, _, _, _, li_stores r, fetch_reads, rfl⟩
  · exact ⟨rfl, _, _, _, _, _, ai_stores r, imm, rfl⟩
  · exact ⟨rfl, _, _, _, _, _, andi_stores r, imm, rfl⟩
  · exact ⟨rfl, _, _, _, _, _, ori_stores r, imm, rfl⟩
  · exact ⟨rfl, _, _, _, _, _, stst_stores r, look_reads _, rfl⟩
  · exact ⟨rfl, _, _, _, _, _, stwp_stores r, look_reads _, rfl⟩
  · exact ⟨rfl, _, _, _, _, _, sra_stores r n, shift, rfl⟩
  · exact ⟨rfl, _, _, _, _, _, srl_stores r n, shift, rfl⟩
  · exact ⟨rfl, _, _, _, _, _, sla_stores r n, shift, rfl⟩
  · exact ⟨rfl, _, _, _, _, _, src_stores r n, shift, rfl⟩

theorem regStore_behaves (hi : i ∈ [.li r, .ai r, .andi r, .ori r, .stst r, .stwp r, .sra n r,
      .srl n r, .sla n r, .src n r]) : Behaves i := by
  obtain ⟨plain, _, _, _, _, _, shape, reads, advance⟩ := regStore_shape hi
  exact shape.behaves reads plain advance

theorem regStore_effect (hi : i ∈ [.li r, .ai r, .andi r, .ori r, .stst r, .stwp r, .sra n r,
      .srl n r, .sla n r, .src n r]) (run : exec i s = .next t) :
    Effect i (wordBytes (s.regAddr r)) s t := by
  obtain ⟨plain, _, _, _, _, _, shape, reads, advance⟩ := regStore_shape hi
  obtain ⟨o, u, fetched, e⟩ := shape.effect reads plain advance run
  rw [(reads.steady fetched).regAddr] at e
  exact e.mono fun _ h => h.elim False.elim id

/-- Settles O53: one lemma for the instructions that store into a register alone, and one each for XOR,
MPY and DIV, whose register follows a general operand. -/
theorem frameOfRegisterDestinations : Obligations.FrameOfRegisterDestinations := by
  refine fun s t p r n i run => ⟨fun hi => ?_, ?_, fun hi => ?_, ?_⟩
  · obtain ⟨plain, -⟩ := regStore_shape hi
    exact ⟨(regStore_effect hi run).flags, (regStore_effect hi run).plainFrame plain⟩
  · rintro rfl
    exact ⟨(xor_effect run).flags, (xor_effect run).plainFrame rfl⟩
  · simp only [List.mem_cons, List.not_mem_nil, or_false] at hi
    rcases hi with rfl | rfl
    · exact ⟨(mpy_effect run).flags, (mpy_effect run).plainFrame rfl⟩
    · exact ⟨(div_effect run).flags, (div_effect run).plainFrame rfl⟩
  · rintro o u rfl fetched overflow
    exact (div_effect_of_overflow fetched overflow run).plainFrame rfl

/-! ### Instructions that store nothing -/

theorem still_shape (hi : i ∈ [.ci r, .sbo d, .sbz d, .ckof, .ckon, .lrex]) :
    i.plain = true ∧ ∃ (α : Type) (f : State → Res α) (st : _) (seen : _) (m : Word),
      Rates i f st seen ∧ Reads f (fun _ _ => False) m ∧
      m = 2#16 * BitVec.ofNat 16 (i.words - 1) := by
  simp only [List.mem_cons, List.not_mem_nil, or_false] at hi
  rcases hi with rfl | rfl | rfl | rfl | rfl | rfl
  · exact ⟨rfl, _, _, _, _, _, ci_rates r, withReg_reads fetch_reads r, rfl⟩
  · exact ⟨rfl, _, _, _, _, _, sbo_rates d, readReg_reads 12#4, rfl⟩
  · exact ⟨rfl, _, _, _, _, _, sbz_rates d, readReg_reads 12#4, rfl⟩
  · exact ⟨rfl, _, _, _, _, _, ckof_rates, look_reads _, rfl⟩
  · exact ⟨rfl, _, _, _, _, _, ckon_rates, look_reads _, rfl⟩
  · exact ⟨rfl, _, _, _, _, _, lrex_rates, look_reads _, rfl⟩

theorem still_behaves (hi : i ∈ [.ci r, .sbo d, .sbz d, .ckof, .ckon, .lrex]) : Behaves i := by
  obtain ⟨plain, _, _, _, _, _, shape, reads, advance⟩ := still_shape hi
  exact shape.behaves reads plain advance

/-- Every jump tests the flags alone (R200). -/
theorem jump_shape (hi : i ∈ [.jmp d, .jlt d, .jle d, .jeq d, .jhe d, .jgt d, .jne d, .jnc d, .joc d,
      .jno d, .jl d, .jh d, .jop d]) :
    i.plain = true ∧ i.writesPc = true ∧ ∃ cond : Status → Bool, ∀ s, exec i s = jump (cond s.st) d s := by
  simp only [List.mem_cons, List.not_mem_nil, or_false] at hi
  rcases hi with rfl | rfl | rfl | rfl | rfl | rfl | rfl | rfl | rfl | rfl | rfl | rfl | rfl
  · exact ⟨rfl, rfl, fun _ => true, fun _ => rfl⟩
  · exact ⟨rfl, rfl, fun t => !t.agt && !t.eq, fun _ => rfl⟩
  · exact ⟨rfl, rfl, fun t => !t.lgt || t.eq, fun _ => rfl⟩
  · exact ⟨rfl, rfl, fun t => t.eq, fun _ => rfl⟩
  · exact ⟨rfl, rfl, fun t => t.lgt || t.eq, fun _ => rfl⟩
  · exact ⟨rfl, rfl, fun t => t.agt, fun _ => rfl⟩
  · exact ⟨rfl, rfl, fun t => !t.eq, fun _ => rfl⟩
  · exact ⟨rfl, rfl, fun t => !t.c, fun _ => rfl⟩
  · exact ⟨rfl, rfl, fun t => t.c, fun _ => rfl⟩
  · exact ⟨rfl, rfl, fun t => !t.ov, fun _ => rfl⟩
  · exact ⟨rfl, rfl, fun t => !t.lgt && !t.eq, fun _ => rfl⟩
  · exact ⟨rfl, rfl, fun t => t.lgt && !t.eq, fun _ => rfl⟩
  · exact ⟨rfl, rfl, fun t => t.op, fun _ => rfl⟩

theorem Steady.refl (s : State) : Steady (fun _ => False) 0#16 s s :=
  ⟨Frame.refl s, rfl, by simp, id⟩

theorem jump_effect (hi : i ∈ [.jmp d, .jlt d, .jle d, .jeq d, .jhe d, .jgt d, .jne d, .jnc d, .joc d,
      .jno d, .jl d, .jh d, .jop d]) (run : exec i s = .next t) : Effect i (fun _ => False) s t := by
  obtain ⟨plain, writes, cond, meaning⟩ := jump_shape hi
  rw [meaning, jump] at run
  cases run
  split
  · exact .of_branch plain writes (.refl s) fun _ => evenAddr_getLsbD_zero _
  · exact .of_branch (a := s.pc) plain writes (.refl s) id

theorem jump_behaves (hi : i ∈ [.jmp d, .jlt d, .jle d, .jeq d, .jhe d, .jgt d, .jne d, .jnc d, .joc d,
      .jno d, .jl d, .jh d, .jop d]) : Behaves i where
  effect run := ⟨_, jump_effect hi run⟩
  completes _ := by
    obtain ⟨-, -, cond, meaning⟩ := jump_shape hi
    exact ⟨_, meaning _⟩

variable {p q : Operand} {c : BitVec 4}

theorem ldcr_effect (run : exec (.ldcr p c) s = .next t) :
    Effect (.ldcr p c) (autoBytes p s) s t := by
  by_cases few : transferCount c ≤ 8
  · exact (ldcr_rates_byte p few).effect (withReg_reads (fetchByte_reads p) 12#4) rfl
      (two_mul_extWords _) run
  · exact (ldcr_rates_word p few).effect (withReg_reads (fetchWord_reads p) 12#4) rfl
      (two_mul_extWords _) run

theorem ldcr_behaves : Behaves (.ldcr p c) where
  effect run := ⟨_, ldcr_effect run⟩
  completes ans := by
    by_cases few : transferCount c ≤ 8
    · exact (ldcr_rates_byte p few).completes (withReg_reads (fetchByte_reads p) 12#4) ans
    · exact (ldcr_rates_word p few).completes (withReg_reads (fetchWord_reads p) 12#4) ans

theorem b_effect (run : exec (.b p) s = .next t) : Effect (.b p) (autoBytes p s) s t := by
  obtain ⟨o, u, fetched, hn⟩ := andThen_eq_next.mp run
  cases hn
  exact .of_branch rfl rfl (fetchWord_steady fetched) fun _ => evenAddr_getLsbD_zero _

theorem b_behaves : Behaves (.b p) where
  effect run := ⟨_, b_effect run⟩
  completes ans := (fetchWord_reads p).andThen_completes ans fun _ _ _ => ⟨_, rfl⟩

theorem operandRating_effect (hi : i ∈ [.coc p r, .czc p r, .ldcr p n, .b p])
    (run : exec i s = .next t) : Effect i (autoBytes p s) s t ∧ i.plain = true := by
  simp only [List.mem_cons, List.not_mem_nil, or_false] at hi
  rcases hi with rfl | rfl | rfl | rfl
  · exact ⟨(coc_rates p r).effect (regFetch_reads p r) rfl (two_mul_extWords _) run, rfl⟩
  · exact ⟨(czc_rates p r).effect (regFetch_reads p r) rfl (two_mul_extWords _) run, rfl⟩
  · exact ⟨ldcr_effect run, rfl⟩
  · exact ⟨b_effect run, rfl⟩

/-- Settles O51: their meanings only read operands, rate and jump. -/
theorem frameOfInstructionsThatStoreNothing : Obligations.FrameOfInstructionsThatStoreNothing := by
  refine fun s t p q r n d i run => ⟨fun hi => ?_, fun hi => ?_, fun hi => ?_⟩
  · simp only [List.mem_cons, List.not_mem_nil, or_false] at hi
    rcases hi with rfl | rfl
    · have e := (c_rates p q).effect (dualFetch_reads p q) rfl (two_mul_extWords_add _ _) run
      exact ⟨e.flags, e.plainFrame rfl⟩
    · have e := (cb_rates p q).effect (dualFetchByte_reads p q) rfl (two_mul_extWords_add _ _) run
      exact ⟨e.flags, e.plainFrame rfl⟩
  · obtain ⟨e, plain⟩ := operandRating_effect hi run
    exact ⟨e.flags, e.plainFrame plain⟩
  · have split : i ∈ [.ci r, .sbo d, .sbz d, .ckof, .ckon, .lrex] ∨ i ∈ [.jmp d, .jlt d, .jle d,
        .jeq d, .jhe d, .jgt d, .jne d, .jnc d, .joc d, .jno d, .jl d, .jh d, .jop d] := by
      simp only [List.mem_cons, List.not_mem_nil, or_false] at hi ⊢
      tauto
    rcases split with hi | hi
    · obtain ⟨plain, _, _, _, _, _, shape, reads, advance⟩ := still_shape hi
      have e := shape.effect reads plain advance run
      exact ⟨e.flags, e.plainFrame plain⟩
    · obtain ⟨plain, -⟩ := jump_shape hi
      exact ⟨(jump_effect hi run).flags, (jump_effect hi run).plainFrame plain⟩

end

end Sys2Proof.Machine

namespace Sys2Proof.Machine

/-! ### The instructions on WP, ST, the latches and the CRU inputs -/

theorem Frame.withWp {P : Word → Prop} {s u : State} (h : Frame P s u) (w : Word) :
    Frame P (s.withWp w) (u.withWp w) := { h with wp := rfl }

theorem Frame.withInhibit {P : Word → Prop} {s u : State} (h : Frame P s u) (v : Bool) :
    Frame P (s.withInhibit v) (u.withInhibit v) := { h with inhibit := rfl }

theorem Frame.withIdle {P : Word → Prop} {s u : State} (h : Frame P s u) (v : Bool) :
    Frame P (s.withIdle v) (u.withIdle v) := { h with idle := rfl }

theorem Frame.withSt_both {P : Word → Prop} {s u : State} (h : Frame P s u) (st : Status) :
    Frame P (s.withSt st) (u.withSt st) := { h with mask := rfl, x := rfl }

section
variable {p : Operand} {c : BitVec 4} {d : BitVec 8} {s t : State}

theorem lwpi_effect (run : exec .lwpi s = .next t) :
    t.st = s.st ∧ Effect .lwpi (fun _ => False) s t := by
  obtain ⟨imm, u, fetched, hn⟩ := andThen_eq_next.mp run
  cases hn
  have k := fetch_steady fetched
  exact ⟨k.st,
    { frame := k.frame.withWp _
      flags := congrArg (fun st : Status => st.toWord &&& ~~~Instr.lwpi.statusMask) k.st
      pc := fun _ => k.pc
      even := fun evenPc _ => ⟨(congrArg (BitVec.getLsbD · 0) k.pc).trans
        (add_even evenPc (two_mul_even 1#16)), evenAddr_getLsbD_zero _⟩
      wf := k.wf }⟩

theorem rtwp_effect (run : exec .rtwp s = .next t) : Effect .rtwp (fun _ => False) s t := by
  obtain ⟨st, s1, h1, r1⟩ := andThen_eq_next.mp run
  obtain ⟨pc, s2, h2, r2⟩ := andThen_eq_next.mp r1
  obtain ⟨wp, s3, h3, hn⟩ := andThen_eq_next.mp r2
  cases hn
  have k := ((readWord_steady h1).trans (readWord_steady h2)).trans (readWord_steady h3)
  exact
    { frame := (((k.frame.withSt_both _).withPc _).withWp _).mono fun _ h =>
        h.elim (fun h => h.elim id id) id
      flags := Status.keeps_unused _ _
      pc := fun h => nomatch h
      even := fun _ _ => ⟨evenAddr_getLsbD_zero _, evenAddr_getLsbD_zero _⟩
      wf := k.wf }

/-- LIMI and RSET write the mask and nothing else. -/
theorem Rates.mask_effect {α : Type} {i : Instr} {f : State → Res α} {st : α → Status → Status}
    {seen : α → List Event} {n : Word} (h : Rates i f st seen) (r : Reads f (fun _ _ => False) n)
    (base : ∀ s t, i.base s t = s.withSt t.st)
    (advance : n = 2#16 * BitVec.ofNat 16 (i.words - 1)) (run : exec i s = .next t) :
    Effect i (fun _ => False) s t := by
  obtain ⟨o, u, fetched, rfl⟩ := h.next run
  have k := r.steady fetched
  rw [k.st]
  have steady := (k.withSt (st o s.st)).withEvents (seen o ++ u.events)
  exact .of_steady steady advance rfl rfl rfl (h.keeps o s.st) (base s _ ▸ steady.frame)

theorem limi_effect (run : exec .limi s = .next t) : Effect .limi (fun _ => False) s t :=
  limi_rates.mask_effect fetch_reads (fun _ _ => rfl) rfl run

theorem rset_effect (run : exec .rset s = .next t) : Effect .rset (fun _ => False) s t :=
  rset_rates.mask_effect (look_reads _) (fun _ _ => rfl) rfl run

theorem idle_effect (run : exec .idle s = .next t) : Effect .idle (fun _ => False) s t := by
  cases run
  have steady := (Steady.refl (s.withIdle true)).withEvents (.ext idleCode :: s.events)
  exact .of_steady (s₀ := s.withIdle true) steady rfl rfl rfl rfl (.refl _ _) steady.frame

/-- An instruction that uses up CRU inputs, and else is as a plain one. -/
theorem Effect.of_inputs {i : Instr} {P : Word → Prop} {n : Word} {st : Status} {inputs : List Bool}
    (base : i.base s t = s.withCruInputs t.cruInputs) (clear : i.statusMask &&& 0x020F#16 = 0#16)
    (h : Steady P n ((s.withCruInputs inputs).withSt st) t)
    (advance : n = 2#16 * BitVec.ofNat 16 (i.words - 1)) (flags : s.st.Keeps i.statusMask st) :
    Effect i P s t :=
  .of_steady h advance rfl rfl rfl flags
    (by
      rw [base]
      exact { h.frame with
        mask := h.frame.mask.trans (flags.mask_eq clear)
        x := h.frame.x.trans (flags.x_eq clear)
        cruInputs := rfl })

theorem tb_effect (run : exec (.tb d) s = .next t) : Effect (.tb d) (fun _ => False) s t := by
  obtain ⟨r12, u, read, hn⟩ := andThen_eq_next.mp run
  rw [cruIn_eq] at hn
  cases hn
  have k := readWord_steady read
  refine .of_inputs rfl (by rw [Instr.statusMask]; decide)
    (((k.withCruInputs _).withDraws _).withSt _) rfl ?_
  rw [← k.st]
  exact Status.setEQ_keeps _ _

theorem stcr_statusMask_clear : (Instr.stcr p c).statusMask &&& 0x020F#16 = 0#16 := by
  rw [Instr.statusMask]
  split <;> decide

/-- STCR, for 1 to 8 bits (R188): what it stores, and where. -/
theorem stcr_byte (few : transferCount c ≤ 8) (s : State) :
    exec (.stcr p c) s = andThen (withReg (fetchByte p) 12#4 s) fun o u =>
      let v := cruInMany (cruBase o.2) (transferCount c) u
      let b := loByte v.1
      writeByteOp o.1 b (v.2.withSt ((v.2.st.setLAE b).setOP b)) := by
  rw [andThen_withReg, exec, execStcr, cruCount_eq_transferCount, if_pos few]

/-- STCR, for 9 to 16 bits (R188). -/
theorem stcr_word (many : ¬ transferCount c ≤ 8) (s : State) :
    exec (.stcr p c) s = andThen (withReg (fetchWord p) 12#4 s) fun o u =>
      let v := cruInMany (cruBase o.2) (transferCount c) u
      writeWord o.1.addr v.1 (v.2.withSt (v.2.st.setLAE v.1)) := by
  rw [andThen_withReg, exec, execStcr, cruCount_eq_transferCount, if_neg many]

/-- CRU inputs use up answers and draws alone. -/
theorem Steady.cruInMany {P : Word → Prop} {n : Word} {u : State} (h : Steady P n s u)
    (a : BitVec 12) (k : Nat) (st : Status) :
    Steady P n ((s.withCruInputs (u.cruInputs.drop k)).withSt st)
      ((cruInMany a k u).2.withSt st) := by
  rw [cruInMany_state]
  exact ((h.withCruInputs _).withDraws _).withSt st

theorem cruInMany_st (a : BitVec 12) (k : Nat) (u : State) : (cruInMany a k u).2.st = u.st := by
  rw [cruInMany_state]
  rfl

theorem stcr_effect_byte (few : transferCount c ≤ 8) {o : ByteOp} {u : State}
    (fetched : fetchByte p s = .next (o, u)) (run : exec (.stcr p c) s = .next t) :
    Effect (.stcr p c) (fun c => autoBytes p s c ∨ c = o.addr) s t := by
  rw [stcr_byte few] at run
  obtain ⟨⟨o', r12⟩, x, read, write⟩ := andThen_eq_next.mp run
  have same : o' = o := withReg_operand fetched read
  have k := (withReg_reads (fetchByte_reads p) 12#4).steady read
  have steady := (k.cruInMany _ _ _).trans (writeByte_steady write)
  rw [BitVec.add_zero, cruInMany_st, k.st] at steady
  refine .of_inputs rfl stcr_statusMask_clear (same ▸ steady) (two_mul_extWords _) ?_
  rw [Instr.statusMask, if_pos few]
  exact Status.setLAE_setOP_keeps _ _ _

theorem stcr_effect_word (many : ¬ transferCount c ≤ 8) {o : WordOp} {u : State}
    (fetched : fetchWord p s = .next (o, u)) (run : exec (.stcr p c) s = .next t) :
    Effect (.stcr p c) (fun c => autoBytes p s c ∨ wordBytes o.addr c) s t := by
  rw [stcr_word many] at run
  obtain ⟨⟨o', r12⟩, x, read, write⟩ := andThen_eq_next.mp run
  have same : o' = o := withReg_operand fetched read
  have k := (withReg_reads (fetchWord_reads p) 12#4).steady read
  have steady := (k.cruInMany _ _ _).trans (writeWord_steady write)
  rw [BitVec.add_zero, cruInMany_st, k.st] at steady
  refine .of_inputs rfl stcr_statusMask_clear (same ▸ steady) (two_mul_extWords _) ?_
  rw [Instr.statusMask, if_neg many]
  exact Status.setLAE_keeps _ _

/-- Settles O55: one lemma for each of the instructions, STCR's by its count. -/
theorem frameOfInternalAndCruWrites : Obligations.FrameOfInternalAndCruWrites := by
  refine fun s t u p n d => ⟨fun run => ?_, fun run => ?_, fun run => ?_, fun run => ?_,
    fun run => ?_, fun run => ?_, fun o few fetched run => ?_, fun o many fetched run => ?_⟩
  · exact ⟨(lwpi_effect run).1, (lwpi_effect run).2.frame⟩
  · exact ⟨(limi_effect run).flags, (limi_effect run).frame⟩
  · exact ⟨(rset_effect run).flags, (rset_effect run).frame⟩
  · exact (rtwp_effect run).frame
  · have e := idle_effect run
    cases run
    exact ⟨rfl, e.frame⟩
  · exact ⟨(tb_effect run).flags, (tb_effect run).frame⟩
  · have e := stcr_effect_byte few fetched run
    exact ⟨e.flags, e.frame⟩
  · have e := stcr_effect_word (Nat.not_le.mpr many) fetched run
    exact ⟨e.flags, e.frame⟩

end

/-! ### Context switches -/

section
variable {p : Operand} {n : BitVec 4} {s t u : State}

theorem contextSwitch_completes (ans : s.Answers) (v : Word) (link : Option Word) :
    ∃ t, contextSwitch v link s = .next t := by
  refine (readWord_reads v).andThen_completes ans fun w s1 h1 => ?_
  have stores : ∀ {s2 : State}, s2.Answers → ∃ b,
      (andDo (writeWord (evenAddr w + 26#16) s2.wp s2) fun s3 =>
        andDo (writeWord (evenAddr w + 28#16) s3.pc s3) fun s4 =>
        andDo (writeWord (evenAddr w + 30#16) s4.st.toWord s4) fun s5 =>
        andThen (readWord (v + 2#16) s5) fun npc s6 =>
          .next ((s6.setWP (evenAddr w)).goto npc)) =
        Host.Outcome.next (σ := State) (φ := Fault) (ρ := Refusal) b := fun h2 =>
    writeWord_andDo_completes h2 _ _ fun _ h3 => writeWord_andDo_completes h3 _ _ fun _ h4 =>
      writeWord_andDo_completes h4 _ _ fun _ h5 =>
        (readWord_reads _).andThen_completes h5 fun _ _ _ => ⟨_, rfl⟩
  cases link with
  | none => exact stores h1
  | some a => exact writeWord_andDo_completes h1 _ _ fun _ h2 => stores h2

/-- What BLWP does once its operand is resolved and its vector's first word is `w` (R163). -/
theorem blwp_next (run : exec (.blwp p) s = .next t) :
    ∃ a u w x, resolve p .word s = .next (a, u) ∧ readWord a u = .next (w, x) ∧ t.st = s.st ∧
      Effect (.blwp p) (fun c => autoBytes p s c ∨ savedBytes (evenAddr w) none c) s t := by
  obtain ⟨a, u, resolved, switches⟩ := andThen_eq_next.mp run
  obtain ⟨x, switched, hn⟩ := andDo_eq_next.mp switches
  cases hn
  have k := resolve_steady resolved
  obtain ⟨w, y, read, wp, frame, st, pc, wf⟩ := contextSwitch_next switched
  have same := st.trans k.st
  refine ⟨a, u, w, y, resolved, read, same,
    { frame := ((k.frame.withWp _).trans frame).withInhibit true
      flags := congrArg (fun st : Status => st.toWord &&& ~~~(Instr.blwp p).statusMask) same
      pc := fun h => nomatch h
      even := fun _ _ => ⟨pc, wp ▸ evenAddr_getLsbD_zero w⟩
      wf := fun h => wf (k.wf h) }⟩

/-- The vector of XOP's number (R180). -/
theorem xopVector_eq (n : BitVec 4) :
    0x0040#16 + 4#16 * n.setWidth 16 = BitVec.ofNat 16 (0x0040 + 4 * n.toNat) := by
  apply BitVec.eq_of_toNat_eq
  simp only [BitVec.toNat_add, BitVec.toNat_mul, BitVec.toNat_setWidth, BitVec.toNat_ofNat]
  omega

/-- What XOP does once its operand is fetched and its vector's first word is `w` (R180). -/
theorem xop_next (run : exec (.xop p n) s = .next t) :
    ∃ o u w x, fetchWord p s = .next (o, u) ∧
      readWord (BitVec.ofNat 16 (0x0040 + 4 * n.toNat)) u = .next (w, x) ∧
      t.st = { s.st with x := true } ∧
      Effect (.xop p n) (fun c => autoBytes p s c ∨ savedBytes (evenAddr w) (some o.addr) c) s t := by
  obtain ⟨o, u, fetched, switches⟩ := andThen_eq_next.mp run
  obtain ⟨x, switched, hn⟩ := andDo_eq_next.mp switches
  cases hn
  rw [xopVector_eq] at switched
  have k := fetchWord_steady fetched
  obtain ⟨w, y, read, wp, frame, st, pc, wf⟩ := contextSwitch_next switched
  have same : x.st.setX true = { s.st with x := true } :=
    congrArg (Status.setX · true) (st.trans k.st)
  refine ⟨o, u, w, y, fetched, read, same,
    { frame := ?_
      flags := same ▸ s.st.setX_keeps true
      pc := fun h => nomatch h
      even := fun _ _ => ⟨pc, wp ▸ evenAddr_getLsbD_zero w⟩
      wf := fun h => wf (k.wf h) }⟩
  have f := (((k.frame.withWp _).trans frame).withSt_both (x.st.setX true)).withInhibit true
  rw [same] at f ⊢
  exact f

/-- What a trap entry does when its vector's first word is `w` (R274, R275, R300). -/
theorem trapEnter_next {v : Word} {m : BitVec 4} (run : trapEnter v m s = .next t) :
    ∃ w x, readWord v s = .next (w, x) ∧ t.st = { s.st with mask := m } ∧
      Frame (savedBytes (evenAddr w) none)
        ((((s.withWp t.wp).withInhibit true).withIdle false).withSt { s.st with mask := m }) t ∧
      t.pc.getLsbD 0 = false ∧ t.wp.getLsbD 0 = false ∧ (s.mem.wf = true → t.mem.wf = true) := by
  obtain ⟨x, switched, hn⟩ := andDo_eq_next.mp run
  cases hn
  obtain ⟨w, y, read, wp, frame, st, pc, wf⟩ := contextSwitch_next switched
  have same : x.st.setMask m = { s.st with mask := m } := congrArg (Status.setMask · m) st
  refine ⟨w, y, read, same, ?_, pc, wp ▸ evenAddr_getLsbD_zero w, wf⟩
  have f := ((frame.withSt_both (x.st.setMask m)).withIdle false).withInhibit true
  rw [same] at f ⊢
  exact f

/-- Settles O54: the saved words lie in the workspace that the vector's first word names. -/
theorem frameOfContextSwitches : Obligations.FrameOfContextSwitches := by
  refine fun s t u p => ⟨fun a w x resolved read run => ?_, fun o n w x fetched read run => ?_,
    fun v m w x read run => ?_⟩
  · obtain ⟨_, _, _, _, resolved', read', st, e⟩ := blwp_next run
    cases resolved.symm.trans resolved'
    cases read.symm.trans read'
    exact ⟨e.frame.mono fun _ => Or.imp_right fun h => h.elim (fun h => absurd rfl h.1) id, st⟩
  · obtain ⟨_, _, _, _, fetched', read', st, e⟩ := xop_next run
    cases fetched.symm.trans fetched'
    cases read.symm.trans read'
    exact ⟨e.frame.mono fun _ => Or.imp_right (Or.imp_left And.right), st⟩
  · obtain ⟨_, _, read', st, frame, -⟩ := trapEnter_next run
    cases read.symm.trans read'
    exact ⟨frame.mono fun _ h => h.elim (fun h => absurd rfl h.1) id, st⟩

end

/-! ### Every instruction but X -/

section
variable {p : Operand} {c : BitVec 4} {d : BitVec 8}

theorem stcr_behaves : Behaves (.stcr p c) where
  effect {s t} run := by
    by_cases few : transferCount c ≤ 8
    · obtain ⟨_, _, read, -⟩ := andThen_eq_next.mp (stcr_byte few s ▸ run)
      obtain ⟨_, _, fetched, -⟩ := andThen_eq_next.mp read
      exact ⟨_, stcr_effect_byte few fetched run⟩
    · obtain ⟨_, _, read, -⟩ := andThen_eq_next.mp (stcr_word few s ▸ run)
      obtain ⟨_, _, fetched, -⟩ := andThen_eq_next.mp read
      exact ⟨_, stcr_effect_word few fetched run⟩
  completes {s} ans := by
    have inputs : ∀ (a : BitVec 12) (u : State) (st : Status), u.Answers →
        ((cruInMany a (transferCount c) u).2.withSt st).Answers := fun a u st hu =>
      hu.congr (by rw [cruInMany_state]; rfl)
    by_cases few : transferCount c ≤ 8
    · rw [stcr_byte few]
      exact (withReg_reads (fetchByte_reads p) 12#4).andThen_completes ans fun _ _ hu =>
        writeByte_completes (inputs _ _ _ hu) _ _ _
    · rw [stcr_word few]
      exact (withReg_reads (fetchWord_reads p) 12#4).andThen_completes ans fun _ _ hu =>
        writeWord_completes (inputs _ _ _ hu) _ _

/-- Every instruction but X has an effect, and completes where every access does. -/
theorem behaves {i : Instr} (h : i.isExecute = false) : Behaves i := by
  cases i with
  | x p => cases h
  | a p q | s p q | soc p q | szc p q | mov p q =>
    exact dualStore_behaves (p := p) (q := q) (by simp)
  | ab p q | sb p q | socb p q | szcb p q | movb p q =>
    exact dualStoreByte_behaves (p := p) (q := q) (by simp)
  | c p q => exact (c_rates p q).behaves (dualFetch_reads p q) rfl (two_mul_extWords_add _ _)
  | cb p q => exact (cb_rates p q).behaves (dualFetchByte_reads p q) rfl (two_mul_extWords_add _ _)
  | coc p r => exact (coc_rates p r).behaves (regFetch_reads p r) rfl (two_mul_extWords _)
  | czc p r => exact (czc_rates p r).behaves (regFetch_reads p r) rfl (two_mul_extWords _)
  | xor p r => exact (xor_stores p r).behaves (regFetch_reads p r) rfl (two_mul_extWords _)
  | mpy => exact mpy_behaves
  | div => exact div_behaves
  | ldcr => exact ldcr_behaves
  | stcr => exact stcr_behaves
  | clr p | seto p | inv p | neg p | swpb p | inc p | inct p | dec p | dect p =>
    exact rewrite_behaves (p := p) (by simp)
  | abs => exact abs_behaves
  | b => exact b_behaves
  | bl => exact bl_behaves
  | sra n r | srl n r | sla n r | src n r => exact regStore_behaves (n := n) (r := r) (by simp)
  | li r | ai r | andi r | ori r | stst r | stwp r =>
    exact regStore_behaves (n := 0#4) (r := r) (by simp)
  | ci r => exact still_behaves (r := r) (d := 0#8) (by simp)
  | sbo d | sbz d => exact still_behaves (r := 0#4) (d := d) (by simp)
  | ckof | ckon | lrex => exact still_behaves (r := 0#4) (d := 0#8) (by simp)
  | jmp d | jlt d | jle d | jeq d | jhe d | jgt d | jne d | jnc d | joc d | jno d | jl d | jh d
  | jop d => exact jump_behaves (d := d) (by simp)
  | tb d =>
    exact ⟨fun run => ⟨_, tb_effect run⟩, fun ans =>
      (readReg_reads 12#4).andThen_completes ans fun _ _ _ => ⟨_, rfl⟩⟩
  | lwpi =>
    exact ⟨fun run => ⟨_, (lwpi_effect run).2⟩, fun ans =>
      fetch_reads.andThen_completes ans fun _ _ _ => ⟨_, rfl⟩⟩
  | limi => exact ⟨fun run => ⟨_, limi_effect run⟩, limi_rates.completes fetch_reads⟩
  | rset => exact ⟨fun run => ⟨_, rset_effect run⟩, rset_rates.completes (look_reads _)⟩
  | idle => exact ⟨fun run => ⟨_, idle_effect run⟩, fun _ => ⟨_, rfl⟩⟩
  | rtwp =>
    exact ⟨fun run => ⟨_, rtwp_effect run⟩, fun ans =>
      (readReg_reads 15#4).andThen_completes ans fun _ _ h1 =>
        (readReg_reads 14#4).andThen_completes h1 fun _ _ h2 =>
          (readReg_reads 13#4).andThen_completes h2 fun _ _ _ => ⟨_, rfl⟩⟩
  | blwp p =>
    refine ⟨fun run => ?_, fun ans => (resolve_reads p .word).andThen_completes ans fun a u hu => ?_⟩
    · obtain ⟨_, _, _, _, -, -, -, e⟩ := blwp_next run
      exact ⟨_, e⟩
    · obtain ⟨x, switched⟩ := contextSwitch_completes hu a none
      exact ⟨_, by rw [switched, andDo_next]⟩
  | xop p n =>
    refine ⟨fun run => ?_, fun ans => (fetchWord_reads p).andThen_completes ans fun o u hu => ?_⟩
    · obtain ⟨_, _, _, _, -, -, -, e⟩ := xop_next run
      exact ⟨_, e⟩
    · obtain ⟨x, switched⟩ := contextSwitch_completes hu (0x0040#16 + 4#16 * n.setWidth 16)
        (some o.addr)
      exact ⟨_, by rw [switched, andDo_next]⟩

end

end Sys2Proof.Machine

namespace Sys2Proof.Machine

/-! ## What holds of every instruction but X -/

/-- Settles O6: PC is the one field of the effect that the statement speaks of. -/
theorem pcPassesExtensionWords : Obligations.PcPassesExtensionWords := by
  intro i s t stays notX run
  obtain ⟨_, e⟩ := (behaves notX).effect run
  exact e.pc stays

/-- Settles O14: every effect keeps ST outside the instruction's bits. -/
theorem onlyListedStatusBitsChange : Obligations.OnlyListedStatusBitsChange := by
  intro i s t notX run
  obtain ⟨_, e⟩ := (behaves notX).effect run
  exact e.flags

theorem base_wp {i : Instr} (h : i.writesWp = false) (s t : State) : (i.base s t).wp = s.wp := by
  cases i with
  | lwpi | blwp | xop | rtwp => cases h
  | _ => rfl

theorem base_cruInputs {i : Instr} (h : i.readsCru = false) (s t : State) :
    (i.base s t).cruInputs = s.cruInputs := by
  cases i with
  | tb | stcr => cases h
  | _ => rfl

theorem base_idle (i : Instr) (s t : State) :
    (i.base s t).idle = (s.idle || decide (i = .idle)) := by
  cases i with
  | idle => exact (Bool.or_true s.idle).symm
  | _ => exact (Bool.or_false s.idle).symm

theorem base_inhibit (i : Instr) (s t : State) :
    (i.base s t).inhibit = (s.inhibit || i.setsInhibit) := by
  cases i with
  | blwp | xop => exact (Bool.or_true s.inhibit).symm
  | _ => exact (Bool.or_false s.inhibit).symm

theorem base_rest (i : Instr) (s t : State) :
    (i.base s t).faulted = s.faulted ∧ (i.base s t).pendingX = s.pendingX ∧
      (i.base s t).regions = s.regions ∧ (i.base s t).samples = s.samples ∧
      (i.base s t).requestsEnd = s.requestsEnd := by
  cases i <;> exact ⟨rfl, rfl, rfl, rfl, rfl⟩

/-- Settles O15: an effect's frame starts from the state with just those fields written. -/
theorem whichInstructionsWriteInternalState : Obligations.WhichInstructionsWriteInternalState := by
  intro i s t notX run
  obtain ⟨_, e⟩ := (behaves notX).effect run
  have f := e.frame
  obtain ⟨faulted, pendingX, regions, samples, requestsEnd⟩ := base_rest i s t
  exact ⟨fun h => f.wp.trans (base_wp h s t), f.idle.trans (base_idle i s t),
    f.inhibit.trans (base_inhibit i s t), fun h => f.cruInputs.trans (base_cruInputs h s t),
    f.faulted.trans faulted, f.pendingX.trans pendingX, f.regions.trans regions,
    f.samples.trans samples, f.requestsEnd.trans requestsEnd⟩

/-! ## X and its chain (spec/43_single_operand.md, R174) -/

theorem executeBy_eq_exec {i : Instr} (h : i.isExecute = false) (onX : Operand → State → Result)
    (s : State) : executeBy onX i s = exec i s := by
  cases i with
  | x => cases h
  | _ => rfl

theorem executeWord_of_decode {w : Word} {i : Instr} (n : Nat) (decoded : decode w = some i)
    (notX : i.isExecute = false) (s : State) : executeWord (n + 1) w s = exec i s := by
  rw [executeWord, decoded]
  exact executeBy_eq_exec notX _ s

theorem executeWord_of_x {w : Word} {p : Operand} (n : Nat) (decoded : decode w = some (.x p))
    (s : State) : executeWord (n + 1) w s =
      andThen (fetchWord p s) fun o u => executeWord n o.value u := by
  rw [executeWord, decoded]
  rfl

theorem executeWord_of_unassigned {w : Word} (n : Nat) (unassigned : decode w = none) (s : State) :
    executeWord (n + 1) w s = .fault (.illegalOpcode w) := by
  rw [executeWord, unassigned]

theorem isExecute_cases (i : Instr) : i.isExecute = false ∨ ∃ p, i = .x p := by
  cases i with
  | x p => exact .inr ⟨p, rfl⟩
  | _ => exact .inl rfl

theorem exec_x_allRam {s : State} (ram : s.AllRam) (p : Operand) :
    exec (.x p) s = executeWord (15 + 1) (s.operandWord p) (s.resolved p .word) := by
  rw [exec, execX, fetchWord_allRam ram p]
  rfl

/-- A chain of X words completes where every access does, unless it meets an unassigned word. -/
theorem executeWord_completes (n : Nat) : ∀ (w : Word) (s : State), s.Answers →
    (∃ t, executeWord n w s = .next t) ∨
      ∃ v, decode v = none ∧ executeWord n w s = .fault (.illegalOpcode v) := by
  induction n with
  | zero => exact fun w s _ => .inl ⟨_, rfl⟩
  | succ n ih =>
    intro w s ans
    cases decoded : decode w with
    | none => exact .inr ⟨w, decoded, executeWord_of_unassigned n decoded s⟩
    | some i =>
      rcases isExecute_cases i with notX | ⟨p, rfl⟩
      · rw [executeWord_of_decode n decoded notX]
        exact .inl ((behaves notX).completes ans)
      · obtain ⟨⟨o, u⟩, fetched⟩ := (fetchWord_reads p).completes ans
        rw [executeWord_of_x n decoded, fetched, andThen_next]
        exact ih o.value u (ans.congr (fetchWord_steady fetched).frame.regions)

/-- Settles O48: no access fails, so an instruction but X completes, and X follows its chain. -/
theorem noInstructionFails : Obligations.NoInstructionFails := by
  refine fun i s ans => ⟨fun notX => (behaves notX).completes ans, fun isX => ?_⟩
  rcases isExecute_cases i with notX | ⟨p, rfl⟩
  · rw [notX] at isX
    cases isX
  · obtain ⟨⟨o, u⟩, fetched⟩ := (fetchWord_reads p).completes ans
    rw [exec, execX, fetched, andThen_next]
    exact executeWord_completes _ _ _ (State.Answers.congr ans (fetchWord_steady fetched).frame.regions)

/-! ## The start of a step (spec/40_addressing.md, R127) -/

@[simp] theorem State.takeSample_pc (s : State) : s.takeSample.pc = s.pc := by
  obtain ⟨d, h⟩ := s.takeSample_eq; rw [h]; rfl
@[simp] theorem State.takeSample_wp (s : State) : s.takeSample.wp = s.wp := by
  obtain ⟨d, h⟩ := s.takeSample_eq; rw [h]; rfl
@[simp] theorem State.takeSample_st (s : State) : s.takeSample.st = s.st := by
  obtain ⟨d, h⟩ := s.takeSample_eq; rw [h]; rfl
@[simp] theorem State.takeSample_mem (s : State) : s.takeSample.mem = s.mem := by
  obtain ⟨d, h⟩ := s.takeSample_eq; rw [h]; rfl
@[simp] theorem State.takeSample_idle (s : State) : s.takeSample.idle = s.idle := by
  obtain ⟨d, h⟩ := s.takeSample_eq; rw [h]; rfl
@[simp] theorem State.takeSample_inhibit (s : State) : s.takeSample.inhibit = s.inhibit := by
  obtain ⟨d, h⟩ := s.takeSample_eq; rw [h]; rfl
@[simp] theorem State.takeSample_regions (s : State) : s.takeSample.regions = s.regions := by
  obtain ⟨d, h⟩ := s.takeSample_eq; rw [h]; rfl
@[simp] theorem State.takeSample_events (s : State) : s.takeSample.events = s.events := by
  obtain ⟨d, h⟩ := s.takeSample_eq; rw [h]; rfl
@[simp] theorem State.takeSample_faulted (s : State) : s.takeSample.faulted = s.faulted := by
  obtain ⟨d, h⟩ := s.takeSample_eq; rw [h]; rfl
@[simp] theorem State.takeSample_pendingX (s : State) : s.takeSample.pendingX = s.pendingX := by
  obtain ⟨d, h⟩ := s.takeSample_eq; rw [h]; rfl

theorem State.accepts_takeSample (s : State) (l : BitVec 4) :
    s.takeSample.accepts l = s.accepts l := by
  rw [State.accepts, State.accepts, State.takeSample_inhibit, State.takeSample_st]

/-- A maskable request is held back by the latch or by the mask (R265). -/
theorem State.accepts_eq_false {s : State} {l : BitVec 4} :
    s.accepts l = false ↔ s.inhibit = true ∨ s.st.mask.toNat < l.toNat := by
  simp [State.accepts, BitVec.le_def]
  cases s.inhibit <;> simp

theorem State.accepts_eq_true {s : State} {l : BitVec 4} :
    s.accepts l = true ↔ s.inhibit = false ∧ l.toNat ≤ s.st.mask.toNat := by
  simp [State.accepts, BitVec.le_def]

/-! A step after its start: it is over, or the word is executed, or no row assigns the word (R128, R100). -/

theorem step_of_none {s t : State} (begun : beginStep s = .next (none, t)) : step s = .next t := by
  rw [step, begun]
  rfl

theorem step_of_word {s t : State} {w : Word} {i : Instr} (begun : beginStep s = .next (some w, t))
    (decoded : decode w = some i) : step s = exec i t := by
  rw [step, begun, andThen_next]
  simp only [decoded]

theorem step_of_unassigned {s t : State} {w : Word} (begun : beginStep s = .next (some w, t))
    (unassigned : decode w = none) : step s = .fault (.illegalOpcode w) := by
  rw [step, begun, andThen_next]
  simp only [unassigned]

theorem beginStep_of_sampled {s : State} (faulted : s.faulted = none) (pendingX : s.pendingX = none) :
    beginStep s = sampled s.sample s.takeSample := by
  rw [beginStep, faulted, pendingX]

/-- With no request taken, a step waits or fetches. -/
theorem sampled_of_untaken {q : Sample} {s : State} (reset : q.reset = false)
    (load : q.load = false) (int : ∀ l, q.int = some l → s.accepts l = false) :
    sampled q s = idleOrFetch s := by
  rw [sampled, reset, load, if_neg Bool.false_ne_true, if_neg Bool.false_ne_true]
  cases request : q.int with
  | none => rfl
  | some l => exact if_neg (Bool.eq_false_iff.mp (int l request))

/-- Everything a step can begin with: a kept word, a trap entry, the idle code, or a fetch. -/
theorem beginStep_next {s t : State} {word : Option Word} (h : beginStep s = .next (word, t)) :
    t = s.withPendingX none ∨ (∃ v m, word = none ∧ trapEnter v m s.takeSample = .next t) ∨
      (word = none ∧ t = s.takeSample.emit (.ext idleCode)) ∨
      ∃ w, word = some w ∧ fetch (s.takeSample.withInhibit false) = .next (w, t) := by
  have trap : ∀ {v m}, endStep (trapEnter v m s.takeSample) = .next (word, t) →
      word = none ∧ trapEnter v m s.takeSample = .next t := fun h => by
    obtain ⟨u, entered, hn⟩ := andDo_eq_next.mp h
    cases hn
    exact ⟨rfl, entered⟩
  have wait : idleOrFetch s.takeSample = .next (word, t) →
      (word = none ∧ t = s.takeSample.emit (.ext idleCode)) ∨
        ∃ w, word = some w ∧ fetch (s.takeSample.withInhibit false) = .next (w, t) := fun h => by
    rw [idleOrFetch] at h
    split at h
    · cases h
      exact .inl ⟨rfl, rfl⟩
    · obtain ⟨w, u, fetched, hn⟩ := andThen_eq_next.mp h
      cases hn
      exact .inr ⟨w, rfl, fetched⟩
  unfold beginStep at h
  split at h
  · cases h
  · split at h
    · cases h
      exact .inl rfl
    · unfold sampled at h
      split at h
      · exact .inr (.inl ⟨_, _, trap h⟩)
      · split at h
        · exact .inr (.inl ⟨_, _, trap h⟩)
        · split at h
          · split at h
            · exact .inr (.inl ⟨_, _, trap h⟩)
            · exact .inr (.inr (wait h))
          · exact .inr (.inr (wait h))

/-! ## The invariant (spec/10_state.md, R21, R22) -/

theorem Effect.inv {i : Instr} {P : Word → Prop} {s t : State} (e : Effect i P s t)
    (inv : s.Inv) : t.Inv := by
  obtain ⟨evenPc, evenWp, wf⟩ := inv
  obtain ⟨pc, wp⟩ := e.even evenPc evenWp
  exact ⟨pc, wp, e.wf wf⟩

theorem Steady.inv {P : Word → Prop} {k : Word} {s t : State} (h : Steady P (2#16 * k) s t)
    (inv : s.Inv) : t.Inv := by
  obtain ⟨evenPc, evenWp, wf⟩ := inv
  exact ⟨by rw [h.pc]; exact add_even evenPc (two_mul_even k), by rwa [h.frame.wp], h.wf wf⟩

theorem executeWord_inv (n : Nat) : ∀ {w : Word} {s t : State}, s.Inv →
    executeWord n w s = .next t → t.Inv := by
  induction n with
  | zero =>
    intro w s t inv run
    cases run
    exact inv
  | succ n ih =>
    intro w s t inv run
    cases decoded : decode w with
    | none =>
      rw [executeWord_of_unassigned n decoded] at run
      cases run
    | some i =>
      rcases isExecute_cases i with notX | ⟨p, rfl⟩
      · rw [executeWord_of_decode n decoded notX] at run
        obtain ⟨_, e⟩ := (behaves notX).effect run
        exact e.inv inv
      · rw [executeWord_of_x n decoded] at run
        obtain ⟨o, u, fetched, rest⟩ := andThen_eq_next.mp run
        exact ih ((fetchWord_steady fetched).inv inv) rest

theorem exec_inv {i : Instr} {s t : State} (inv : s.Inv) (run : exec i s = .next t) : t.Inv := by
  rcases isExecute_cases i with notX | ⟨p, rfl⟩
  · obtain ⟨_, e⟩ := (behaves notX).effect run
    exact e.inv inv
  · obtain ⟨o, u, fetched, rest⟩ := andThen_eq_next.mp run
    exact executeWord_inv _ ((fetchWord_steady fetched).inv inv) rest

theorem beginStep_inv {s t : State} {word : Option Word} (inv : s.Inv)
    (h : beginStep s = .next (word, t)) : t.Inv := by
  have sampledInv : s.takeSample.Inv := by simpa [State.Inv] using inv
  rcases beginStep_next h with rfl | ⟨v, m, -, entered⟩ | ⟨-, rfl⟩ | ⟨w, -, fetched⟩
  · exact inv
  · obtain ⟨_, _, -, -, -, pc, wp, wf⟩ := trapEnter_next entered
    exact ⟨pc, wp, wf sampledInv.2.2⟩
  · exact sampledInv
  · exact (fetch_steady fetched).inv (k := 1#16) sampledInv

/-- Settles O56: the start of a step keeps the invariant, and so does every instruction. -/
theorem everyStepKeepsInvariant : Obligations.EveryStepKeepsInvariant := by
  intro s t inv run
  obtain ⟨word, u, begun, -⟩ := andThen_eq_next.mp run
  have mid := beginStep_inv inv begun
  cases word with
  | none =>
    cases (step_of_none begun).symm.trans run
    exact mid
  | some w =>
    cases decoded : decode w with
    | none => cases (step_of_unassigned begun decoded).symm.trans run
    | some i => exact exec_inv mid ((step_of_word begun decoded).symm.trans run)

/-- Settles O57: the reset state is a concrete one. -/
theorem invariantHoldsAtReset : Obligations.InvariantHoldsAtReset := by
  unfold Obligations.InvariantHoldsAtReset State.Inv
  decide

/-- Settles O58: the bytes of the RESET vector are the platform's, named at power-up. -/
theorem resetLeavesTheSpecifiedState : Obligations.ResetLeavesTheSpecifiedState := by
  unfold Obligations.ResetLeavesTheSpecifiedState
  decide

end Sys2Proof.Machine

namespace Sys2Proof

/-! ## The unassigned words (spec/30_encoding.md, R100), format by format -/

theorem decodeControl_eq_none (w : Word) :
    decodeControl w = none ↔ w.toNat / 2 ^ 5 % 2 ^ 4 = 9 := by
  simp only [decodeControl, slice_toNat]
  split <;> simp only [reduceCtorEq, false_iff, true_iff, imp_false] at * <;> omega

theorem decodeSingle_eq_none (w : Word) :
    decodeSingle w = none ↔ 14 ≤ w.toNat / 2 ^ 6 % 2 ^ 4 := by
  simp only [decodeSingle, slice_toNat]
  split <;> simp only [reduceCtorEq, false_iff, true_iff, imp_false] at * <;> omega

theorem decodeDual_eq_none (w : Word) :
    decodeDual w = none ↔ w.toNat / 2 ^ 12 % 2 ^ 4 < 4 := by
  simp only [decodeDual, slice_toNat]
  split <;> simp only [reduceCtorEq, false_iff, true_iff, imp_false] at * <;> omega

theorem decodeShift_ne_none (w : Word) : decodeShift w ≠ none := by
  unfold decodeShift
  split <;> exact Option.some_ne_none _

theorem decodeDisp_ne_none (w : Word) : decodeDisp w ≠ none := by
  unfold decodeDisp
  split <;> exact Option.some_ne_none _

theorem decodeRegDest_ne_none (w : Word) : decodeRegDest w ≠ none := by
  unfold decodeRegDest
  split <;> exact Option.some_ne_none _

/-- R100: the four unassigned ranges. -/
theorem decode_eq_none_iff (w : Word) : decode w = none ↔
    w.toNat ≤ 0x01FF ∨ (0x0320 ≤ w.toNat ∧ w.toNat ≤ 0x033F) ∨
      (0x0780 ≤ w.toNat ∧ w.toNat ≤ 0x07FF) ∨ (0x0C00 ≤ w.toNat ∧ w.toNat ≤ 0x0FFF) := by
  have := w.isLt
  simp only [decode, slice_toNat]
  split
  · split
    · rw [decodeControl_eq_none]; omega
    · rw [decodeSingle_eq_none]; omega
    · rw [decodeSingle_eq_none]; omega
    · simp only [decodeShift_ne_none, false_iff]; omega
    · simp only [decodeShift_ne_none, false_iff]; omega
    · simp only [true_iff, imp_false] at *; omega
  · simp only [decodeDisp_ne_none, false_iff]; omega
  · simp only [decodeRegDest_ne_none, false_iff]; omega
  · simp only [decodeRegDest_ne_none, false_iff]; omega
  · rw [decodeDual_eq_none]; simp only [imp_false] at *; omega

end Sys2Proof

namespace Sys2Proof.Machine

/-! ## Steps that fetch, wait or take a request (spec/40_addressing.md, spec/60_exceptions.md) -/

/-- An undisturbed step begins with the fetch of the word at PC (R127). -/
theorem beginStep_of_undisturbed {s t : State} {w : Word} (h : s.Undisturbed)
    (read : readWord s.pc (s.takeSample.withInhibit false) = .next (w, t)) :
    beginStep s = .next (some w, t.withPc (s.pc + 2#16)) := by
  obtain ⟨faulted, pendingX, idle, reset, load, int⟩ := h
  have pc : t.pc = s.pc := (readWord_next read).pc.trans s.takeSample_pc
  have fetched : fetch (s.takeSample.withInhibit false) = .next (w, t.withPc (s.pc + 2#16)) := by
    rw [fetch, State.withInhibit_pc, State.takeSample_pc, read, andThen_next, pc]
  rw [beginStep_of_sampled faulted pendingX, sampled_of_untaken reset load fun l hl =>
    (s.accepts_takeSample l).trans (int l hl), idleOrFetch, State.takeSample_idle, idle,
    if_neg Bool.false_ne_true, fetched, andThen_next]

/-- A read from RAM or ROM answers what memory holds, and changes nothing (R65). -/
theorem readWord_of_plain {s : State} {a : Word} (h : s.kindAt a = .ram ∨ s.kindAt a = .rom) :
    readWord a s = .next (s.wordAt a, s) := by
  unfold readWord
  rcases h with kind | kind <;> rw [kind]

theorem State.kindAt_sampled (s : State) (a : Word) :
    (s.takeSample.withInhibit false).kindAt a = s.kindAt a :=
  State.kindAt_congr s.takeSample_regions a

theorem sampled_quiet (s : State) : sampled Sample.quiet s = idleOrFetch s := rfl

/-- The fetch of an undisturbed step from RAM or ROM. -/
theorem readWord_takeSample {s : State} (h : s.kindAt s.pc = .ram ∨ s.kindAt s.pc = .rom) :
    readWord s.pc (s.takeSample.withInhibit false) =
      .next (s.wordAt s.pc, s.takeSample.withInhibit false) := by
  have word : (s.takeSample.withInhibit false).wordAt s.pc = s.wordAt s.pc := by
    simp only [State.wordAt, State.byteAt, State.withInhibit_mem, State.takeSample_mem]
  rw [readWord_of_plain (by rwa [s.kindAt_sampled]), word]

/-- Settles O5: the ranges are the decoder's, and neither a step nor X gives an unassigned word a
meaning. -/
theorem unassignedWordsAreIllegal : Obligations.UnassignedWordsAreIllegal := by
  refine ⟨decode_eq_none_iff, fun s undisturbed kind unassigned => ?_, fun s p ram unassigned => ?_⟩
  · exact step_of_unassigned (beginStep_of_undisturbed undisturbed (readWord_takeSample kind))
      unassigned
  · rw [exec_x_allRam ram, executeWord_of_unassigned 15 unassigned]

/-- Settles O43: the start of an undisturbed step is a fetch, which reads memory where that is RAM or
ROM. -/
theorem stepRunsTheDecodedInstruction : Obligations.StepRunsTheDecodedInstruction := by
  intro s t w i undisturbed read decoded
  refine ⟨step_of_word (beginStep_of_undisturbed undisturbed read) decoded, fun kind => ?_⟩
  rw [readWord_takeSample kind] at read
  cases read
  exact ⟨rfl, rfl⟩

theorem step_of_endStep {s : State} {r : Result} (begun : beginStep s = endStep r) :
    step s = r := by
  rw [step, begun]
  cases r <;> rfl

/-- Settles O44: the branches of one sampling point, and a request that is not accepted leaves the step it
would be without it. -/
theorem requestsAreTakenInOrder : Obligations.RequestsAreTakenInOrder := by
  intro s faulted pendingX u
  have begun := beginStep_of_sampled faulted pendingX
  refine ⟨fun reset => ?_, fun reset load => ?_, fun l reset load int => ⟨fun latch level => ?_,
    fun held => ?_⟩⟩
  · exact step_of_endStep (begun.trans (by rw [sampled, reset, if_pos rfl]))
  · exact step_of_endStep (begun.trans (by
      rw [sampled, reset, load, if_neg Bool.false_ne_true, if_pos rfl]))
  · have accepted : s.takeSample.accepts l = true :=
      (s.accepts_takeSample l).trans (State.accepts_eq_true.mpr ⟨latch, level⟩)
    refine step_of_endStep (begun.trans ?_)
    rw [sampled, reset, load, int, if_neg Bool.false_ne_true, if_neg Bool.false_ne_true]
    exact if_pos accepted
  · have untaken : sampled s.sample u = idleOrFetch u := by
      refine sampled_of_untaken reset load fun k hk => ?_
      cases hk.symm.trans int
      exact (s.accepts_takeSample l).trans (State.accepts_eq_false.mpr held)
    have quiet : beginStep (u.withSamples (Sample.quiet :: u.samples)) = sampled Sample.quiet u :=
      beginStep_of_sampled (s := u.withSamples (Sample.quiet :: u.samples))
        (s.takeSample_faulted.trans faulted) (s.takeSample_pendingX.trans pendingX)
    rw [step, step, begun, untaken, quiet, sampled_quiet]

/-- Settles O47: no request is taken, and an idle machine does not fetch. -/
theorem idleWaitsForARequest : Obligations.IdleWaitsForARequest := by
  intro s faulted pendingX idle reset load held
  refine step_of_none ?_
  rw [beginStep_of_sampled faulted pendingX, sampled_of_untaken reset load fun l hl =>
    (s.accepts_takeSample l).trans (State.accepts_eq_false.mpr (held l hl)), idleOrFetch,
    State.takeSample_idle, idle, if_pos rfl, State.emit, State.takeSample_events]
  rfl

/-- Settles O30: X over plain RAM is the chain of its operand's word, and a kept word is next. -/
theorem executeRunsTheOperandWord : Obligations.ExecuteRunsTheOperandWord := by
  refine ⟨fun s p i ram decoded notX => ?_, fun s p q i ram first second notX => ?_,
    fun s w i faulted pendingX decoded => ?_⟩
  · obtain ⟨t, run⟩ := (behaves notX).completes (ram.resolved p .word).answers
    exact ⟨t, by rw [exec_x_allRam ram, executeWord_of_decode 15 decoded notX, run], run⟩
  · have ram' := ram.resolved p .word
    obtain ⟨t, run⟩ := (behaves notX).completes (ram'.resolved q .word).answers
    exact ⟨t, by rw [exec_x_allRam ram, executeWord_of_x 15 first, fetchWord_allRam ram',
      andThen_next, executeWord_of_decode 14 second notX, run], run⟩
  · exact step_of_word (by rw [beginStep, faulted, pendingX]) decoded

/-! ## The end of a run (spec/00_scope.md, R6, decision D32) -/

theorem State.endOfRun_of_atRest {s : State} (rest : s.atRest = true)
    (requests : s.noMoreRequests = true) : s.endOfRun = true := by
  unfold State.endOfRun
  split
  · rfl
  · rw [rest, requests]
    rfl

/-- A state at rest stays so when nothing it looks at changes. -/
theorem State.atRest_congr {s t : State} (pc : t.pc = s.pc) (mem : t.mem = s.mem)
    (idle : t.idle = s.idle) (faulted : t.faulted = s.faulted) (pendingX : t.pendingX = s.pendingX)
    (regions : t.regions = s.regions) : t.atRest = s.atRest := by
  simp only [State.atRest, State.wordAt, State.byteAt, State.kindAt_congr regions, pc, mem, idle,
    faulted, pendingX]

/-- A jump to itself goes back to where it stands (R200, D32). -/
theorem evenAddr_jump_to_self {a : Word} (even : a.getLsbD 0 = false) :
    evenAddr (a + 2#16 + 2#16 * (0xFF#8).signExtend 16) = a := by
  have back : 2#16 + 2#16 * (0xFF#8).signExtend 16 = 0#16 := by decide
  rw [BitVec.add_assoc, back, BitVec.add_zero, evenAddr_of_even even]

/-- The fetch of an undisturbed step from an unmapped address faults (R65). -/
theorem step_of_unmapped {s : State} (h : s.Undisturbed) (kind : s.kindAt s.pc = .unmapped) :
    step s = .fault (.unmappedAccess (evenAddr s.pc)) := by
  obtain ⟨faulted, pendingX, idle, reset, load, int⟩ := h
  have read : readWord s.pc (s.takeSample.withInhibit false) =
      .fault (.unmappedAccess (evenAddr s.pc)) := by
    rw [readWord, s.kindAt_sampled, kind]
  rw [step, beginStep_of_sampled faulted pendingX, sampled_of_untaken reset load fun l hl =>
    (s.accepts_takeSample l).trans (int l hl), idleOrFetch, State.takeSample_idle, idle,
    if_neg Bool.false_ne_true, fetch, State.withInhibit_pc, State.takeSample_pc, read]
  rfl

/-- A machine at rest with no more requests: idle, or undisturbed at a jump to itself in RAM or ROM, or the
next step faults. -/
theorem atRest_cases {s : State} (rest : s.atRest = true) (quiet : s.sample = Sample.quiet) :
    s.faulted = none ∧ s.pendingX = none ∧
      (s.idle = true ∨ (s.idle = false ∧ s.Undisturbed ∧ s.wordAt s.pc = 0x10FF#16 ∧
        ((s.kindAt s.pc = .ram ∨ s.kindAt s.pc = .rom) ∨ s.kindAt s.pc = .unmapped))) := by
  simp only [State.atRest, Bool.and_eq_true, Bool.or_eq_true, Option.isNone_iff_eq_none,
    bne_iff_ne, beq_iff_eq] at rest
  obtain ⟨⟨faulted, pendingX⟩, place⟩ := rest
  refine ⟨faulted, pendingX, ?_⟩
  cases idle : s.idle with
  | true => exact .inl rfl
  | false =>
    rcases place with place | ⟨kind, word⟩
    · exact absurd (idle.symm.trans place) Bool.false_ne_true
    · refine .inr ⟨rfl, ⟨faulted, pendingX, idle, by rw [quiet]; rfl, by rw [quiet]; rfl, fun l hl => ?_⟩,
        word, ?_⟩
      · rw [quiet] at hl
        cases hl
      · cases h : s.kindAt s.pc with
        | ram => exact .inl (.inl rfl)
        | rom => exact .inl (.inr rfl)
        | device => exact absurd h kind
        | unmapped => exact .inr rfl

/-- The step of a machine that stands at a jump to itself (R200, D32). -/
theorem step_of_jump_to_self {s : State} (h : s.Undisturbed) (evenPc : s.pc.getLsbD 0 = false)
    (word : s.wordAt s.pc = 0x10FF#16) (kind : s.kindAt s.pc = .ram ∨ s.kindAt s.pc = .rom) :
    step s = .next ((s.takeSample.withInhibit false).withPc s.pc) := by
  have decoded : decode (s.wordAt s.pc) = some (.jmp 0xFF#8) := by
    rw [word]
    exact decodeOfEncodeIsIdentity (.jmp 0xFF#8) rfl
  rw [step_of_word (beginStep_of_undisturbed h (readWord_takeSample kind)) decoded, exec, execJmp,
    jump, if_pos rfl, State.goto, State.withPc_pc, evenAddr_jump_to_self evenPc]
  rfl

/-- Settles O59: the step waits, or jumps to where it stands, or faults; a sampling point that presents
nothing changes nothing that the end of the run looks at. -/
theorem endOfRunLasts : Obligations.EndOfRunLasts := by
  rintro s ⟨evenPc, -, -⟩ ends
  unfold State.endOfRun at ends
  split at ends
  next f fault => exact .inl ⟨f, fault⟩
  next =>
    obtain ⟨rest, requests⟩ := Bool.and_eq_true_iff.mp ends
    obtain ⟨quiet, taken, later⟩ := State.noMoreRequests_next requests
    have stays : ∀ {t : State}, t.pc = s.pc → t.wp = s.wp → t.st = s.st → t.mem = s.mem →
        t.idle = s.idle → t.faulted = s.faulted → t.pendingX = s.pendingX →
        t.regions = s.regions → t.samples = s.samples.tail → t.requestsEnd = s.requestsEnd →
        t.endOfRun = true ∧ t.pc = s.pc ∧ t.wp = s.wp ∧ t.st = s.st ∧ t.mem = s.mem ∧
          t.idle = s.idle :=
      fun pc wp st mem idle faulted pendingX regions samples requestsEnd =>
        ⟨State.endOfRun_of_atRest
          ((State.atRest_congr pc mem idle faulted pendingX regions).trans rest)
          (later _ samples requestsEnd), pc, wp, st, mem, idle⟩
    obtain ⟨faulted, pendingX, idle | ⟨awake, undisturbed, word, kind | kind⟩⟩ :=
      atRest_cases rest quiet
    · have run := idleWaitsForARequest s faulted pendingX idle (by rw [quiet]; rfl)
        (by rw [quiet]; rfl) fun l hl => by
          rw [quiet] at hl
          cases hl
      rw [taken] at run
      exact .inr ⟨_, run, stays rfl rfl rfl rfl rfl rfl rfl rfl rfl rfl⟩
    · have run := step_of_jump_to_self undisturbed evenPc word kind
      rw [taken] at run
      exact .inr ⟨_, run, stays rfl rfl rfl rfl rfl rfl rfl rfl rfl rfl⟩
    · exact .inl ⟨_, step_of_unmapped undisturbed kind⟩

/-! ## External instructions (spec/49_external.md) -/

/-- Settles O42: each meaning is one event and one update. -/
theorem externalInstructionsEmitTheirCodes : Obligations.ExternalInstructionsEmitTheirCodes :=
  fun _ => ⟨rfl, rfl, rfl, rfl, rfl⟩

/-! ## Memory (spec/20_memory.md) -/

theorem State.kindAt_evenAddr (s : State) (a : Word) : s.kindAt (evenAddr a) = s.kindAt a := by
  simp only [State.kindAt, evenAddr_evenAddr]

theorem State.storeWord_evenAddr (s : State) (a v : Word) :
    s.storeWord (evenAddr a) v = s.storeWord a v := by
  simp only [State.storeWord, State.pokeWord, evenAddr_evenAddr]

/-- Settles O9: kind, word, store, event and fault all depend on the even address alone. -/
theorem wordAccessIgnoresLowAddressBit : Obligations.WordAccessIgnoresLowAddressBit := by
  intro s a v
  constructor
  · change readWord a s = readWord (evenAddr a) s
    rw [readWord, readWord, s.kindAt_evenAddr, s.wordAt_evenAddr, evenAddr_evenAddr]
  · change writeWord a v s = writeWord (evenAddr a) v s
    rw [writeWord, writeWord, s.kindAt_evenAddr, s.storeWord_evenAddr, evenAddr_evenAddr]

/-- R60: the merged word holds the byte in the half its address selects, and the other half as before. -/
theorem selectByte_mergeByte (a : Word) (w : Word) (b : Byte) :
    selectByte a (mergeByte a w b) = b ∧
      selectByte (a ^^^ 1#16) (mergeByte a w b) = selectByte (a ^^^ 1#16) w := by
  have other : (a ^^^ 1#16).getLsbD 0 = !a.getLsbD 0 := by
    rw [BitVec.getLsbD_xor, show (1#16).getLsbD 0 = true from rfl, Bool.xor_true]
  cases parity : a.getLsbD 0 with
  | false =>
    rw [parity] at other
    rw [mergeByte_of_even _ _ parity, selectByte_of_even _ parity, selectByte_of_odd _ other,
      selectByte_of_odd _ other, hiByte_append, loByte_append]
    exact ⟨rfl, rfl⟩
  | true =>
    rw [parity] at other
    rw [mergeByte_of_odd _ _ parity, selectByte_of_odd _ parity, selectByte_of_even _ other,
      selectByte_of_even _ other, hiByte_append, loByte_append]
    exact ⟨rfl, rfl⟩

/-- Settles O10: each access is one branch on the kind of its address. -/
theorem memoryMapDecidesAccesses : Obligations.MemoryMapDecidesAccesses := by
  refine fun s a v o b => ⟨fun kind => ?_, fun kind => ?_, fun kind => ?_, fun kind => ?_,
    fun kind => ?_, fun kind => ?_, fun kind => ?_, fun kind => ⟨mergeByte o.addr o.word b, ?_, ?_⟩⟩
  · rw [readWord, writeWord, kind]
    exact ⟨rfl, rfl⟩
  · rw [readWord, writeWord, kind]
    exact ⟨rfl, rfl⟩
  · rw [readWord, writeWord, kind]
    exact ⟨⟨_, _, rfl, rfl, rfl⟩, rfl⟩
  · rw [readWord, writeWord, kind]
    exact ⟨rfl, rfl⟩
  · rw [writeByteOp, writeByte, kind]
  · rw [writeByteOp, writeByte, kind]
    rfl
  · rw [writeByteOp, writeByte, kind]
    rfl
  · rw [writeByteOp, writeByte, kind]
    rfl
  · exact selectByte_mergeByte o.addr o.word b

/-- The two bytes a stored word lies in (R54). -/
theorem State.byteAt_storeWord_self {s : State} (a v : Word) (h : s.mem.wf = true) :
    (s.storeWord a v).byteAt (evenAddr a) = hiByte v ∧
      (s.storeWord a v).byteAt (evenAddr a + 1#16) = loByte v := by
  constructor
  · exact (State.byteAt_storeByte_ne (loByte v) (s.storeByte (evenAddr a) (hiByte v))
      (evenAddr_succ_ne a).symm).trans (State.byteAt_storeByte_self _ _ h)
  · exact State.byteAt_storeByte_self (loByte v) (s.storeByte (evenAddr a) (hiByte v))
      (State.storeByte_wf _ _ h)

/-- Settles O7: the store is one word of memory and one event. -/
theorem storedWordIsReadBackBigEndian : Obligations.StoredWordIsReadBackBigEndian := by
  intro s a v kind wf
  have kind' : (s.storeWord a v).kindAt a = .ram :=
    (State.kindAt_congr (s.storeWord_regions a v) a).trans kind
  obtain ⟨high, low⟩ := State.byteAt_storeWord_self a v wf
  refine ⟨s.storeWord a v, by rw [writeWord, kind], ?_, high, low,
    fun c hc => State.byteAt_storeWord_ne v s hc, s.storeWord_eq a v⟩
  rw [readWord_of_plain (.inl kind'), State.wordAt_storeWord_self v wf rfl]

/-! ## Indexed and auto-increment addressing (spec/40_addressing.md, R114, R115) -/

/-- Settles O12: each is `resolve` over plain RAM, at its mode. -/
theorem indexedAndAutoIncrementModes : Obligations.IndexedAndAutoIncrementModes :=
  fun _ size r ram => ⟨fun nonzero => ⟨if_neg nonzero, resolve_allRam ram (.indexed r) size⟩, rfl,
    resolve_allRam ram (.autoInc r) .byte, resolve_allRam ram (.autoInc r) .word⟩

end Sys2Proof.Machine

namespace Sys2Proof.Machine

/-! ## Two general operands over plain RAM (spec/41_dual_operand.md) -/

section
variable {s : State}

theorem State.resolved_resolved_st (p q : Operand) (size : Size) :
    ((s.resolved p size).resolved q size).st = s.st :=
  ((s.resolved p size).resolved_st q size).trans (s.resolved_st p size)

theorem State.AllRam.resolved_resolved (ram : s.AllRam) (p q : Operand) (size : Size) :
    ((s.resolved p size).resolved q size).AllRam := (ram.resolved p size).resolved q size

end

/-- Settles O16: both meanings store what they make of the operands `dualFetch` gives. -/
theorem addAndSubtractWords : Obligations.AddAndSubtractWords := fun s p q ram =>
  have fetched := dualFetch_allRam ram p q
  have ram' := ram.resolved_resolved p q .word
  have same := State.resolved_resolved_st p q .word
  ⟨(a_stores p q).completesStoring fetched ram' same rfl rfl (s.st.setArith_add _ _),
    (s_stores p q).completesStoring fetched ram' same rfl rfl (s.st.setArith_sub _ _)⟩

/-- Settles O17: as O16, with the parity of the byte on top. -/
theorem addAndSubtractBytes : Obligations.AddAndSubtractBytes := fun s p q ram =>
  have fetched := dualFetchByte_allRam ram p q
  have ram' := ram.resolved_resolved p q .byte
  have same := State.resolved_resolved_st p q .byte
  have sum := s.st.setArith_add ((s.resolved p .byte).operandByte q) (s.operandByte p)
  have difference := s.st.setArith_sub ((s.resolved p .byte).operandByte q) (s.operandByte p)
  ⟨(ab_storesByte p q).completesStoringByte fetched ram' same rfl rfl
      ⟨Status.setOP_result _ sum.1, Status.setOP_sum _ sum.2, Status.setOP_rates _ _⟩,
    (sb_storesByte p q).completesStoringByte fetched ram' same rfl rfl
      ⟨Status.setOP_result _ difference.1, Status.setOP_difference _ difference.2,
        Status.setOP_rates _ _⟩⟩

/-- `withReg fetch` over plain RAM: the immediate and the register (R230). -/
theorem withReg_fetch_allRam {s : State} (ram : s.AllRam) (w : Reg) :
    withReg fetch w s = .next ((s.wordAt s.pc, s.reg w), s.withPc (s.pc + 2#16)) :=
  withReg_allRam w (fetch_allRam ram) (ram.congr rfl)

/-- Settles O18: the three meanings only rate a pair. -/
theorem comparesRateFirstToSecond : Obligations.ComparesRateFirstToSecond := fun s p q w ram =>
  ⟨(c_rates p q).completesRating (dualFetch_allRam ram p q) (State.resolved_resolved_st p q .word)
      (s.st.setCmp_rates _ _),
    (cb_rates p q).completesRating (dualFetchByte_allRam ram p q)
      (State.resolved_resolved_st p q .byte)
      ⟨Status.setOP_pair _ (s.st.setCmp_rates _ _), Status.setOP_rates _ _⟩,
    (ci_rates w).completesRating (withReg_fetch_allRam ram w) rfl (s.st.setCmp_rates _ _)⟩

/-- Settles O19: three stores of one shape, each rating the word it stores. -/
theorem logicalAndMoveWords : Obligations.LogicalAndMoveWords := fun s p q ram =>
  have fetched := dualFetch_allRam ram p q
  have ram' := ram.resolved_resolved p q .word
  have same := State.resolved_resolved_st p q .word
  ⟨(soc_stores p q).completesStoring fetched ram' same rfl rfl (s.st.setLAE_rates _),
    (szc_stores p q).completesStoring fetched ram' same rfl rfl (s.st.setLAE_rates _),
    (mov_stores p q).completesStoring fetched ram' same rfl rfl (s.st.setLAE_rates _)⟩

theorem Status.setLAE_setOP_rates (t : Status) (b : Byte) :
    ((t.setLAE b).setOP b).RatesResult b ∧ ((t.setLAE b).setOP b).RatesParity b :=
  ⟨Status.setOP_result b (t.setLAE_rates b), Status.setOP_rates _ b⟩

/-- Settles O20: three byte stores of one shape, each rating the byte it stores, its parity included. -/
theorem logicalAndMoveBytes : Obligations.LogicalAndMoveBytes := fun s p q ram =>
  have fetched := dualFetchByte_allRam ram p q
  have ram' := ram.resolved_resolved p q .byte
  have same := State.resolved_resolved_st p q .byte
  ⟨(socb_storesByte p q).completesStoringByte fetched ram' same rfl rfl (s.st.setLAE_setOP_rates _),
    (szcb_storesByte p q).completesStoringByte fetched ram' same rfl rfl (s.st.setLAE_setOP_rates _),
    (movb_storesByte p q).completesStoringByte fetched ram' same rfl rfl (s.st.setLAE_setOP_rates _)⟩

/-! ## A general source and a register over plain RAM (spec/42_dual_operand_regdest.md) -/

/-- No bit is a 1 of both words. -/
theorem and_eq_zero_iff (a b : Word) :
    a &&& b = 0#16 ↔ ∀ k, a.getLsbD k = true → b.getLsbD k = false := by
  constructor
  · intro h k hk
    have := congrArg (BitVec.getLsbD · k) h
    simpa only [BitVec.getLsbD_and, hk, Bool.true_and, BitVec.getLsbD_zero] using this
  · intro h
    apply BitVec.eq_of_getLsbD_eq
    intro k _
    rw [BitVec.getLsbD_and, BitVec.getLsbD_zero, Bool.and_eq_false_imp]
    exact h k

/-- Every 1 of the first word is a 1 of the second (R151). -/
theorem and_not_eq_zero_iff (a b : Word) :
    a &&& ~~~b = 0#16 ↔ ∀ k, a.getLsbD k = true → b.getLsbD k = true := by
  rw [and_eq_zero_iff]
  refine forall_congr' fun k => imp_congr_right fun hk => ?_
  have inside : k < 16 := BitVec.lt_of_getLsbD hk
  rw [BitVec.getLsbD_not, decide_eq_true inside, Bool.true_and, Bool.not_eq_false']

/-- Settles O21: EQ is a test that no bit is left over. -/
theorem correspondingCompareAndXor : Obligations.CorrespondingCompareAndXor := by
  intro s p r ram u v
  have fetched := regFetch_allRam ram p r
  have same := s.resolved_st p .word
  refine ⟨(coc_rates p r).completesRating fetched same ?_,
    (czc_rates p r).completesRating fetched same ?_, ?_⟩
  · exact beq_iff_eq.trans (and_not_eq_zero_iff v (u.reg r))
  · exact beq_iff_eq.trans (and_eq_zero_iff v (u.reg r))
  · exact (xor_stores p r).completesStoring fetched (ram.resolved p .word) same
      (s.resolved_regAddr p .word r) rfl (s.st.setLAE_rates _)

/-- The two halves of a product are the product (R154). -/
theorem product_halves (a b : Word) :
    ((product a b).extractLsb' 16 16).toNat * 65536 + ((product a b).extractLsb' 0 16).toNat =
      a.toNat * b.toNat := by
  have bound : a.toNat * b.toNat < 2 ^ 32 :=
    Nat.mul_lt_mul'' (c := 2 ^ 16) (d := 2 ^ 16) a.isLt b.isLt
  have whole : (product a b).toNat = a.toNat * b.toNat := Nat.mod_eq_of_lt bound
  rw [BitVec.extractLsb'_toNat, BitVec.extractLsb'_toNat, whole, Nat.shiftRight_zero,
    Nat.shiftRight_eq_div_pow]
  omega

/-- Two stores into the pair of a register over plain RAM (R157). -/
theorem storePair_allRam {s : State} (ram : s.AllRam) (d : Reg) (a b : Word) :
    andDo (writeReg d a s) (fun v => writeWord (v.pairAddr d) b v) =
      .next ((s.storeWord (s.regAddr d) a).storeWord (s.regAddr d + 2#16) b) := by
  have ram' : (s.storeWord (s.regAddr d) a).AllRam := ram.congr (s.storeWord_regions _ a)
  rw [writeReg_allRam ram, andDo_next]
  exact writeWord_allRam ram' _ b

/-- Settles O22: the pair takes the two halves of the product. -/
theorem multiplyLeavesProductInPair : Obligations.MultiplyLeavesProductInPair := by
  intro s p r ram u
  refine ⟨_, _, product_halves (s.operandWord p) (u.reg r), ?_⟩
  rw [exec, execMpy, regFetch_allRam ram, andThen_next, storePair_allRam (ram.resolved p .word),
    s.resolved_regAddr]

/-- Settles O23: R155's test is that of the statement, and dividing the 32-bit dividend leaves a quotient
that fits a word. -/
theorem divideOrReportOverflow : Obligations.DivideOrReportOverflow := by
  intro s p r ram u v
  have ram' := ram.resolved p .word
  refine ⟨fun small => ?_, fun large => ?_⟩
  · rw [exec, execDiv, regFetch_allRam ram, andThen_next, if_pos (BitVec.le_def.mpr small),
      s.resolved_st]
    rfl
  · have low := (u.wordAt (s.regAddr r + 2#16)).isLt
    let n := (u.reg r).toNat * 65536 + (u.wordAt (s.regAddr r + 2#16)).toNat
    have fits : n / v.toNat < 65536 := Nat.div_lt_of_lt_mul (by omega)
    have remainder : n % v.toNat < v.toNat := Nat.mod_lt _ (by omega)
    have bound := v.isLt
    refine ⟨BitVec.ofNat 16 (n / v.toNat), BitVec.ofNat 16 (n % v.toNat), ?_, ?_, ?_⟩
    · rw [BitVec.toNat_ofNat, BitVec.toNat_ofNat, Nat.mod_eq_of_lt fits,
        Nat.mod_eq_of_lt (by omega), Nat.div_add_mod']
    · rwa [BitVec.toNat_ofNat, Nat.mod_eq_of_lt (by omega)]
    · rw [exec, execDiv, regFetch_allRam ram, andThen_next,
        if_neg fun h => Nat.not_lt.mpr (BitVec.le_def.mp h) large, readWord_allRam ram',
        andThen_next, State.pairAddr, s.resolved_regAddr, s.resolved_st]
      have same : (u.withSt (s.st.setOV false)).regAddr r = s.regAddr r :=
        s.resolved_regAddr p .word r
      exact (storePair_allRam (ram'.withSt _) r _ _).trans (by rw [same]; rfl)

/-! ## One general operand over plain RAM (spec/43_single_operand.md) -/

/-- Settles O24: over plain RAM the operand is always fetched, and its address is what is used. -/
theorem branchAndLinkGoToOperandAddress : Obligations.BranchAndLinkGoToOperandAddress := by
  intro s p ram u
  constructor
  · rw [exec, execB, fetchWord_allRam ram, andThen_next]
    rfl
  · rw [exec, execBl, fetchWord_allRam ram, andThen_next, writeReg_allRam (ram.resolved p .word),
      andDo_next, s.resolved_regAddr]
    rfl

/-- C and OV of 0 minus a word (R167). -/
theorem zero_sub_flags (v : Word) :
    ((sub 0#16 v).carry = true ↔ v = 0#16) ∧ ((sub 0#16 v).overflow = true ↔ v = 0x8000#16) := by
  constructor
  · rw [show (sub 0#16 v).carry = decide (v.toNat ≤ 0) from rfl, decide_eq_true_iff, Nat.le_zero]
    exact ⟨fun h => BitVec.eq_of_toNat_eq h, fun h => by rw [h]; rfl⟩
  · have word : v = 0x8000#16 ↔ v.toInt = -32768 := by rw [← BitVec.toInt_inj]; rfl
    have low := BitVec.le_toInt v
    have high := BitVec.toInt_lt (x := v)
    rw [sub_overflow, word, signedFits, BitVec.toInt_zero]
    omega

/-- Settles O27: INV rates what it stores; NEG is a subtraction from 0. -/
theorem invertAndNegate : Obligations.InvertAndNegate := by
  intro s p ram u v
  have fetched := fetchWord_allRam ram p
  have ram' := ram.resolved p .word
  have same := s.resolved_st p .word
  refine ⟨(inv_stores p).completesStoring fetched ram' same rfl rfl (s.st.setLAE_rates _), ?_⟩
  rw [← BitVec.zero_sub]
  exact (neg_stores p).completesStoring fetched ram' same rfl rfl
    ⟨(s.st.setArith_sub 0#16 v).1, (zero_sub_flags v).1, (zero_sub_flags v).2⟩

/-- Settles O28: additions and subtractions of a constant, stored back. -/
theorem incrementAndDecrement : Obligations.IncrementAndDecrement := fun s p ram =>
  have fetched := fetchWord_allRam ram p
  have ram' := ram.resolved p .word
  have same := s.resolved_st p .word
  ⟨(inc_stores p).completesStoring fetched ram' same rfl rfl (s.st.setArith_add _ _),
    (inct_stores p).completesStoring fetched ram' same rfl rfl (s.st.setArith_add _ _),
    (dec_stores p).completesStoring fetched ram' same rfl rfl (s.st.setArith_sub _ _),
    (dect_stores p).completesStoring fetched ram' same rfl rfl (s.st.setArith_sub _ _)⟩

theorem absFlags_rates (v : Word) (t : Status) : (absFlags v t).RatesResult v ∧
    (absFlags v t).c = false ∧ ((absFlags v t).ov = true ↔ v = 0x8000#16) :=
  ⟨t.setLAE_rates v, rfl, beq_iff_eq⟩

/-- Settles O29: the branch on the sign bit is the one on the sign. -/
theorem absoluteValueRatesOperand : Obligations.AbsoluteValueRatesOperand := by
  intro s p ram u v flags
  have sign := BitVec.msb_eq_toInt (x := v)
  have same : (absFlags v s.st) = absFlags v u.st := by rw [s.resolved_st p .word]
  have run : exec (.abs p) s = if v.msb then writeWord (s.ea p) (0#16 - v)
      (u.withSt (absFlags v u.st)) else .next (u.withSt (absFlags v u.st)) := by
    rw [exec, execAbs, fetchWord_allRam ram, andThen_next]
    rfl
  refine ⟨fun negative => ⟨(u.withSt (absFlags v s.st)).storeWord (s.ea p) (-v), ?_, rfl,
      absFlags_keeps v s.st, absFlags_rates v s.st⟩,
    fun positive => ⟨u.withSt (absFlags v s.st), ?_, rfl, absFlags_keeps v s.st,
      absFlags_rates v s.st⟩⟩
  · rw [run, sign, decide_eq_true negative, if_pos rfl, same, BitVec.zero_sub]
    exact writeWord_allRam ((ram.resolved p .word).withSt _) _ _
  · rw [run, sign, decide_eq_false (Int.not_lt.mpr positive), if_neg Bool.false_ne_true, same]

end Sys2Proof.Machine

namespace Sys2Proof.Machine

/-! ## Context switches over plain RAM (spec/60_exceptions.md, R273) -/

/-- R22: two words at different even offsets of an even workspace are different words. -/
theorem evenAddr_add_ne {w a b : Word} (even : w.getLsbD 0 = false) (evenA : a.getLsbD 0 = false)
    (evenB : b.getLsbD 0 = false) (differ : a ≠ b) : evenAddr (w + a) ≠ evenAddr (w + b) := by
  rw [evenAddr_of_even (add_even even evenA), evenAddr_of_even (add_even even evenB)]
  exact fun h => differ ((BitVec.add_right_inj w).mp h)

/-- What the words saved in the new workspace read as (R273, R180). -/
theorem State.linked_wordAt {s : State} (wf : s.mem.wf = true) {w : Word}
    (even : w.getLsbD 0 = false) (link : Option Word) :
    (∀ a, link = some a → (s.linked w link).wordAt (w + 22#16) = a) ∧
      (s.linked w link).wordAt (w + 26#16) = s.wp ∧ (s.linked w link).wordAt (w + 28#16) = s.pc ∧
      (s.linked w link).wordAt (w + 30#16) = s.st.toWord := by
  have apart := fun {a b : Word} => evenAddr_add_ne (a := a) (b := b) even
  have saved : ∀ {t : State} (a b c : Word), t.mem.wf = true →
      let u := ((t.storeWord (w + 26#16) a).storeWord (w + 28#16) b).storeWord (w + 30#16) c
      u.wordAt (w + 22#16) = t.wordAt (w + 22#16) ∧ u.wordAt (w + 26#16) = a ∧
        u.wordAt (w + 28#16) = b ∧ u.wordAt (w + 30#16) = c := fun {t} a b c ht => by
    have h1 := State.storeWord_wf (w + 26#16) a ht
    have h2 := State.storeWord_wf (w + 28#16) b h1
    refine ⟨?_, ?_, ?_, State.wordAt_storeWord_self c h2 rfl⟩
    · rw [State.wordAt_storeWord_ne c (apart rfl rfl (by decide)),
        State.wordAt_storeWord_ne b (apart rfl rfl (by decide)),
        State.wordAt_storeWord_ne a (apart rfl rfl (by decide))]
    · rw [State.wordAt_storeWord_ne c (apart rfl rfl (by decide)),
        State.wordAt_storeWord_ne b (apart rfl rfl (by decide)), State.wordAt_storeWord_self a ht rfl]
    · rw [State.wordAt_storeWord_ne c (apart rfl rfl (by decide)),
        State.wordAt_storeWord_self b h1 rfl]
  cases link with
  | none =>
    obtain ⟨-, rest⟩ := saved s.wp s.pc s.st.toWord wf
    exact ⟨fun _ h => (nomatch h), rest⟩
  | some a =>
    obtain ⟨r11, rest⟩ := saved s.wp s.pc s.st.toWord (State.storeWord_wf (w + 22#16) a wf)
    refine ⟨fun b h => ?_, rest⟩
    cases h
    exact r11.trans (State.wordAt_storeWord_self a wf rfl)

/-- Outside the saved words the stores of a context switch leave memory as it was. -/
theorem State.linked_byteAt {s : State} {w c : Word} {link : Option Word}
    (h22 : link ≠ none → ¬ wordBytes (w + 22#16) c) (h26 : ¬ wordBytes (w + 26#16) c)
    (h28 : ¬ wordBytes (w + 28#16) c) (h30 : ¬ wordBytes (w + 30#16) c) :
    (s.linked w link).byteAt c = s.byteAt c := by
  cases link with
  | none =>
    rw [State.linked, State.byteAt_storeWord_ne _ _ h30, State.byteAt_storeWord_ne _ _ h28,
      State.byteAt_storeWord_ne _ _ h26]
  | some a =>
    rw [State.linked, State.byteAt_storeWord_ne _ _ h30, State.byteAt_storeWord_ne _ _ h28,
      State.byteAt_storeWord_ne _ _ h26, State.byteAt_storeWord_ne _ _ (h22 (by simp))]

theorem contextSwitch_switched {s : State} (ram : s.AllRam) (wf : s.mem.wf = true) (v : Word)
    (link : Option Word) : ∃ t, contextSwitch v link s = .next t ∧ Switched v link s t ∧
      t.st = s.st ∧ t.idle = s.idle ∧ t.inhibit = s.inhibit := by
  have even := evenAddr_getLsbD_zero (s.wordAt v)
  obtain ⟨r11, r13, r14, r15⟩ := State.linked_wordAt wf even link
  have offset : ∀ k : Word, k.getLsbD 0 = false →
      evenAddr (evenAddr (s.wordAt v) + k) = evenAddr (s.wordAt v) + k := fun k hk =>
    evenAddr_of_even (add_even even hk)
  refine ⟨_, contextSwitch_allRam ram v link, ?_, by simp, by simp, by simp⟩
  exact
    { wp := rfl
      pc := rfl
      r11 := r11
      r13 := r13
      r14 := r14
      r15 := r15
      mem := fun _ => State.linked_byteAt (s := s) (w := evenAddr (s.wordAt v))
      events := by
        simp only [State.withPc_events, State.withWp_events, State.withPc_wp, State.withWp_wp,
          State.linked_events, offset 22#16 rfl, offset 26#16 rfl, offset 28#16 rfl,
          offset 30#16 rfl]
      rest := by apply State.eq_of_fields <;> simp }

/-- Settles O45: the stores into the new workspace are apart, so each is read back. -/
theorem contextSwitchSavesAndLoads : Obligations.ContextSwitchSavesAndLoads :=
  fun _ v ram wf => contextSwitch_switched ram wf v none

section
variable {v : Word} {link : Option Word} {s t : State}

/-- ST and the latches are no part of a switch. -/
theorem Switched.withSt (h : Switched v link s t) (st : Status) : Switched v link s (t.withSt st) :=
  { h with rest := congrArg (State.withSt · st) h.rest }

theorem Switched.withIdle (h : Switched v link s t) (b : Bool) : Switched v link s (t.withIdle b) :=
  { h with rest := congrArg (State.withIdle · b) h.rest }

theorem Switched.withInhibit (h : Switched v link s t) (b : Bool) :
    Switched v link s (t.withInhibit b) :=
  { h with rest := congrArg (State.withInhibit · b) h.rest }

theorem Switched.regions (h : Switched v link s t) : t.regions = s.regions :=
  (congrArg State.regions h.rest).trans rfl

end

theorem State.resolved_idle (s : State) (p : Operand) (size : Size) :
    (s.resolved p size).idle = s.idle := by
  cases p <;> rfl

/-- Settles O25: a switch in the state the operand leaves, and the latch set after it. -/
theorem branchLoadWorkspaceSwitches : Obligations.BranchLoadWorkspaceSwitches := by
  intro s p ram wf
  obtain ⟨t, run, switched, st, idle, -⟩ :=
    contextSwitch_switched (ram.resolved p .word) (State.resolved_wf wf p .word) (s.ea p) none
  refine ⟨t.withInhibit true, ?_, switched.withInhibit true, st.trans (s.resolved_st p .word),
    idle.trans (s.resolved_idle p .word), rfl⟩
  rw [exec, execBlwp, resolve_allRam ram, andThen_next, run, andDo_next]

/-- Settles O31: ST is saved by the switch and X set after it. -/
theorem xopTrapsThroughItsVector : Obligations.XopTrapsThroughItsVector := by
  intro s p n ram wf
  obtain ⟨t, run, switched, st, idle, -⟩ :=
    contextSwitch_switched (ram.resolved p .word) (State.resolved_wf wf p .word)
      (BitVec.ofNat 16 (0x0040 + 4 * n.toNat)) (some (s.ea p))
  refine ⟨(t.withSt (t.st.setX true)).withInhibit true, ?_,
    (switched.withSt _).withInhibit true, ?_, idle.trans ?_, rfl⟩
  · rw [exec, execXop, fetchWord_allRam ram, andThen_next, xopVector_eq, run, andDo_next]
  · exact congrArg (Status.setX · true) (st.trans (s.resolved_st p .word))
  · exact s.resolved_idle p .word

/-- A trap entry over plain RAM (R274, R275, R300). -/
theorem trapEnter_switched {s : State} (ram : s.AllRam) (wf : s.mem.wf = true) (v : Word)
    (m : BitVec 4) : ∃ t, trapEnter v m s = .next t ∧ Switched v none s t ∧
      t.st = { s.st with mask := m } ∧ t.idle = false ∧ t.inhibit = true := by
  obtain ⟨t, run, switched, st, -, -⟩ := contextSwitch_switched ram wf v none
  refine ⟨((t.withSt (t.st.setMask m)).withIdle false).withInhibit true, ?_,
    ((switched.withSt _).withIdle false).withInhibit true, congrArg (Status.setMask · m) st, rfl, rfl⟩
  rw [trapEnter, run, andDo_next]

/-- R274: the vector of a level, and the mask it leaves. -/
theorem interruptEnter_eq (l : BitVec 4) (s : State) : interruptEnter l s =
    trapEnter (BitVec.ofNat 16 (4 * l.toNat)) (BitVec.ofNat 4 (l.toNat - 1)) s := by
  have vector : 4#16 * l.setWidth 16 = BitVec.ofNat 16 (4 * l.toNat) := by
    apply BitVec.eq_of_toNat_eq
    simp only [BitVec.toNat_mul, BitVec.toNat_setWidth, BitVec.toNat_ofNat]
    omega
  have mask : (if l = 0#4 then 0#4 else l - 1#4) = BitVec.ofNat 4 (l.toNat - 1) := by
    split
    · rw [‹l = 0#4›]
      rfl
    · have positive : l.toNat ≠ 0 := fun h => ‹¬ l = 0#4› (BitVec.eq_of_toNat_eq h)
      apply BitVec.eq_of_toNat_eq
      rw [BitVec.toNat_sub, BitVec.toNat_ofNat, BitVec.toNat_ofNat]
      omega
  rw [interruptEnter, vector, mask]

/-- Settles O46: the step is the entry that goes first, in the state after the sampling point. -/
theorem trapEntriesSwitchThroughTheirVectors : Obligations.TrapEntriesSwitchThroughTheirVectors := by
  intro s ram wf faulted pendingX u enters
  obtain ⟨reset, load, int⟩ := requestsAreTakenInOrder s faulted pendingX
  have entry : ∀ v m, step s = trapEnter v (BitVec.ofNat 4 m) u → enters v m := fun v m run => by
    obtain ⟨t, entered, switched, st, latches⟩ := trapEnter_switched (s := u)
      (ram.congr s.takeSample_regions) (by rwa [s.takeSample_mem]) v (BitVec.ofNat 4 m)
    exact ⟨t, run.trans entered, switched, by rw [st, s.takeSample_st], latches⟩
  refine ⟨fun h => entry _ 0 (reset h), fun h h' => entry _ 0 (load h h'),
    fun l h h' request latch level => entry _ _ ?_⟩
  rw [← interruptEnter_eq]
  exact (int l h h' request).1 latch level

/-- RTWP over plain RAM (R239). -/
theorem rtwp_allRam {s : State} (ram : s.AllRam) : exec .rtwp s =
    .next (((s.withSt (Status.ofWord (s.reg 15#4))).withPc (evenAddr (s.reg 14#4))).withWp
      (evenAddr (s.reg 13#4))) := returnWP_allRam ram

/-- Settles O41: the three reads are of the workspace in force, and `ofWord` drops the unused bits. -/
theorem returnRestoresFromRegisters : Obligations.ReturnRestoresFromRegisters := fun _ ram =>
  ⟨_, rtwp_allRam ram, Status.toWord_ofWord _, rfl⟩

/-- The return finds what the switch saved (R277, R279). -/
theorem Switched.returns {v : Word} {link : Option Word} {s t : State} (h : Switched v link s t)
    (ram : s.AllRam) (evenPc : s.pc.getLsbD 0 = false) (evenWp : s.wp.getLsbD 0 = false) :
    ∃ r, exec .rtwp t = .next r ∧ r.wp = s.wp ∧ r.st = s.st ∧ r.pc = s.pc := by
  refine ⟨_, rtwp_allRam (ram.congr h.regions), ?_, ?_, ?_⟩
  · exact (congrArg evenAddr h.r13).trans (evenAddr_of_even evenWp)
  · exact (congrArg Status.ofWord h.r15).trans s.st.ofWord_toWord
  · exact (congrArg evenAddr h.r14).trans (evenAddr_of_even evenPc)

theorem State.resolved_pc (s : State) (p : Operand) (size : Size) :
    (s.resolved p size).pc = s.pc + 2#16 * BitVec.ofNat 16 p.extWords :=
  congrArg State.pc (s.resolved_eq p size)

/-- Settles O49: each of the five is a switch, whose return gives back what it saved. -/
theorem returnUndoesEverySwitch : Obligations.ReturnUndoesEverySwitch := by
  rintro s ram ⟨evenPc, evenWp, wf⟩
  have operand : ∀ {v : Word} {link : Option Word} {t : State} {p : Operand},
      Switched v link (s.resolved p .word) t → ∃ r, exec .rtwp t = .next r ∧ r.wp = s.wp ∧
        r.st = s.st ∧ r.pc = s.pc + 2#16 * BitVec.ofNat 16 p.extWords := fun {v link t p} h => by
    obtain ⟨r, run, wp, st, pc⟩ := h.returns (ram.resolved p .word)
      (by rw [s.resolved_pc]; exact add_even evenPc (two_mul_even _)) (by rwa [s.resolved_wp])
    exact ⟨r, run, wp.trans (s.resolved_wp p .word), st.trans (s.resolved_st p .word),
      pc.trans (s.resolved_pc p .word)⟩
  have entry : ∀ v m, ∃ t r, trapEnter v m s = .next t ∧ exec .rtwp t = .next r ∧ r.wp = s.wp ∧
      r.st = s.st ∧ r.pc = s.pc := fun v m => by
    obtain ⟨t, entered, switched, -⟩ := trapEnter_switched ram wf v m
    obtain ⟨r, returned⟩ := switched.returns ram evenPc evenWp
    exact ⟨t, r, entered, returned⟩
  refine ⟨fun p => ?_, fun p n => ?_, fun l => ?_, entry 0xFFFC#16 0#4, entry 0x0000#16 0#4⟩
  · obtain ⟨t, run, switched, -⟩ := branchLoadWorkspaceSwitches s p ram wf
    obtain ⟨r, returned⟩ := operand switched
    exact ⟨t, r, run, returned⟩
  · obtain ⟨t, run, switched, -⟩ := xopTrapsThroughItsVector s p n ram wf
    obtain ⟨r, returned⟩ := operand switched
    exact ⟨t, r, run, returned⟩
  · rw [interruptEnter_eq]
    exact entry _ _

/-! ## Immediates and internal registers over plain RAM (spec/48_immediate_internal.md) -/

/-- Settles O39: four stores of one shape, with operands register and immediate word. -/
theorem immediateArithmetic : Obligations.ImmediateArithmetic := fun s w ram =>
  have fetched := withReg_fetch_allRam ram w
  have ram' : (s.withPc (s.pc + 2#16)).AllRam := ram.congr rfl
  ⟨(ai_stores w).completesStoring fetched ram' rfl rfl rfl (s.st.setArith_add _ _),
    (andi_stores w).completesStoring fetched ram' rfl rfl rfl (s.st.setLAE_rates _),
    (ori_stores w).completesStoring fetched ram' rfl rfl rfl (s.st.setLAE_rates _),
    (li_stores w).completesStoring (fetch_allRam ram) ram' rfl rfl rfl (s.st.setLAE_rates _)⟩

/-- Settles O40: each reads the immediate word or stores a register, and sets its one register. -/
theorem internalRegistersLoadAndStore : Obligations.InternalRegistersLoadAndStore := by
  intro s w ram u
  refine ⟨limi_rates.completesRating (fetch_allRam ram) rfl ?_, ?_, ?_, ?_⟩
  · exact BitVec.extractLsb'_toNat 0 4 (s.wordAt s.pc)
  · rw [exec, execLwpi, fetch_allRam ram, andThen_next]
    rfl
  · exact writeReg_allRam ram w s.st.toWord
  · exact writeReg_allRam ram w s.wp

/-! ## Jumps (spec/46_jumps.md, R200) -/

/-- Twice a signed displacement, in plain numbers. -/
theorem jumpTarget_toNat (pc : Word) (disp : BitVec 8) :
    ((pc + 2#16 * disp.signExtend 16).toNat : Int) =
      ((pc.toNat : Int) + 2 * disp.toInt) % 65536 := by
  have extended : (disp.signExtend 16).toInt = disp.toInt :=
    BitVec.toInt_signExtend_of_le (by omega)
  rw [BitVec.toInt_eq_toNat_cond] at extended
  rw [BitVec.toNat_add, BitVec.toNat_mul, BitVec.toNat_ofNat]
  split at extended <;> omega

theorem jump_completes {i : Instr} {s : State} {disp : BitVec 8} {cond : Bool} {C : Prop}
    (even : s.pc.getLsbD 0 = false) (meaning : exec i s = jump cond disp s)
    (holds : cond = true ↔ C) : CompletesJumping i s disp C := by
  have target : evenAddr (s.pc + 2#16 * disp.signExtend 16) = s.pc + 2#16 * disp.signExtend 16 :=
    evenAddr_of_even (add_even even (two_mul_even _))
  cases cond with
  | true =>
    refine ⟨s.withPc (s.pc + 2#16 * disp.signExtend 16), ?_, rfl, fun _ => jumpTarget_toNat _ _,
      fun h => absurd (holds.mp rfl) h⟩
    rw [meaning, jump, if_pos rfl, State.goto, target]
  | false => exact ⟨s, meaning, rfl, fun h => (nomatch holds.mpr h), fun _ => rfl⟩

/-- Settles O35: the words by the decoder's inverse, the jumps by their one shape. -/
theorem compareJumpsTestTheirFlags : Obligations.CompareJumpsTestTheirFlags := by
  intro s d even
  have decoded := fun i wf => decodeOfEncodeIsIdentity i wf
  exact ⟨⟨decoded (.jeq d) rfl, decoded (.jgt d) rfl, decoded (.jh d) rfl, decoded (.jhe d) rfl,
      decoded (.jl d) rfl, decoded (.jle d) rfl, decoded (.jlt d) rfl⟩,
    jump_completes even rfl .rfl, jump_completes even rfl .rfl, jump_completes even rfl (by simp),
    jump_completes even rfl (by simp), jump_completes even rfl (by simp),
    jump_completes even rfl (by simp), jump_completes even rfl (by simp)⟩

/-- Settles O36: as the compare jumps. -/
theorem flagJumpsTestTheirFlags : Obligations.FlagJumpsTestTheirFlags := by
  intro s d even
  have decoded := fun i wf => decodeOfEncodeIsIdentity i wf
  exact ⟨⟨decoded (.jmp d) rfl, decoded (.jnc d) rfl, decoded (.jne d) rfl, decoded (.jno d) rfl,
      decoded (.joc d) rfl, decoded (.jop d) rfl⟩,
    jump_completes even rfl (by simp), jump_completes even rfl (by simp),
    jump_completes even rfl (by simp), jump_completes even rfl (by simp),
    jump_completes even rfl .rfl, jump_completes even rfl .rfl⟩

end Sys2Proof.Machine

namespace Sys2Proof.Machine

/-! ## The CRU over plain RAM (spec/45_cru.md) -/

/-- R186: the base is bits 1 to 12 of R12. -/
theorem cruBase_eq (r12 : Word) : cruBase r12 = BitVec.ofNat 12 (r12.toNat / 2) := by
  apply BitVec.eq_of_toNat_eq
  rw [cruBase, BitVec.extractLsb'_toNat, BitVec.toNat_ofNat, Nat.shiftRight_eq_div_pow]

/-- R186: CRU addresses wrap at 4096. -/
theorem cruBase_add (r12 : Word) (k : Nat) :
    cruBase r12 + BitVec.ofNat 12 k = BitVec.ofNat 12 (r12.toNat / 2 + k) := by
  rw [cruBase_eq, BitVec.ofNat_add]

theorem cruAddr_eq (r12 : Word) (disp : BitVec 8) :
    cruAddr r12 disp = BitVec.ofInt 12 ((r12.toNat / 2 : Nat) + disp.toInt) := by
  rw [cruAddr, BitVec.ofInt_add, BitVec.ofInt_natCast, cruBase_eq]
  rfl

/-- The output bits of LDCR in the plain numbers of R186 and R187. -/
theorem sentBits_eq (r12 v : Word) (n : Nat) : sentBits r12 v n = ((List.range n).map fun k =>
    Event.cruOut (BitVec.ofNat 12 (r12.toNat / 2 + k)) (v.getLsbD k)).reverse := by
  simp only [sentBits, cruBase_add]

/-- A byte sent as a word sends its own bits, and 0 above them. -/
theorem getLsbD_setWidth_byte (b : Byte) (k : Nat) : (b.setWidth 16).getLsbD k = b.getLsbD k := by
  rw [BitVec.getLsbD_setWidth]
  rcases Nat.lt_or_ge k 16 with h | h
  · rw [decide_eq_true h, Bool.true_and]
  · rw [BitVec.getLsbD_of_ge b k (by omega), Bool.and_false]

/-- Over plain RAM a rating instruction leaves the state its operands are in, its flags and its
events. -/
theorem Rates.run_allRam {α : Type} {i : Instr} {f : State → Res α} {st : α → Status → Status}
    {seen : α → List Event} {s u : State} {o : α} (h : Rates i f st seen)
    (fetched : f s = .next (o, u)) (same : u.st = s.st) :
    ∃ t, exec i s = .next t ∧ FlagsKept i s t ∧ t.st = st o s.st ∧
      t = (u.withSt t.st).withEvents (seen o ++ u.events) := by
  refine ⟨(u.withSt (st o s.st)).withEvents (seen o ++ u.events), ?_, h.keeps o s.st, rfl, rfl⟩
  rw [h.meaning, fetched, andThen_next, same]

/-- Settles O32: the events are the operand's low bits at consecutive addresses. -/
theorem loadCruSendsLowBitsFirst : Obligations.LoadCruSendsLowBitsFirst := by
  refine fun s p c ram => ⟨fun few => ?_, fun many => ?_⟩
  · obtain ⟨t, run, keeps, st, whole⟩ := (ldcr_rates_byte p few).run_allRam
      (withReg_allRam 12#4 (fetchByte_allRam ram p) (ram.resolved p .byte)) (s.resolved_st p .byte)
    simp only [sentBits_eq, getLsbD_setWidth_byte] at whole
    obtain ⟨rates, parity⟩ := s.st.setLAE_setOP_rates (s.operandByte p)
    rw [← st] at rates parity
    exact ⟨t, run, keeps, rates, parity, whole⟩
  · obtain ⟨t, run, keeps, st, whole⟩ := (ldcr_rates_word p (Nat.not_le.mpr many)).run_allRam
      (withReg_allRam 12#4 (fetchWord_allRam ram p) (ram.resolved p .word)) (s.resolved_st p .word)
    rw [sentBits_eq] at whole
    have rates := s.st.setLAE_rates (s.operandWord p)
    rw [← st] at rates
    exact ⟨t, run, keeps, rates, whole⟩

theorem State.resolved_cruInputs (s : State) (p : Operand) (size : Size) :
    (s.resolved p size).cruInputs = s.cruInputs := by
  cases p <;> rfl

theorem State.resolved_draws (s : State) (p : Operand) (size : Size) :
    (s.resolved p size).draws = s.draws := by
  cases p <;> rfl

/-- The answers do not depend on what an operand's resolution does. -/
theorem State.resolved_cruAnswer (s : State) (p : Operand) (size : Size) (k : Nat)
    (a : BitVec 12) : (s.resolved p size).cruAnswer k a = s.cruAnswer k a := by
  rw [State.cruAnswer, s.resolved_cruInputs, s.resolved_draws, State.cruAnswer]

theorem transferCount_le (c : BitVec 4) : transferCount c ≤ 16 := by
  have := c.isLt
  unfold transferCount
  split <;> omega

/-- The word STCR collects over plain RAM. -/
def State.collected (s : State) (p : Operand) (size : Size) (c : BitVec 4) : Word :=
  (cruInMany (cruBase ((s.resolved p size).reg 12#4)) (transferCount c) (s.resolved p size)).1

/-- The state STCR stores in over plain RAM: operand resolved, flags set, inputs used up. -/
def State.afterInputs (s : State) (p : Operand) (size : Size) (c : BitVec 4) (st : Status) : State :=
  (((s.resolved p size).withSt st).withCruInputs (s.cruInputs.drop (transferCount c))).withDraws
    (s.draws + (transferCount c - s.cruInputs.length))

section
variable {s : State} {p : Operand} {size : Size} {c : BitVec 4}

/-- The collected word bit by bit (R188). -/
theorem collected_bits (k : Nat) : (s.collected p size c).getLsbD k = (decide (k < transferCount c) &&
    s.cruAnswer k (BitVec.ofNat 12 (((s.resolved p size).reg 12#4).toNat / 2 + k))) := by
  rw [State.collected, cruInMany_bits _ (transferCount_le c), s.resolved_cruAnswer, cruBase_add]

/-- For 1 to 8 bits the low byte is all of the collected word. -/
theorem loByte_collected_bits (few : transferCount c ≤ 8) (k : Nat) :
    (loByte (s.collected p size c)).getLsbD k = (s.collected p size c).getLsbD k := by
  rw [loByte, BitVec.getLsbD_extractLsb', Nat.zero_add]
  rcases Nat.lt_or_ge k 8 with low | high
  · rw [decide_eq_true low, Bool.true_and]
  · rw [collected_bits, decide_eq_false (by omega : ¬ k < 8),
      decide_eq_false (by omega : ¬ k < transferCount c), Bool.false_and, Bool.false_and]

/-- The state after the inputs, with new flags. -/
theorem cruInMany_withSt (f : Status → Status) (a : BitVec 12) :
    let v := cruInMany a (transferCount c) (s.resolved p size)
    v.2.withSt (f v.2.st) = s.afterInputs p size c (f s.st) := by
  intro v
  rw [cruInMany_st, s.resolved_st, cruInMany_state, s.resolved_cruInputs, s.resolved_draws]
  rfl

theorem afterInputs_allRam (ram : s.AllRam) (st : Status) : (s.afterInputs p size c st).AllRam :=
  (ram.resolved p size).congr rfl

theorem stcr_byte_allRam (ram : s.AllRam) (few : transferCount c ≤ 8) :
    let b := loByte (s.collected p .byte c)
    exec (.stcr p c) s =
      .next ((s.afterInputs p .byte c ((s.st.setLAE b).setOP b)).storeByte (s.ea p) b) := by
  intro b
  rw [stcr_byte few, withReg_allRam 12#4 (fetchByte_allRam ram p) (ram.resolved p .byte), andThen_next]
  rw [← writeByte_allRam (afterInputs_allRam ram _) _ ((s.resolved p .byte).wordAt (s.ea p)),
    ← cruInMany_withSt fun st => (st.setLAE b).setOP b]
  rfl

theorem stcr_word_allRam (ram : s.AllRam) (many : 8 < transferCount c) :
    let v := s.collected p .word c
    exec (.stcr p c) s =
      .next ((s.afterInputs p .word c (s.st.setLAE v)).storeWord (s.ea p) v) := by
  intro v
  rw [stcr_word (Nat.not_le.mpr many), withReg_allRam 12#4 (fetchWord_allRam ram p) (ram.resolved p .word),
    andThen_next, ← writeWord_allRam (afterInputs_allRam ram _), ← cruInMany_withSt fun st => st.setLAE v]
  rfl

end

/-- Settles O33: the collected word is the answers bit by bit, its low byte for 1 to 8 bits. -/
theorem storeCruCollectsInputBits : Obligations.StoreCruCollectsInputBits := by
  refine fun s p c ram => ⟨fun few => ?_, fun many => ?_⟩
  · obtain ⟨rates, parity⟩ := s.st.setLAE_setOP_rates (loByte (s.collected p .byte c))
    refine ⟨_, _, stcr_byte_allRam ram few, ?_,
      fun k => (loByte_collected_bits few k).trans (collected_bits k), rates, parity, rfl⟩
    rw [FlagsKept, Instr.statusMask, if_pos few]
    exact s.st.setLAE_setOP_keeps _ _
  · refine ⟨_, _, stcr_word_allRam ram many, ?_, collected_bits, s.st.setLAE_rates _, rfl⟩
    rw [FlagsKept, Instr.statusMask, if_neg (Nat.not_le.mpr many)]
    exact s.st.setLAE_keeps _

/-- Settles O34: the one address is the base plus the signed displacement. -/
theorem cruBitInstructions : Obligations.CruBitInstructions := by
  intro s disp ram a
  have read := readReg_allRam ram 12#4
  have place : cruAddr (s.reg 12#4) disp = a := cruAddr_eq _ _
  refine ⟨?_, ?_, ?_⟩
  · rw [(sbo_rates disp).meaning, read, andThen_next, place]
    rfl
  · rw [(sbz_rates disp).meaning, read, andThen_next, place]
    rfl
  · rw [exec, execTb, read, andThen_next, place, cruIn_eq]
    rfl

end Sys2Proof.Machine

namespace Sys2Proof.Machine

/-! ## Shifts over plain RAM (spec/47_shifts.md) -/

theorem shiftPlaces_range {s : State} (ram : s.AllRam) (c : BitVec 4) :
    1 ≤ s.shiftPlaces c ∧ s.shiftPlaces c ≤ 16 :=
  have ⟨low, high, _⟩ := shiftCount_steady (shiftCount_allRam ram c)
  ⟨low, high⟩

theorem shiftLeft_eq_ofNat (v : Word) (n : Nat) : v <<< n = BitVec.ofNat 16 (v.toNat * 2 ^ n) := by
  rw [← Nat.shiftLeft_eq]
  rfl

theorem ushiftRight_eq_ofNat (v : Word) (n : Nat) : v >>> n = BitVec.ofNat 16 (v.toNat / 2 ^ n) := by
  rw [← Nat.shiftRight_eq_div_pow, ← BitVec.toNat_ushiftRight, BitVec.ofNat_toNat, BitVec.setWidth_eq]

theorem sshiftRight_eq_ofInt (v : Word) (n : Nat) :
    v.sshiftRight n = BitVec.ofInt 16 (v.toInt / 2 ^ n) := by
  rw [← BitVec.ofInt_toInt (x := v.sshiftRight n), BitVec.toInt_sshiftRight, Int.shiftRight_eq_div_pow]
  rfl

/-- 16 places turn a word once round, as 0 places do. -/
theorem shiftRound_eq_rotateRight (v : Word) {n : Nat} (low : 1 ≤ n) (high : n ≤ 16) :
    v >>> n ||| v <<< (16 - n) = v.rotateRight n := by
  rcases Nat.lt_or_eq_of_le high with less | rfl
  · rw [BitVec.rotateRight_def, Nat.mod_eq_of_lt less]
  · rw [BitVec.rotateRight_def, BitVec.ushiftRight_eq_zero le_rfl, BitVec.or_comm]
    simp

/-- A signed number is small where its upper bits are its sign. -/
theorem toInt_bounds_iff (v : Word) {k : Nat} (hk : k < 16) :
    (-(2 ^ k : Int) ≤ v.toInt ∧ v.toInt < 2 ^ k) ↔ ∀ i, k ≤ i → i < 16 → v.getLsbD i = v.msb := by
  have small : ∀ u : Word, u.toNat < 2 ^ k ↔ ∀ i, k ≤ i → i < 16 → u.getLsbD i = false := fun u => by
    rw [BitVec.toNat_lt_iff_getLsbD_eq_false k hk]
    refine ⟨fun h i hi _ => Nat.add_sub_cancel' hi ▸ h (i - k), fun h i => ?_⟩
    rcases Nat.lt_or_ge (k + i) 16 with inside | outside
    · exact h _ (Nat.le_add_right k i) inside
    · exact u.getLsbD_of_ge _ outside
  have cast : ((2 ^ k : Nat) : Int) = 2 ^ k := Nat.cast_pow 2 k
  have size := v.isLt
  have num := v.toInt_eq_msb_cond
  cases sign : v.msb with
  | false =>
    rw [sign, if_neg Bool.false_ne_true] at num
    rw [← small v]
    omega
  | true =>
    have flipped : (~~~v).toNat = 65535 - v.toNat := BitVec.toNat_not
    rw [sign, if_pos rfl] at num
    have bits : (∀ i, k ≤ i → i < 16 → v.getLsbD i = true) ↔
        ∀ i, k ≤ i → i < 16 → (~~~v).getLsbD i = false :=
      forall_congr' fun i => imp_congr_right fun _ => imp_congr_right fun hi => by
        rw [BitVec.getLsbD_not, decide_eq_true hi, Bool.true_and, Bool.not_eq_false']
    rw [bits, ← small]
    omega

/-- A product by a power of two fits where the number fits so many places fewer. -/
theorem signedFits_mul_pow {t : Int} {n : Nat} (hn : n ≤ 15) :
    signedFits 16 (t * 2 ^ n) ↔ -(2 ^ (15 - n) : Int) ≤ t ∧ t < 2 ^ (15 - n) := by
  have split : (2 : Int) ^ (16 - 1) = 2 ^ (15 - n) * 2 ^ n := by
    rw [← pow_add, Nat.sub_add_cancel hn]
  have pos : (0 : Int) < 2 ^ n := pow_pos (by decide) n
  rw [signedFits, split, ← neg_mul, mul_le_mul_iff_left₀ pos, mul_lt_mul_iff_left₀ pos]

theorem signChanges_eq_false_iff (v : Word) (n : Nat) : signChanges v n = false ↔
    ∀ i, i < n + 1 → (if i ≤ 15 then v.getLsbD (15 - i) else false) = v.msb := by
  simp only [signChanges, List.any_eq_false, List.mem_range, bne_iff_ne, ne_eq, not_not]

/-- Up to 15 places the sign is lost where the bits that pass it are not all like it. -/
theorem signChanges_iff_of_le (v : Word) {n : Nat} (hn : n ≤ 15) :
    signChanges v n = false ↔ signedFits 16 (v.toInt * 2 ^ n) := by
  rw [signChanges_eq_false_iff, signedFits_mul_pow hn, toInt_bounds_iff v (by omega)]
  constructor
  · intro h i low high
    have := h (15 - i) (by omega)
    rwa [if_pos (by omega), show 15 - (15 - i) = i by omega] at this
  · intro h i hi
    rw [if_pos (by omega)]
    exact h _ (by omega) (by omega)

/-- After 16 places nothing is left, so that 0 alone keeps its sign all the way. -/
theorem signChanges_sixteen (v : Word) : signChanges v 16 = false ↔ v = 0#16 := by
  rw [signChanges_eq_false_iff]
  constructor
  · intro h
    have sign : v.msb = false := (h 16 (by decide)).symm
    refine BitVec.eq_of_getLsbD_eq fun i hi => ?_
    have := h (15 - i) (by omega)
    rwa [if_pos (by omega), show 15 - (15 - i) = i by omega, sign, ← BitVec.getLsbD_zero (w := 16)] at this
  · rintro rfl i -
    simp

theorem signChanges_iff (v : Word) {n : Nat} (hn : n ≤ 16) :
    signChanges v n = true ↔ ¬ signedFits 16 (v.toInt * 2 ^ n) := by
  rw [← Bool.not_eq_false, not_iff_not]
  rcases Nat.lt_or_eq_of_le hn with less | rfl
  · exact signChanges_iff_of_le v (by omega)
  · rw [signChanges_sixteen, signedFits, ← BitVec.toInt_inj]
    simp only [BitVec.toInt_zero]
    omega

/-- Settles O37: SLA's own flag and number are those of the product. -/
theorem shiftLeftMultiplies : Obligations.ShiftLeftMultiplies := by
  intro s c w ram n v r
  have fetched := withReg_allRam w (shiftCount_allRam ram c) ram
  have value : v <<< n = r := shiftLeft_eq_ofNat v n
  have rates : ((s.st.setOV (signChanges v n)).setLAE (v <<< n)).RatesResult r :=
    value ▸ Status.setLAE_rates _ _
  exact (sla_stores w c).completesStoring fetched ram rfl rfl value
    ⟨rates, rfl, signChanges_iff v (shiftPlaces_range ram c).2⟩

/-- Settles O38: the three ways to shift right are division, signed or not, and rotation. -/
theorem shiftRightDividesOrRotates : Obligations.ShiftRightDividesOrRotates := by
  intro s c w ram n v flags arithmetic logical
  have fetched := withReg_allRam w (shiftCount_allRam ram c) ram
  obtain ⟨low, high⟩ := shiftPlaces_range ram c
  have rates : ∀ (u r : Word), u = r → flags r ((s.st.setLAE u).setC (v.getLsbD (n - 1))) :=
    fun u _ h => ⟨h ▸ s.st.setLAE_rates u, rfl⟩
  have sra : v.sshiftRight n = arithmetic := sshiftRight_eq_ofInt v n
  have srl : v >>> n = logical := ushiftRight_eq_ofNat v n
  have src : v >>> n ||| v <<< (16 - n) = v.rotateRight n := shiftRound_eq_rotateRight v low high
  exact ⟨(sra_stores w c).completesStoring fetched ram rfl rfl sra (rates _ _ sra),
    (srl_stores w c).completesStoring fetched ram rfl rfl srl (rates _ _ srl),
    (src_stores w c).completesStoring fetched ram rfl rfl src (rates _ _ src)⟩

end Sys2Proof.Machine
